-- ==== Sys2Proof/Word.lean ====
section
/-! DEFINITION. The words of the CORE block and the two small sets of names that both its configuration and its
operations use. -/

namespace Sys2Proof

/-- One byte: a character, an entry of TEXT or of a Baudot table (20_memory.md R60). -/
abbrev Byte := BitVec 8

/-- A Varicode word, format VWORD (30_encoding.md R94). -/
abbrev VWord := BitVec 16

/-- A 48-bit word: a host command CMD (30_encoding.md R95) or an output record OUT (R100). -/
abbrev Word48 := BitVec 48

/-- A 32-bit result RES, flag mask or base frequency (30_encoding.md R95, R97). -/
abbrev Word32 := BitVec 32

/-- A rotation delta, an entry of QTABLE: +1, -1 or 0 (40_quadrature.md R120, R122). -/
inductive Delta where
  /-- +1, clockwise -/
  | cw
  /-- -1, counter-clockwise -/
  | ccw
  /-- 0, no counted step -/
  | zero
deriving DecidableEq, Repr

/-- The number a rotation delta stands for (00_scope.md R8: the only signed table values). -/
def Delta.toInt : Delta → Int
  | .cw => 1
  | .ccw => -1
  | .zero => 0

/-- The opposite delta, for the antisymmetry of 40_quadrature.md R124. -/
def Delta.neg : Delta → Delta
  | .cw => .ccw
  | .ccw => .cw
  | .zero => .zero

/-- The Baudot shift state and the selector of a Baudot table: Letters (0) or Figures (1)
(10_state.md R34, 30_encoding.md R96). -/
inductive Shift where
  | letters
  | figures
deriving DecidableEq, Repr

/-- The bit that stands for a shift state or table selector: 0 Letters, 1 Figures (30_encoding.md R96). -/
def Shift.bit : Shift → Bool
  | .letters => false
  | .figures => true

/-- The shift state or table selector a bit stands for (30_encoding.md R96). -/
def Shift.ofBit : Bool → Shift
  | false => .letters
  | true => .figures

end Sys2Proof
end

