-- ==== Sys2Proof/Config.lean ====
section
/-! DEFINITION. The configuration of the CORE block (00_scope.md R6), its default tables, the test configuration CFG-T,
and the one free value of the spec: what a byte of TEXT holds after power-on. -/

namespace Sys2Proof

/-- The implementation parameters of 00_scope.md R6, taken whole as one record. The rule's constraints are checked by
Sys2Proof.Config.valid (Machine/Check.lean); those on TX_CH, TX_PLL, TX_DRIVE, HIST_RESET and the shift codes' width are
held by the fields' types. N_SYNC and N_NUL are fixed by the source, SPACE_CODE is derived. -/
structure Config where
  /-- NB, the number of push-buttons -/
  nb : Nat
  /-- QTABLE, the quadrature decode table, indexed by the history (40_quadrature.md R122) -/
  qtable : List Delta
  /-- HIST_RESET -/
  histReset : BitVec 4
  /-- BTN_HELD_LEVEL[b] is bit b: the raw level that means held (41_button.md R144) -/
  heldLevel : BitVec 15
  /-- PBDEBOUNCE -/
  pbDebounce : Nat
  /-- PUSH_BUTTON_RESET -/
  pushButtonReset : Nat
  /-- PBRELAX -/
  pbRelax : Nat
  /-- MAXLEN, the size of TEXT in bytes -/
  maxLen : Nat
  /-- FREQ_W, the width of a frequency in bits -/
  freqW : Nat
  /-- SHIFT, the mark-to-space shift in hertz -/
  shift : Nat
  /-- TX_OFFSET, in hertz, an integer -/
  txOffset : Int
  /-- TX_CH -/
  txCh : BitVec 4
  /-- TX_PLL -/
  txPll : BitVec 2
  /-- TX_DRIVE -/
  txDrive : BitVec 6
  /-- T_RBIT, milliseconds -/
  tRbit : Nat
  /-- T_RSTOP, milliseconds -/
  tRstop : Nat
  /-- T_RSETTLE, milliseconds -/
  tRsettle : Nat
  /-- T_SWITCH, milliseconds -/
  tSwitch : Nat
  /-- BAUDOT_LTRS, 33 bytes indexed by the code (43_baudot_rtty.md R192) -/
  baudotLtrs : List Byte
  /-- BAUDOT_FIGS, 33 bytes indexed by the code (43_baudot_rtty.md R192) -/
  baudotFigs : List Byte
  /-- LTRS_CODE -/
  ltrsCode : BitVec 5
  /-- FIGS_CODE -/
  figsCode : BitVec 5
  /-- VARICODE, 128 words indexed by the character (44_varicode_psk31.md R232) -/
  varicode : List VWord
  /-- T_PBIT, milliseconds -/
  tPbit : Nat
  /-- T_PSWITCH, milliseconds -/
  tPswitch : Nat
  /-- N_PREAMBLE -/
  nPreamble : Nat
  /-- N_GAP -/
  nGap : Nat
deriving DecidableEq, Repr

namespace Config

/-- N_SYNC, fixed by the source (00_scope.md R6, 43_baudot_rtty.md R208). -/
def nSync : Nat := 4

/-- N_NUL, fixed by the source (00_scope.md R6, 44_varicode_psk31.md R248). -/
def nNul : Nat := 3

/-- The default QTABLE (40_quadrature.md R125), from index 0. -/
def defaultQtable : List Delta :=
   [.zero, .cw, .zero, .zero, .ccw, .zero, .zero, .zero] ++
   [.zero, .zero, .zero, .ccw, .zero, .zero, .cw, .zero]

/-- The default Letters table (43_baudot_rtty.md R194), from index 0. -/
def defaultLtrs : List Byte :=
   [0x00, 0x45, 0x0A, 0x41, 0x20, 0x53, 0x49, 0x55, 0x0D, 0x44, 0x52] ++
   [0x4A, 0x4E, 0x46, 0x43, 0x4B, 0x54, 0x5A, 0x4C, 0x57, 0x48, 0x59] ++
   [0x50, 0x51, 0x4F, 0x42, 0x47, 0x00, 0x4D, 0x58, 0x56, 0x00, 0x00]

/-- The default Figures table (43_baudot_rtty.md R194), from index 0. -/
def defaultFigs : List Byte :=
   [0x00, 0x33, 0x0A, 0x2D, 0x20, 0x07, 0x38, 0x37, 0x0D, 0x24, 0x34] ++
   [0x27, 0x2C, 0x21, 0x3A, 0x28, 0x35, 0x22, 0x29, 0x32, 0x23, 0x36] ++
   [0x30, 0x31, 0x39, 0x3F, 0x26, 0x00, 0x2E, 0x2F, 0x3B, 0x00, 0x00]

/-- The default Varicode table (44_varicode_psk31.md R234), from index 0. -/
def defaultVaricode : List VWord :=
   [0x0355, 0x036D, 0x02DD, 0x03BB, 0x035D, 0x03EB, 0x03DD, 0x02FD, 0x03FD, 0x00F7, 0x0017, 0x03DB, 0x02ED, 0x001F, 0x02BB, 0x0357] ++
   [0x03BD, 0x02BD, 0x02D7, 0x03D7, 0x036B, 0x035B, 0x02DB, 0x03AB, 0x037B, 0x02FB, 0x03B7, 0x02AB, 0x02EB, 0x0377, 0x037D, 0x03FB] ++
   [0x0001, 0x01FF, 0x01F5, 0x015F, 0x01B7, 0x02AD, 0x0375, 0x01FD, 0x00DF, 0x00EF, 0x01ED, 0x01F7, 0x0057, 0x002B, 0x0075, 0x01EB] ++
   [0x00ED, 0x00BD, 0x00B7, 0x00FF, 0x01DD, 0x01B5, 0x01AD, 0x016B, 0x01AB, 0x01DB, 0x00AF, 0x017B, 0x016F, 0x0055, 0x01D7, 0x03D5] ++
   [0x02F5, 0x005F, 0x00D7, 0x00B5, 0x00AD, 0x0077, 0x00DB, 0x00BF, 0x0155, 0x007F, 0x017F, 0x017D, 0x00EB, 0x00DD, 0x00BB, 0x00D5] ++
   [0x00AB, 0x0177, 0x00F5, 0x007B, 0x005B, 0x01D5, 0x015B, 0x0175, 0x015D, 0x01BD, 0x02D5, 0x01DF, 0x01EF, 0x01BF, 0x03F5, 0x016D] ++
   [0x03ED, 0x000D, 0x007D, 0x003D, 0x002D, 0x0003, 0x002F, 0x006D, 0x0035, 0x000B, 0x01AF, 0x00FD, 0x001B, 0x0037, 0x000F, 0x0007] ++
   [0x003F, 0x01FB, 0x0015, 0x001D, 0x0005, 0x003B, 0x006F, 0x006B, 0x00FB, 0x005D, 0x0157, 0x03B5, 0x01BB, 0x02B5, 0x03AD, 0x02B7]

/-- The test configuration CFG-T of 00_scope.md R6 with the default tables. It is illustrative: statements are made
for every configuration, and only State.reset takes this one (log entry 1, DESIGN CHOICE, unsafe). -/
def cfgT : Config where
  nb := 1
  qtable := defaultQtable
  histReset := 0
  heldLevel := 0
  pbDebounce := 3
  pushButtonReset := 8
  pbRelax := 2
  maxLen := 16
  freqW := 32
  shift := 170
  txOffset := 975
  txCh := 2
  txPll := 0
  txDrive := 3
  tRbit := 22
  tRstop := 33
  tRsettle := 100
  tSwitch := 2
  baudotLtrs := defaultLtrs
  baudotFigs := defaultFigs
  ltrsCode := 31
  figsCode := 27
  varicode := defaultVaricode
  tPbit := 32
  tPswitch := 0
  nPreamble := 4
  nGap := 2

/-- The FREE VALUE of the model: the byte of TEXT at an address after the given number of hardware resets, while
nothing has written it. "each unwritten byte is an arbitrary fixed byte" (93_implementation_defined.md U9, 20_memory.md
R61); no value of it can be proved (log entry 3, safe). -/
opaque powerOnText : Nat → Nat → Byte

end Config

end Sys2Proof
end

