-- ==== Sys2Proof/Syntax.lean ====
section
/-! DEFINITION. The operations of the CORE block (00_scope.md R13): one constructor of Instr for each row of
spec/opcode_table.json, and the records that pass its ports. -/

namespace Sys2Proof

/-- Format PIN, the operand of TICK (30_encoding.md R91): the levels of the two encoder pins and of the buttons.
Button b is bit b of `btn`; a block with NB buttons looks at bits 0 to NB - 1 (log entry 20). -/
structure Pin where
  encA : Bool
  encB : Bool
  btn : BitVec 15
deriving DecidableEq, Repr

/-- An output event on the synthesizer port, an element of TRACE (45_synth_port.md R260 to R264). The frequency and
the duration are the exact numbers of the rules (log entry 10). -/
inductive Event where
  /-- SETF(ch, pll, f, drv): set the carrier frequency and turn the output on (R261) -/
  | setf (ch : BitVec 4) (pll : BitVec 2) (f : Nat) (drv : BitVec 6)
  /-- INVP(ch, inv): set the phase-inversion state of the channel (R262) -/
  | invp (ch : BitVec 4) (inv : Bool)
  /-- DISO: disable the outputs (R263) -/
  | diso
  /-- WAIT(d): let d milliseconds pass (R264) -/
  | wait (d : Nat)
deriving DecidableEq, Repr

/-- The 16 operations and 4 output records of 00_scope.md R13. -/
inductive Instr where
  /-- TICK: one poll tick (40_quadrature.md R130) -/
  | tick (pin : Pin)
  /-- QPOLL: quadrature decoder step on the sample {ENC_A, ENC_B}, a part of TICK (40_quadrature.md R126) -/
  | qpoll (ab : BitVec 2)
  /-- BPOLL: tracker step of button b on its raw level, a part of TICK (41_button.md R146) -/
  | bpoll (b : BitVec 4) (raw : Bool)
  /-- BEN: enable (re-arm) button b (41_button.md R152) -/
  | ben (b : BitVec 4)
  /-- BDIS: disable button b (41_button.md R153) -/
  | bdis (b : BitVec 4)
  /-- FRD: read the event flags (42_event_flags.md R174) -/
  | frd
  /-- FCLR: clear selected event flags (42_event_flags.md R175) -/
  | fclr (mask : Word32)
  /-- FXCHG: atomic read-and-clear of selected event flags (42_event_flags.md R176) -/
  | fxchg (mask : Word32)
  /-- BLKUP: Baudot forward lookup (43_baudot_rtty.md R196) -/
  | blkup (sel : Shift) (ch : Byte)
  /-- BREV: Baudot reverse lookup (43_baudot_rtty.md R197) -/
  | brev (sel : Shift) (code : BitVec 5)
  /-- SENDR: send the text buffer as RTTY (43_baudot_rtty.md R205) -/
  | sendr (len : BitVec 12) (base : Word32)
  /-- VLKUP: Varicode forward lookup (44_varicode_psk31.md R236) -/
  | vlkup (ch : Byte)
  /-- VREV: Varicode reverse lookup (44_varicode_psk31.md R237) -/
  | vrev (word : VWord)
  /-- SENDP: send the text buffer as PSK31 (44_varicode_psk31.md R243) -/
  | sendp (len : BitVec 12) (base : Word32)
  /-- TXWR: write one byte of the text buffer (46_host_port.md R281) -/
  | txwr (addr : BitVec 12) (byte : Byte)
  /-- INIT: subsystem initialisation (46_host_port.md R282) -/
  | init
  /-- SETF: the output record that sets the carrier frequency (45_synth_port.md R261) -/
  | setf (ch : BitVec 4) (pll : BitVec 2) (f : Nat) (drv : BitVec 6)
  /-- INVP: the output record that sets the phase inversion (45_synth_port.md R262) -/
  | invp (ch : BitVec 4) (inv : Bool)
  /-- DISO: the output record that disables the outputs (45_synth_port.md R263) -/
  | diso
  /-- WAIT: the output record of a blocking delay (45_synth_port.md R264) -/
  | wait (d : Nat)
deriving DecidableEq, Repr

end Sys2Proof
end

