-- ==== Sys2Proof/Machine/State.lean ====
section
/-! DEFINITION. The state of the CORE block (10_state.md R20, 20_memory.md R61, 10_state.md R41) and of the model around
it, why a step can stop, and the state right after reset (70_reset_and_hazards.md R320). -/

namespace Sys2Proof.Machine

/-- BTN[b], one tracker (10_state.md R22 to R28). The three counters are numbers; that they fit DBC_W, LPC_W and RLX_W
is part of the invariant (log entry 8). -/
structure Button where
  /-- LVL, the raw level at the last tick (R23) -/
  lvl : Bool
  /-- DBC, the debounce counter (R24) -/
  dbc : Nat
  /-- PUSHED, the tracker's pushed flag (R25) -/
  pushed : Bool
  /-- EN, the enable latch (R26) -/
  en : Bool
  /-- LPC, the long-press counter (R27) -/
  lpc : Nat
  /-- RLX, the relaxation counter (R28) -/
  rlx : Nat
deriving DecidableEq, Repr

/-- MODE (10_state.md R30); the value 3 never occurs and has no name (93_implementation_defined.md U13). -/
inductive Mode where
  /-- 0: no message is being sent -/
  | idle
  /-- 1: a SENDR is running -/
  | rtty
  /-- 2: a SENDP is running -/
  | psk
deriving DecidableEq, Repr

/-- An act of the encoder agent's procedures that emits (43_baudot_rtty.md R205 to R210, 44_varicode_psk31.md R243 to
R247): one event, or a call and the wait that follows it. -/
inductive Act where
  /-- `emit SETF(.., FMARK, ..) ; TONE <- 1`, the first event of an RTTY message (R205) -/
  | rttyCarrier
  /-- `PHASE <- 0` and `emit SETF(.., FMARK, ..)`, the first event of a PSK31 message (R243) -/
  | pskCarrier
  /-- `emit WAIT(d)` -/
  | hold (d : Nat)
  /-- ELEM(tone, T) (R210), not begun -/
  | elem (tone : Bool) (t : Nat)
  /-- PBIT(b) (R246), not begun -/
  | slot (bit : Bool)
deriving DecidableEq, Repr

/-- A piece of the sequencer's position inside a character (10_state.md R31): an act, or a register write that happens
in the atomic step of the next event (43_baudot_rtty.md R215, log entry 7). -/
inductive Task where
  | act (a : Act)
  /-- `SHIFTST <- v` (R205, R211) -/
  | setShift (v : Shift)
  /-- `IDX <- IDX + 1` (R205, R243) -/
  | nextChar
deriving DecidableEq, Repr

/-- What reaches the block from outside, or which agent moves (20_memory.md R70, R71, log entry 4). -/
inductive Input where
  /-- the poll tick arrives with this PIN record (60_exceptions.md R293) -/
  | tick (pin : BitVec 17)
  /-- the host offers this CMD word (46_host_port.md R280) -/
  | host (cmd : Word48)
  /-- it is the encoder agent's turn -/
  | encoder
  /-- a hardware reset (70_reset_and_hazards.md R320, R323) -/
  | reset
deriving DecidableEq, Repr

/-- The result `(pressed, lpr)` of BPOLL (41_button.md R146). -/
structure Press where
  pressed : Bool
  lpr : Bool
deriving DecidableEq, Repr

/-- The result of a sub-operation of TICK run as an instruction of its own (log entry 6). -/
inductive SubResult where
  /-- `delta` of QPOLL (40_quadrature.md R126) -/
  | delta (d : Delta)
  /-- `(pressed, lpr)` of BPOLL (41_button.md R146) -/
  | press (p : Press)
deriving DecidableEq, Repr

/-- The contents of TEXT (20_memory.md R61) as (address, byte) pairs: addresses strictly rising, an unlisted address is
a byte nothing has written (Machine/Ops.lean says what it reads as). -/
abbrev Memory := List Host.Cell

/-- The state of the machine. The first group is the block's (10_state.md R20, R41, 20_memory.md R61), the second the
model's own (INVENTORY.md, State). -/
structure State where
  /-- HIST (R21) -/
  hist : BitVec 4
  /-- BTN[0 .. NB-1] (R22) -/
  btn : List Button
  /-- EVFLAGS (R29), bits 1 + 2 x NB down to 0 (log entry 9) -/
  evflags : Word32
  /-- MODE (R30) -/
  mode : Mode
  /-- IDX (R31) -/
  idx : Nat
  /-- NLEN (R32) -/
  nlen : Nat
  /-- FMARK (R33) -/
  fmark : Nat
  /-- FSPACE (R33) -/
  fspace : Nat
  /-- SHIFTST (R34) -/
  shiftst : Shift
  /-- TONE (R35): true is mark -/
  tone : Bool
  /-- PHASE (R36): true is inverted -/
  phase : Bool
  /-- TEXT (20_memory.md R61) -/
  text : Memory
  /-- TRACE (R41), oldest first -/
  trace : List Event
  /-- the sequencer's position inside IDX's character (R31, log entry 7) -/
  todo : List Task
  /-- the configuration (00_scope.md R6, log entry 1); no step changes it -/
  cfg : Config
  /-- what arrives from outside, in order (log entry 4) -/
  inputs : List Input
  /-- RES, what the last host operation returned (30_encoding.md R97, log entry 6) -/
  res : Option Word32
  /-- what the last QPOLL or BPOLL of its own returned (log entry 6) -/
  sub : Option SubResult
  /-- how many hardware resets have happened (log entry 3) -/
  powerUps : Nat
deriving DecidableEq, Repr

/-- Why a step stops with a fault. The block itself raises none (60_exceptions.md R290). -/
inductive Fault where
  /-- Raised by the encoder agent's read of TEXT at an address at or above MAXLEN, which does not exist (20_memory.md R60,
  R63). R63 says it cannot happen: the invariant of Safety.lean rules it out. SAFE: the model stops. -/
  | noSuchAddress (addr : Nat)
deriving DecidableEq, Repr

/-- Why a step is refused: points where the spec assigns no behaviour (46_host_port.md R286). -/
inductive Refusal where
  /-- Raised by exec's arm of an instruction that has no meaning yet; no arm is left so. SAFE. -/
  | notModelled (mnemonic : String)
  /-- Raised by the host agent's turn when the offered CMD word has a reserved code (30_encoding.md R107,
  93_implementation_defined.md U8). SAFE: the spec gives such a word no meaning. -/
  | reservedOp (op : BitVec 4)
  /-- Raised by SENDR and SENDP when a computed frequency, given here, does not fit FREQ_W (30_encoding.md R102,
  93_implementation_defined.md U3). SAFE: the spec gives no value. -/
  | freqOutOfRange (hertz : Int)
  /-- Raised by every step of a machine whose configuration breaks a constraint (00_scope.md R7,
  93_implementation_defined.md U5). SAFE: the spec gives it no meaning. -/
  | badConfig
  /-- Raised by a hardware reset that arrives while MODE is not IDLE (70_reset_and_hazards.md R323,
  93_implementation_defined.md U4). SAFE: the spec leaves it unspecified. -/
  | resetWhileSending
deriving DecidableEq, Repr

/-- A tracker after reset (70_reset_and_hazards.md R320): released, armed, every counter 0. -/
def Button.afterReset (c : Config) (b : Nat) : Button :=
  { lvl := !c.heldLevel.getLsbD b, dbc := 0, pushed := false, en := true, lpc := 0, rlx := 0 }

/-- The state after a hardware reset of a block with this configuration (70_reset_and_hazards.md R320), the `n`-th of
the machine's life: every register at its reset value, TEXT with nothing written, TRACE empty, nothing arriving. -/
def State.afterReset (c : Config) (n : Nat) : State where
  hist := c.histReset
  btn := (List.range c.nb).map (Button.afterReset c)
  evflags := 0
  mode := .idle
  idx := 0
  nlen := 0
  fmark := 0
  fspace := 0
  shiftst := .letters
  tone := true
  phase := false
  text := []
  trace := []
  todo := []
  cfg := c
  inputs := []
  res := none
  sub := none
  powerUps := n

/-- The machine right after reset (70_reset_and_hazards.md R320), with the configuration CFG-T (log entry 1). -/
def State.reset : State := State.afterReset Config.cfgT 0

end Sys2Proof.Machine
end

