-- ==== Sys2Proof/Machine/Operands.lean ====
section
/-! DEFINITION. Operand assembly (30_encoding.md R101 to R105) and the bit helpers of 00_scope.md R9. -/

namespace Sys2Proof.Machine

/-- `bitlen(v)`: 0 for 0, else 1 + the index of the highest set bit (00_scope.md R9). On a Varicode word it is the
natural length L (30_encoding.md R105). -/
def bitlen (v : Nat) : Nat := if v = 0 then 0 else Nat.log2 v + 1

/-- The sample `s = {ENC_A, ENC_B}` of a PIN record (20_memory.md R67, 30_encoding.md R91). -/
def sampleOf (p : Pin) : BitVec 2 := BitVec.ofBool p.encA ++ BitVec.ofBool p.encB

/-- The history index `hix = {HIST[1:0], s}` (30_encoding.md R101). -/
def historyIndex (hist : BitVec 4) (s : BitVec 2) : BitVec 4 := hist.extractLsb' 0 2 ++ s

/-- The mark frequency of RTTY and the carrier of PSK31, exact (30_encoding.md R102): `base + TX_OFFSET`. -/
def markHertz (c : Config) (base : Word32) : Int := base.toNat + c.txOffset

/-- The space frequency of RTTY, exact (30_encoding.md R102): `base - SHIFT + TX_OFFSET`. -/
def spaceHertz (c : Config) (base : Word32) : Int := base.toNat - c.shift + c.txOffset

/-- Whether a frequency lies in 0 to 2^FREQ_W - 1 (30_encoding.md R102). -/
def hertzFits (c : Config) (f : Int) : Bool := decide (0 ≤ f ∧ f < 2 ^ c.freqW)

/-- The effective length `n = min(len, MAXLEN)` (30_encoding.md R103). -/
def effectiveLength (c : Config) (len : BitVec 12) : Nat := min len.toNat c.maxLen

/-- The class of a character (30_encoding.md R104). -/
inductive CharClass where
  /-- ALPHA: 'A' to 'Z', 'a' to 'z' -/
  | alpha
  /-- SPACE: 0x20 -/
  | space
  /-- OTHER: every other byte -/
  | other
deriving DecidableEq, Repr

/-- The class of a character (30_encoding.md R104). -/
def classOf (ch : Byte) : CharClass :=
  let n := ch.toNat
  if (0x41 ≤ n ∧ n ≤ 0x5A) ∨ (0x61 ≤ n ∧ n ≤ 0x7A) then .alpha
  else if n = 0x20 then .space
  else .other

/-- Upper-casing (30_encoding.md R104): 0x61..0x7A lose 0x20, every other byte stays. -/
def upperCase (ch : Byte) : Byte :=
  if 0x61 ≤ ch.toNat ∧ ch.toNat ≤ 0x7A then ch - 0x20 else ch

end Sys2Proof.Machine
end

