-- ==== Sys2Proof/Machine/Check.lean ====
section
/-! DEFINITION. The constraints on a configuration: 00_scope.md R6, 40_quadrature.md R122 to R124, 43_baudot_rtty.md
R192, R193, 44_varicode_psk31.md R232, R233. A configuration that breaks one has no meaning (00_scope.md R7). -/

namespace Sys2Proof

open Sys2Proof.Machine (bitlen)

/-- No number of a list occurs twice in it or is in the set of numbers already seen, given by its characteristic bits
(a bit set, so that the kernel checks a table of 128 words fast). -/
def distinctFrom : Nat → List Nat → Bool
  | _, [] => true
  | seen, x :: xs => !seen.testBit x && distinctFrom (seen ||| 1 <<< x) xs

/-- No word occurs twice in a list. -/
def allDistinct {w : Nat} (l : List (BitVec w)) : Bool := distinctFrom 0 (l.map BitVec.toNat)

/-- A byte with this number stands in a table. -/
def holds (t : List Byte) (n : Nat) : Bool := t.any (fun e => Nat.beq e.toNat n)

/-- An entry of QTABLE (0 outside the table, which an admissible table never is). -/
def Config.qtAt (c : Config) (i : Nat) : Delta := c.qtable.getD i .zero

/-- The Baudot table of a selector (43_baudot_rtty.md R196). -/
def Config.baudot (c : Config) : Shift → List Byte
  | .letters => c.baudotLtrs
  | .figures => c.baudotFigs

/-- SPACE_CODE: the index of 0x20 in the Letters table (43_baudot_rtty.md R195). -/
def Config.spaceCode (c : Config) : BitVec 5 := BitVec.ofNat 5 (c.baudotLtrs.idxOf 0x20)

/-- Every one of these holds. -/
def allTrue : List Bool → Bool
  | [] => true
  | b :: bs => b && allTrue bs

/-- DBC_W, the smallest width that holds PBDEBOUNCE - 1, at least 1 (10_state.md R24). -/
def Config.dbcW (c : Config) : Nat := max 1 (bitlen (c.pbDebounce - 1))

/-- LPC_W, the smallest width that holds PUSH_BUTTON_RESET - 1, at least 1 (10_state.md R27). -/
def Config.lpcW (c : Config) : Nat := max 1 (bitlen (c.pushButtonReset - 1))

/-- RLX_W, the smallest width that holds PBRELAX (10_state.md R28). -/
def Config.rlxW (c : Config) : Nat := bitlen c.pbRelax

/-- The bounds of 00_scope.md R6 on the numeric parameters. -/
def Config.boundsOk (c : Config) : Bool :=
  allTrue
    [decide (1 ≤ c.nb), decide (c.nb ≤ 15), decide (1 ≤ c.pbDebounce), decide (1 ≤ c.pushButtonReset),
     decide (1 ≤ c.pbRelax), decide (1 ≤ c.maxLen), decide (c.maxLen ≤ 4095), decide (1 ≤ c.freqW),
     decide (c.tSwitch < c.tRbit), decide (3 * c.tRbit ≤ 2 * c.tRstop), decide (c.tPswitch < c.tPbit),
     decide (2 ≤ c.nGap)]

/-- Two samples that differ in exactly one bit (40_quadrature.md R123). -/
def oneStep (p q : Nat) : Bool := p ^^^ q == 1 || p ^^^ q == 2

/-- QTABLE is admissible (40_quadrature.md R122, R123, R124): 16 entries, two +1 and two -1, non-zero only where the
two samples differ in one bit, and antisymmetric. -/
def Config.qtableOk (c : Config) : Bool :=
  allTrue
    [c.qtable.length == 16, c.qtable.count .cw == 2, c.qtable.count .ccw == 2,
     (List.range 4).all (fun p => (List.range 4).all (fun q =>
       (c.qtAt (4 * p + q) == .zero || oneStep p q) && c.qtAt (4 * q + p) == (c.qtAt (4 * p + q)).neg))]

/-- One Baudot table meets 43_baudot_rtty.md R192: 33 bytes, the sentinel 0x00 at 0, FIGS_CODE, LTRS_CODE and 32, and
no non-zero byte twice. -/
def Config.baudotTableOk (c : Config) (t : List Byte) : Bool :=
  allTrue
    [t.length == 33, t.getD 0 1 == 0, t.getD c.figsCode.toNat 1 == 0, t.getD c.ltrsCode.toNat 1 == 0,
     t.getD 32 1 == 0, allDistinct (t.filter (· != 0))]

/-- The Baudot tables and shift codes are admissible (00_scope.md R6, 43_baudot_rtty.md R192, R193): every upper-case
letter in Letters, 'E' in Letters only, every digit in Figures only (log entry 22), the space at one non-zero index of
both, no lower-case letter in either. -/
def Config.baudotOk (c : Config) : Bool :=
  allTrue
    [c.ltrsCode != 0, c.figsCode != 0, c.ltrsCode != c.figsCode,
     c.baudotTableOk c.baudotLtrs, c.baudotTableOk c.baudotFigs,
     (List.range 26).all (fun k => holds c.baudotLtrs (0x41 + k)),
     !holds c.baudotFigs 0x45,
     (List.range 10).all (fun k => holds c.baudotFigs (0x30 + k) &&
       !holds c.baudotLtrs (0x30 + k)),
     holds c.baudotLtrs 0x20, holds c.baudotFigs 0x20,
     c.baudotLtrs.idxOf 0x20 == c.baudotFigs.idxOf 0x20, c.baudotLtrs.idxOf 0x20 != 0,
     (List.range 26).all (fun k => !holds c.baudotLtrs (0x61 + k) &&
       !holds c.baudotFigs (0x61 + k))]

/-- A Varicode word is admissible (44_varicode_psk31.md R232 (b) to (d)): non-zero, at most 10 bits long, its first bit
1, and no two adjacent zeros: of every two neighbours below the natural length one is 1. -/
def varicodeWordOk (w : VWord) : Bool :=
  let n := w.toNat
  let pairs := 2 ^ (bitlen n - 1) - 1
  allTrue [!Nat.beq n 0, decide (bitlen n ≤ 10), n.testBit 0, Nat.beq ((n ||| n >>> 1) &&& pairs) pairs]

/-- VARICODE is admissible (44_varicode_psk31.md R232, R233). -/
def Config.varicodeOk (c : Config) : Bool :=
  allTrue
    [c.varicode.length == 128, c.varicode.all varicodeWordOk, allDistinct c.varicode,
     c.varicode.getD 0x65 0 == 0x0003]

/-- The configuration meets every constraint of 00_scope.md R6 (R7, 93_implementation_defined.md U5). -/
def Config.valid (c : Config) : Bool := allTrue [c.boundsOk, c.qtableOk, c.baudotOk, c.varicodeOk]

end Sys2Proof
end

