-- ==== Sys2Proof/Machine/Ops.lean ====
section
/-! DEFINITION. The named operations over TEXT, the tables, the trace and the ports. There is no operation that takes
an exception or returns from one: the block has neither (60_exceptions.md R290, R298, R299). -/

namespace Sys2Proof.Machine

/-- What an unlisted address of TEXT holds as data: no byte the machine has written (20_memory.md R61). -/
def Memory.unlisted : Option Byte := none

/-- The byte written at an address, if any. -/
def Memory.lookup : Memory → Nat → Option Byte
  | [], _ => Memory.unlisted
  | (a, v) :: m, addr => if addr = a then some v else Memory.lookup m addr

/-- Write one byte, keeping the addresses strictly rising. A written byte is never what an unlisted address holds, so
no write removes an entry (log entry 3). -/
def Memory.write : Memory → Nat → Byte → Memory
  | [], addr, v => [(addr, v)]
  | (a, w) :: m, addr, v =>
    if addr < a then (addr, v) :: (a, w) :: m
    else if addr = a then (a, v) :: m
    else (a, w) :: Memory.write m addr v

/-- The canonical form: addresses strictly rising. -/
def Memory.wf : Memory → Bool
  | [] => true
  | [_] => true
  | x :: y :: m => decide (x.1 < y.1) && Memory.wf (y :: m)

/-- The byte TEXT holds at an address: the one last written, else the arbitrary byte of power-on
(20_memory.md R61, 93_implementation_defined.md U9). -/
def State.textAt (s : State) (addr : Nat) : Byte :=
  (Memory.lookup s.text addr).getD (Config.powerOnText s.powerUps addr)

/-- `MemRead(TEXT, addr, 1)` (20_memory.md R63): defined inside the space only. -/
def readText (s : State) (addr : Nat) : Except Fault Byte :=
  if addr < s.cfg.maxLen then .ok (s.textAt addr) else .error (.noSuchAddress addr)

/-- `if addr < MAXLEN: MemWrite(TEXT, addr, 1, v)` (46_host_port.md R281, 20_memory.md R63, R69). -/
def writeText (s : State) (addr : Nat) (v : Byte) : State :=
  if addr < s.cfg.maxLen then { s with text := Memory.write s.text addr v } else s

/-- `MemRead(QT, hix, 1)` (20_memory.md R63). -/
def readQt (c : Config) (hix : BitVec 4) : Delta := c.qtAt hix.toNat

/-- `MemRead(VARI, ch, ..)` (20_memory.md R63). -/
def readVari (c : Config) (ch : Nat) : VWord := c.varicode.getD ch 0

/-- `MemRead(LTRS or FIGS, code, 1)` (20_memory.md R63). -/
def readBaudot (c : Config) (sel : Shift) (code : Nat) : Byte := (c.baudot sel).getD code 0

/-- `emit E`: append an event to TRACE (45_synth_port.md R260). -/
def emit (s : State) (e : Event) : State := { s with trace := s.trace ++ [e] }

/-- A host operation has a step only while MODE is IDLE; otherwise the port accepts nothing and nothing happens
(46_host_port.md R283, log entry 5). -/
def whenIdle (s : State) (k : Host.Outcome State Fault Refusal) : Host.Outcome State Fault Refusal :=
  if s.mode = .idle then k else .next s

/-- A host operation ends with this RES, or with none (30_encoding.md R97). -/
def finish (s : State) (r : Option Word32) : Host.Outcome State Fault Refusal := .next { s with res := r }

/-- Change the record BTN[b] of an existing button; a button index at or above NB changes nothing
(30_encoding.md R108). -/
def onButton (s : State) (b : Nat) (f : Button → Button) : State :=
  if b < s.cfg.nb then { s with btn := s.btn.modify b f } else s

end Sys2Proof.Machine
end

