-- ==== Sys2Proof/Machine/Baudot.lean ====
section
/-! DEFINITION. The Baudot tables and the RTTY code sequence: BLKUP (43_baudot_rtty.md R196), BREV (R197), FRAME (R209),
CHARSTEP (R211). -/

namespace Sys2Proof.Machine

/-- `blookup(sel, ch)` (43_baudot_rtty.md R196): the first index that holds ch, ascending, as a code; a match at index
32 and no match give 0. -/
def blookup (c : Config) (sel : Shift) (ch : Byte) : BitVec 5 :=
  match (c.baudot sel).findIdx? (fun e => e == ch) with
  | some i => if i ≤ 31 then BitVec.ofNat 5 i else 0
  | none => 0

/-- BLKUP (43_baudot_rtty.md R196): the forward lookup. -/
def execBlkup (sel : Shift) (ch : Byte) (s : State) : Host.Outcome State Fault Refusal :=
  whenIdle s (finish s (some ((blookup s.cfg sel ch).setWidth 32)))

/-- BREV (43_baudot_rtty.md R197): the entry at a code. -/
def execBrev (sel : Shift) (code : BitVec 5) (s : State) : Host.Outcome State Fault Refusal :=
  whenIdle s (finish s (some ((readBaudot s.cfg sel code.toNat).setWidth 32)))

/-- The shift code that selects a table (43_baudot_rtty.md R211). -/
def shiftCode (c : Config) : Shift → BitVec 5
  | .letters => c.ltrsCode
  | .figures => c.figsCode

/-- FRAME(code) (43_baudot_rtty.md R209): start element space, five data elements least significant bit first, stop
element mark. -/
def frame (c : Config) (code : BitVec 5) : List Task :=
  .act (.elem false c.tRbit) ::
    ((List.range 5).map (fun k => Task.act (.elem (code.getLsbD k) c.tRbit)) ++ [.act (.elem true c.tRstop)])

/-- The table a character is looked up in and its code there, 0 for the space and for an unmapped character
(43_baudot_rtty.md R211). -/
def lookupChar (c : Config) (ch : Byte) : Shift × BitVec 5 :=
  match classOf ch with
  | .alpha => (.letters, blookup c .letters (upperCase ch))
  | .other => (.figures, blookup c .figures ch)
  | .space => (.letters, 0)

/-- CHARSTEP(c) in a given shift state (43_baudot_rtty.md R211, R212). -/
def charStep (c : Config) (sh : Shift) (ch : Byte) : List Task :=
  let r := lookupChar c ch
  if r.2 ≠ 0 then
    (if sh ≠ r.1 then frame c (shiftCode c r.1) ++ [.setShift r.1] else []) ++ frame c r.2
  else
    frame c c.spaceCode ++ frame c c.ltrsCode ++ [.setShift .letters]

end Sys2Proof.Machine
end

