-- ==== Sys2Proof/Machine/Varicode.lean ====
section
/-! DEFINITION. The Varicode table and the PSK31 slots: VLKUP (44_varicode_psk31.md R236), VREV (R237), CHAR (R247). -/

namespace Sys2Proof.Machine

/-- The forward lookup (44_varicode_psk31.md R236): the stored word, 0 for a character at or above 0x80. -/
def vlookup (c : Config) (ch : Byte) : VWord :=
  if 0x80 ≤ ch.toNat then 0 else readVari c ch.toNat

/-- The reverse lookup (44_varicode_psk31.md R237): the first character 0 .. 127 with this word, else 0xFF. -/
def vreverse (c : Config) (word : VWord) : Byte :=
  match (c.varicode.take 128).findIdx? (fun w => w == word) with
  | some ch => BitVec.ofNat 8 ch
  | none => 0xFF

/-- VLKUP (44_varicode_psk31.md R236). -/
def execVlkup (ch : Byte) (s : State) : Host.Outcome State Fault Refusal :=
  whenIdle s (finish s (some ((vlookup s.cfg ch).setWidth 32)))

/-- VREV (44_varicode_psk31.md R237). -/
def execVrev (word : VWord) (s : State) : Host.Outcome State Fault Refusal :=
  whenIdle s (finish s (some ((vreverse s.cfg word).setWidth 32)))

/-- The pattern bits of a word, least significant first, for its natural length (30_encoding.md R105). -/
def patternBits (w : VWord) : List Bool := (List.range (bitlen w.toNat)).map w.getLsbD

/-- The bits CHAR(c) sends (44_varicode_psk31.md R247): the pattern and the gap. -/
def charBits (c : Config) (ch : Nat) : List Bool :=
  patternBits (readVari c ch) ++ List.replicate c.nGap false

/-- The slots that send these bits (44_varicode_psk31.md R246). -/
def slots (bits : List Bool) : List Task := bits.map (fun b => Task.act (.slot b))

end Sys2Proof.Machine
end

