-- ==== Sys2Proof/Machine/Encoder.lean ====
section
/-! DEFINITION. The encoder agent: the issue of SENDR (43_baudot_rtty.md R205) and SENDP (44_varicode_psk31.md R243), and
the one event, with its register writes, of the agent's next atomic step (43_baudot_rtty.md R215, 44_varicode_psk31.md
R249). -/

namespace Sys2Proof.Machine

/-- The SETF record of the block: channel, PLL and drive of the configuration (45_synth_port.md R261). -/
def carrierRecord (c : Config) (f : Nat) : Instr := .setf c.txCh c.txPll f c.txDrive

/-- Steps 2 and 3 of SENDR (43_baudot_rtty.md R205, R207, R208): the idle preamble, N_SYNC Letters-shift frames,
`SHIFTST <- 0`. -/
def rttyPreamble (c : Config) : List Task :=
  [.act .rttyCarrier, .act (.hold c.tRsettle)] ++
    (List.replicate Config.nSync (frame c c.ltrsCode)).flatten ++ [.setShift .letters]

/-- Steps 2a to 2c of SENDP (44_varicode_psk31.md R243, R248): carrier on, N_PREAMBLE reversals, N_NUL NUL symbols. -/
def pskPreamble (c : Config) : List Task :=
  [.act .pskCarrier] ++ slots (List.replicate c.nPreamble false) ++
    (List.replicate Config.nNul (slots (charBits c 0))).flatten

/-- SENDR, the host agent's step (43_baudot_rtty.md R205): both frequencies must fit FREQ_W, else it is refused with no
state change (30_encoding.md R102); then the session registers are written and the encoder agent takes over. -/
def execSendr (len : BitVec 12) (base : Word32) (s : State) : Host.Outcome State Fault Refusal :=
  let mark := markHertz s.cfg base
  let space := spaceHertz s.cfg base
  whenIdle s
    (if !hertzFits s.cfg mark then .refused (.freqOutOfRange mark)
     else if !hertzFits s.cfg space then .refused (.freqOutOfRange space)
     else finish { s with nlen := effectiveLength s.cfg len, fmark := mark.toNat, fspace := space.toNat, idx := 0,
                          mode := .rtty, todo := rttyPreamble s.cfg } none)

/-- SENDP, the host agent's step (44_varicode_psk31.md R243); FSPACE is not written. -/
def execSendp (len : BitVec 12) (base : Word32) (s : State) : Host.Outcome State Fault Refusal :=
  let car := markHertz s.cfg base
  whenIdle s
    (if !hertzFits s.cfg car then .refused (.freqOutOfRange car)
     else finish { s with nlen := effectiveLength s.cfg len, fmark := car.toNat, idx := 0,
                          mode := .psk, todo := pskPreamble s.cfg } none)

/-- What the loop body of the running procedure does with a character before `IDX <- IDX + 1`: CHARSTEP in RTTY
(43_baudot_rtty.md R211), CHAR or nothing in PSK31 (44_varicode_psk31.md R245). -/
def charTasks (s : State) (ch : Byte) : List Task :=
  match s.mode with
  | .idle => []
  | .rtty => charStep s.cfg s.shiftst ch
  | .psk => if ch.toNat < 128 then slots (charBits s.cfg ch.toNat) else []

/-- Do the register writes at the head of a task list; the act that follows them, if any, is taken off, and the rest of
the list becomes the position. -/
def runWrites : List Task → State → State × Option Act
  | [], s => ({ s with todo := [] }, none)
  | .setShift v :: ts, s => runWrites ts { s with shiftst := v }
  | .nextChar :: ts, s => runWrites ts { s with idx := s.idx + 1 }
  | .act a :: ts, s => ({ s with todo := ts }, some a)

/-- The loop `while IDX < NLEN` up to its next act (43_baudot_rtty.md R205, 44_varicode_psk31.md R243), of which `n`
characters are left: a character that sends nothing is passed over. -/
def runLoop : Nat → State → Except Fault (State × Option Act)
  | 0, s => .ok (s, none)
  | n + 1, s =>
    match readText s s.idx with
    | .error e => .error e
    | .ok ch =>
      match runWrites (charTasks s ch ++ [.nextChar]) s with
      | (s', some a) => .ok (s', some a)
      | (s', none) => runLoop n s'

/-- The record an act emits and the state with the register writes of its atomic step (43_baudot_rtty.md R205, R210,
44_varicode_psk31.md R243, R246). -/
def fire (a : Act) (s : State) : Instr × State :=
  match a with
  | .rttyCarrier => (carrierRecord s.cfg s.fmark, { s with tone := true })
  | .pskCarrier => (carrierRecord s.cfg s.fmark, { s with phase := false })
  | .hold d => (.wait d, s)
  | .elem tone t =>
    if tone ≠ s.tone then
      (carrierRecord s.cfg (if tone then s.fmark else s.fspace),
        { s with tone := tone, todo := .act (.hold (t - s.cfg.tSwitch)) :: s.todo })
    else (.wait t, s)
  | .slot bit =>
    if bit then (.wait s.cfg.tPbit, s)
    else
      (.invp s.cfg.txCh (!s.phase),
        { s with phase := !s.phase, todo := .act (.hold (s.cfg.tPbit - s.cfg.tPswitch)) :: s.todo })

/-- The encoder agent's next atomic step: the record it emits and the state with the register writes that go with it,
or nothing while MODE is IDLE. After the last character it is DISO with `MODE <- IDLE` (43_baudot_rtty.md R213,
44_varicode_psk31.md R250). -/
def encoderNext (s : State) : Except Fault (Option (Instr × State)) :=
  if s.mode = .idle then .ok none
  else
    match runWrites s.todo s with
    | (s1, some a) => .ok (some (fire a s1))
    | (s1, none) =>
      match runLoop (s1.nlen - s1.idx) s1 with
      | .error e => .error e
      | .ok (s2, some a) => .ok (some (fire a s2))
      | .ok (s2, none) => .ok (some (.diso, { s2 with mode := .idle }))

end Sys2Proof.Machine
end

