-- ==== Sys2Proof/Machine/Flags.lean ====
section
/-! DEFINITION. The bits of EVFLAGS (10_state.md R29): every flag computation of the spec. -/

namespace Sys2Proof.Machine

/-- `ROT_CW`, bit 0 (10_state.md R29). -/
def rotCwBit : Nat := 0

/-- `ROT_CCW`, bit 1 (10_state.md R29). -/
def rotCcwBit : Nat := 1

/-- `PUSHED_EV[b]`, bit 2 + 2b (10_state.md R29). -/
def pushedBit (b : Nat) : Nat := 2 + 2 * b

/-- `LPR_EV[b]`, bit 3 + 2b (10_state.md R29). -/
def lprBit (b : Nat) : Nat := 3 + 2 * b

/-- The flag word with one bit set. -/
def flagBit (n : Nat) : Word32 := BitVec.twoPow 32 n

/-- The bits of the register, 1 + 2 x NB down to 0 (10_state.md R29). -/
def flagMask (nb : Nat) : Word32 := BitVec.ofNat 32 (2 ^ (2 + 2 * nb) - 1)

/-- The rotation flag TICK sets from the decoder's delta (40_quadrature.md R130, 42_event_flags.md R172). -/
def rotationFlags : Delta → Word32
  | .cw => flagBit rotCwBit
  | .ccw => flagBit rotCcwBit
  | .zero => 0

/-- The flags TICK sets from button b's result (40_quadrature.md R130, 42_event_flags.md R172). -/
def pressFlags (b : Nat) (p : Press) : Word32 :=
  (if p.pressed then flagBit (pushedBit b) else 0) ||| (if p.lpr then flagBit (lprBit b) else 0)

/-- What FRD and FXCHG return: `zext_32(EVFLAGS)`, bits at and above 2 + 2 x NB reading 0 (30_encoding.md R98,
42_event_flags.md R174). -/
def readFlags (nb : Nat) (ev : Word32) : Word32 := ev &&& flagMask nb

/-- What FCLR and FXCHG leave: `EVFLAGS & ~mask[1 + 2*NB : 0]`, mask bits above the register ignored
(42_event_flags.md R175, R176). -/
def clearFlags (nb : Nat) (ev mask : Word32) : Word32 := ev &&& ~~~(mask &&& flagMask nb)

end Sys2Proof.Machine
end

