-- ==== Sys2Proof/Machine/EventFlags.lean ====
section
/-! DEFINITION. The Input Event Aggregator: FRD (42_event_flags.md R174), FCLR (R175), FXCHG (R176). -/

namespace Sys2Proof.Machine

/-- FRD (42_event_flags.md R174): return the event flags, change nothing. -/
def execFrd (s : State) : Host.Outcome State Fault Refusal :=
  whenIdle s (finish s (some (readFlags s.cfg.nb s.evflags)))

/-- FCLR (42_event_flags.md R175): clear the flags whose mask bit is 1. -/
def execFclr (mask : Word32) (s : State) : Host.Outcome State Fault Refusal :=
  whenIdle s (finish { s with evflags := clearFlags s.cfg.nb s.evflags mask } none)

/-- FXCHG (42_event_flags.md R176): return all flags as they were and clear the masked ones, in one step. -/
def execFxchg (mask : Word32) (s : State) : Host.Outcome State Fault Refusal :=
  whenIdle s (finish { s with evflags := clearFlags s.cfg.nb s.evflags mask } (some (readFlags s.cfg.nb s.evflags)))

end Sys2Proof.Machine
end

