-- ==== Sys2Proof/Machine/HostPort.lean ====
section
/-! DEFINITION. The rest of the host command port: TXWR (46_host_port.md R281), INIT (R282). -/

namespace Sys2Proof.Machine

/-- TXWR (46_host_port.md R281): write one byte of TEXT, or nothing at or above MAXLEN. -/
def execTxwr (addr : BitVec 12) (byte : Byte) (s : State) : Host.Outcome State Fault Refusal :=
  whenIdle s (finish (writeText s addr.toNat byte) none)

/-- INIT (46_host_port.md R282): every register to its reset value, TRACE empty, TEXT kept. -/
def execInit (s : State) : Host.Outcome State Fault Refusal :=
  whenIdle s
    (finish
      { s with
        hist := s.cfg.histReset
        btn := (List.range s.cfg.nb).map (fun b =>
          { lvl := !s.cfg.heldLevel.getLsbD b, dbc := 0, pushed := false, en := true, lpc := 0, rlx := 0 })
        evflags := 0
        mode := .idle
        idx := 0
        nlen := 0
        fmark := 0
        fspace := 0
        shiftst := .letters
        tone := true
        phase := false
        trace := []
        todo := []
        sub := none } none)

/-- A hardware reset (70_reset_and_hazards.md R320): the state after reset; what has yet to arrive still arrives. TEXT
is unspecified anew (log entry 13). While a message is sent it is refused (R323, 93_implementation_defined.md U4). -/
def hardReset (s : State) : Host.Outcome State Fault Refusal :=
  if s.mode = .idle then .next { State.afterReset s.cfg (s.powerUps + 1) with inputs := s.inputs }
  else .refused .resetWhileSending

end Sys2Proof.Machine
end

