-- ==== Sys2Proof/Machine/Quadrature.lean ====
section
/-! DEFINITION. The Quadrature Decoder: QPOLL (40_quadrature.md R126). -/

namespace Sys2Proof.Machine

/-- QPOLL (40_quadrature.md R126): the new HIST and the delta. -/
def qpoll (c : Config) (hist : BitVec 4) (s : BitVec 2) : BitVec 4 × Delta :=
  let hix := historyIndex hist s
  (hix, readQt c hix)

/-- QPOLL as an operation of its own (40_quadrature.md R126): writes HIST, returns the delta, sets no flag. -/
def execQpoll (ab : BitVec 2) (s : State) : Host.Outcome State Fault Refusal :=
  let r := qpoll s.cfg s.hist ab
  .next { s with hist := r.1, sub := some (.delta r.2) }

end Sys2Proof.Machine
end

