-- ==== Sys2Proof/Machine/Tracker.lean ====
section
/-! DEFINITION. The Debounced Button Tracker: BPOLL (41_button.md R146), BEN (R152), BDIS (R153). -/

namespace Sys2Proof.Machine

/-- The tracker's step for button b on its raw level (41_button.md R146; the arms are R147 to R150). -/
def bpoll (c : Config) (b : Nat) (raw : Bool) (B : Button) : Button × Press :=
  if raw = c.heldLevel.getLsbD b then
    let lpr := decide (c.pushButtonReset ≤ B.lpc + 1)
    let lpc := if lpr then 0 else B.lpc + 1
    if B.pushed then
      ({ B with lvl := raw, lpc := lpc, rlx := c.pbRelax, dbc := 0 }, ⟨false, lpr⟩)
    else if B.en then
      if c.pbDebounce ≤ B.dbc + 1 then
        ({ lvl := raw, dbc := 0, pushed := true, en := false, lpc := lpc, rlx := c.pbRelax }, ⟨true, lpr⟩)
      else
        ({ B with lvl := raw, lpc := lpc, dbc := B.dbc + 1 }, ⟨false, lpr⟩)
    else
      ({ B with lvl := raw, lpc := lpc, dbc := 0 }, ⟨false, lpr⟩)
  else if B.pushed then
    if B.rlx ≤ 1 then
      ({ B with lvl := raw, lpc := 0, dbc := 0, pushed := false, rlx := 0 }, ⟨false, false⟩)
    else
      ({ B with lvl := raw, lpc := 0, dbc := 0, rlx := B.rlx - 1 }, ⟨false, false⟩)
  else
    ({ B with lvl := raw, lpc := 0, dbc := 0 }, ⟨false, false⟩)

/-- BPOLL as an operation of its own (41_button.md R146): writes the record of button b, returns `(pressed, lpr)`, sets
no flag. A b at or above NB names no button: nothing changes and nothing fires (log entry 11). -/
def execBpoll (b : BitVec 4) (raw : Bool) (s : State) : Host.Outcome State Fault Refusal :=
  match if b.toNat < s.cfg.nb then s.btn[b.toNat]? else none with
  | some B =>
    let r := bpoll s.cfg b.toNat raw B
    .next { s with btn := s.btn.set b.toNat r.1, sub := some (.press r.2) }
  | none => .next { s with sub := some (.press ⟨false, false⟩) }

/-- BEN (41_button.md R152): `if b < NB: BTN[b].EN <- 1`. -/
def execBen (b : BitVec 4) (s : State) : Host.Outcome State Fault Refusal :=
  whenIdle s (finish (onButton s b.toNat (fun B => { B with en := true })) none)

/-- BDIS (41_button.md R153): `if b < NB: BTN[b].EN <- 0`. -/
def execBdis (b : BitVec 4) (s : State) : Host.Outcome State Fault Refusal :=
  whenIdle s (finish (onButton s b.toNat (fun B => { B with en := false })) none)

end Sys2Proof.Machine
end

