-- ==== Sys2Proof/Machine/PollTick.lean ====
section
/-! DEFINITION. The poll tick: TICK (40_quadrature.md R130). -/

namespace Sys2Proof.Machine

/-- The loop `for b in 0 .. NB-1` of TICK (40_quadrature.md R130) over the trackers from button b on, of which `n`
remain: their records after the tick and the flags their results set. -/
def pollButtons (c : Config) (p : Pin) : Nat → Nat → List Button → List Button × Word32
  | 0, _, bs => (bs, 0)
  | _ + 1, _, [] => ([], 0)
  | n + 1, b, B :: bs =>
    let r := bpoll c b (p.btn.getLsbD b) B
    let rest := pollButtons c p n (b + 1) bs
    (r.1 :: rest.1, pressFlags b r.2 ||| rest.2)

/-- TICK (40_quadrature.md R130): QPOLL, every BPOLL, and the flags they set; one atomic step, the same in every MODE. -/
def execTick (pin : Pin) (s : State) : Host.Outcome State Fault Refusal :=
  let q := qpoll s.cfg s.hist (sampleOf pin)
  let bs := pollButtons s.cfg pin s.cfg.nb 0 s.btn
  .next { s with hist := q.1, btn := bs.1, evflags := s.evflags ||| rotationFlags q.2 ||| bs.2 }

end Sys2Proof.Machine
end

