-- ==== Sys2Proof/Machine/Synth.lean ====
section
/-! DEFINITION. The output records on the synthesizer port: SETF (45_synth_port.md R261), INVP (R262), DISO (R263), WAIT
(R264). Each appends its event to TRACE; the registers that change in the same step are written by the encoder agent,
the only one that emits them (log entry 23). -/

namespace Sys2Proof.Machine

/-- SETF (45_synth_port.md R261). -/
def execSetf (ch : BitVec 4) (pll : BitVec 2) (f : Nat) (drv : BitVec 6) (s : State) : Host.Outcome State Fault Refusal :=
  .next (emit s (.setf ch pll f drv))

/-- INVP (45_synth_port.md R262). -/
def execInvp (ch : BitVec 4) (inv : Bool) (s : State) : Host.Outcome State Fault Refusal :=
  .next (emit s (.invp ch inv))

/-- DISO (45_synth_port.md R263). -/
def execDiso (s : State) : Host.Outcome State Fault Refusal := .next (emit s .diso)

/-- WAIT (45_synth_port.md R264). -/
def execWait (d : Nat) (s : State) : Host.Outcome State Fault Refusal := .next (emit s (.wait d))

end Sys2Proof.Machine
end

