-- ==== Sys2Proof/Machine/Dispatch.lean ====
section
/-! DEFINITION. One arm per instruction. -/

namespace Sys2Proof.Machine

def exec (i : Instr) (s : State) : Host.Outcome State Fault Refusal :=
  match i with
  | .tick pin => Sys2Proof.Machine.execTick pin s
  | .qpoll ab => Sys2Proof.Machine.execQpoll ab s
  | .bpoll b raw => Sys2Proof.Machine.execBpoll b raw s
  | .ben b => Sys2Proof.Machine.execBen b s
  | .bdis b => Sys2Proof.Machine.execBdis b s
  | .frd => Sys2Proof.Machine.execFrd s
  | .fclr mask => Sys2Proof.Machine.execFclr mask s
  | .fxchg mask => Sys2Proof.Machine.execFxchg mask s
  | .blkup sel ch => Sys2Proof.Machine.execBlkup sel ch s
  | .brev sel code => Sys2Proof.Machine.execBrev sel code s
  | .sendr len base => Sys2Proof.Machine.execSendr len base s
  | .vlkup ch => Sys2Proof.Machine.execVlkup ch s
  | .vrev word => Sys2Proof.Machine.execVrev word s
  | .sendp len base => Sys2Proof.Machine.execSendp len base s
  | .txwr addr byte => Sys2Proof.Machine.execTxwr addr byte s
  | .init => Sys2Proof.Machine.execInit s
  | .setf ch pll f drv => Sys2Proof.Machine.execSetf ch pll f drv s
  | .invp ch inv => Sys2Proof.Machine.execInvp ch inv s
  | .diso => Sys2Proof.Machine.execDiso s
  | .wait d => Sys2Proof.Machine.execWait d s

end Sys2Proof.Machine
end

