-- ==== Sys2Proof/WellFormed.lean ====
section
/-! DEFINITION. Which instructions are well formed on a block with NB buttons: the operands fit their formats. -/

namespace Sys2Proof

/-- The operands fit their formats on a block with `nb` buttons: the PIN record of TICK has no bit at or above 2 + NB
(30_encoding.md R91), BPOLL names one of the NB buttons (41_button.md R146), and the frequency of a SETF record and the
duration of a WAIT record fit their 32-bit fields (30_encoding.md R100). Every other operand fits by its type; a
button index at or above NB in BEN or BDIS is defined (30_encoding.md R108) and so well formed. -/
def Instr.wellFormed (nb : Nat) : Instr → Bool
  | .tick pin => pin.btn >>> nb == 0
  | .qpoll _ => true
  | .bpoll b _ => decide (b.toNat < nb)
  | .ben _ => true
  | .bdis _ => true
  | .frd => true
  | .fclr _ => true
  | .fxchg _ => true
  | .blkup _ _ => true
  | .brev _ _ => true
  | .sendr _ _ => true
  | .vlkup _ => true
  | .vrev _ => true
  | .sendp _ _ => true
  | .txwr _ _ => true
  | .init => true
  | .setf _ _ f _ => decide (f < 2 ^ 32)
  | .invp _ _ => true
  | .diso => true
  | .wait d => decide (d < 2 ^ 32)

end Sys2Proof
end

