-- ==== Sys2Proof/Decode.lean ====
section
/-! DEFINITION. The decoder and the encoder of the three ports' formats: PIN (30_encoding.md R91), CMD (R95, R96) and
OUT (R100). QPOLL and BPOLL have no encoding of their own (R96): they happen inside TICK. -/

namespace Sys2Proof

/-- The port a word passes, which says in which format it is read (30_encoding.md R90, R106). -/
inductive Port where
  /-- the pins: a PIN record, in bits 16:0 -/
  | pins
  /-- the host command port: a CMD word -/
  | host
  /-- the synthesizer port: an OUT record -/
  | synth
deriving DecidableEq, Repr

/-- Why a word is no instruction. -/
inductive DecodeError where
  /-- a reserved host command code, 0x0, 0xE or 0xF (30_encoding.md R107) -/
  | reservedOp (op : BitVec 4)
  /-- an output record kind that is never emitted, 0x0 or 0x5 to 0xF (30_encoding.md R100) -/
  | reservedKind (kind : BitVec 4)
deriving DecidableEq, Repr

/-- Bits 47:44: `op` of a CMD word, `kind` of an OUT record (30_encoding.md R95, R100). -/
def codeField (w : Word48) : BitVec 4 := w.extractLsb' 44 4

/-- `a`, bits 43:32 of a CMD word (30_encoding.md R95). -/
def aField (w : Word48) : BitVec 12 := w.extractLsb' 32 12

/-- `d`, bits 31:0 of a CMD word (30_encoding.md R95). -/
def dField (w : Word48) : Word32 := w.extractLsb' 0 32

/-- A PIN record (30_encoding.md R91): bit 1 is ENC_A, bit 0 is ENC_B, bit 2 + b is BTN_RAW[b]. -/
def decodePin (w : BitVec 17) : Pin :=
  { encA := w.getLsbD 1, encB := w.getLsbD 0, btn := w.extractLsb' 2 15 }

/-- The PIN record with these levels (30_encoding.md R91). -/
def encodePin (p : Pin) : BitVec 17 :=
  p.btn ++ BitVec.ofBool p.encA ++ BitVec.ofBool p.encB

/-- A host command (30_encoding.md R96): `op` alone selects the row, operand bits a row does not use are ignored
(R95, R106), and the codes 0x0, 0xE, 0xF are reserved (R107). -/
def decodeCmd (w : Word48) : Except DecodeError Instr :=
  let a := aField w
  let d := dField w
  match (codeField w).toNat with
  | 0x1 => .ok (.ben (a.extractLsb' 0 4))
  | 0x2 => .ok (.bdis (a.extractLsb' 0 4))
  | 0x3 => .ok .frd
  | 0x4 => .ok (.fclr d)
  | 0x5 => .ok (.fxchg d)
  | 0x6 => .ok (.blkup (Shift.ofBit (a.getLsbD 8)) (a.extractLsb' 0 8))
  | 0x7 => .ok (.brev (Shift.ofBit (a.getLsbD 8)) (a.extractLsb' 0 5))
  | 0x8 => .ok (.sendr a d)
  | 0x9 => .ok (.vlkup (a.extractLsb' 0 8))
  | 0xA => .ok (.vrev (d.extractLsb' 0 16))
  | 0xB => .ok (.sendp a d)
  | 0xC => .ok (.txwr a (d.extractLsb' 0 8))
  | 0xD => .ok .init
  | _ => .error (.reservedOp (codeField w))

/-- An output record (30_encoding.md R100): `kind` alone selects the row (R106). -/
def decodeOut (w : Word48) : Except DecodeError Instr :=
  match (codeField w).toNat with
  | 0x1 => .ok (.setf (w.extractLsb' 40 4) (w.extractLsb' 38 2) (w.extractLsb' 0 32).toNat (w.extractLsb' 32 6))
  | 0x2 => .ok (.invp (w.extractLsb' 40 4) (w.getLsbD 0))
  | 0x3 => .ok .diso
  | 0x4 => .ok (.wait (w.extractLsb' 0 32).toNat)
  | _ => .error (.reservedKind (codeField w))

/-- The decoder of the block: the instruction a word means on a port. It is total and rejects by name. -/
def decode (p : Port) (w : Word48) : Except DecodeError Instr :=
  match p with
  | .pins => .ok (.tick (decodePin (w.setWidth 17)))
  | .host => decodeCmd w
  | .synth => decodeOut w

/-- The CMD word with this code and these operands (30_encoding.md R95). -/
def cmdWord (op : BitVec 4) (a : BitVec 12) (d : Word32) : Word48 := op ++ a ++ d

/-- The OUT record with this kind, bits 43:32 and bits 31:0 (30_encoding.md R100). -/
def outWord (kind : BitVec 4) (hi : BitVec 12) (lo : Word32) : Word48 := kind ++ hi ++ lo

/-- The `a` operand of a Baudot lookup: `sel` is bit 8, the low bits hold the character or the code
(30_encoding.md R96). -/
def selOperand (sel : Shift) (low : Byte) : BitVec 12 :=
  (0 : BitVec 3) ++ BitVec.ofBool sel.bit ++ low

/-- The port and the word of an instruction, unused operand bits 0; none for QPOLL and BPOLL, which have no encoding
(30_encoding.md R91, R96, R100). A frequency or duration of a record that does not fit 32 bits is ill formed
(Instr.wellFormed). -/
def encode : Instr → Option (Port × Word48)
  | .tick p => some (.pins, (encodePin p).setWidth 48)
  | .qpoll _ => none
  | .bpoll _ _ => none
  | .ben b => some (.host, cmdWord 0x1 (b.setWidth 12) 0)
  | .bdis b => some (.host, cmdWord 0x2 (b.setWidth 12) 0)
  | .frd => some (.host, cmdWord 0x3 0 0)
  | .fclr mask => some (.host, cmdWord 0x4 0 mask)
  | .fxchg mask => some (.host, cmdWord 0x5 0 mask)
  | .blkup sel ch => some (.host, cmdWord 0x6 (selOperand sel ch) 0)
  | .brev sel code => some (.host, cmdWord 0x7 (selOperand sel (code.setWidth 8)) 0)
  | .sendr len base => some (.host, cmdWord 0x8 len base)
  | .vlkup ch => some (.host, cmdWord 0x9 (ch.setWidth 12) 0)
  | .vrev word => some (.host, cmdWord 0xA 0 (word.setWidth 32))
  | .sendp len base => some (.host, cmdWord 0xB len base)
  | .txwr addr byte => some (.host, cmdWord 0xC addr (byte.setWidth 32))
  | .init => some (.host, cmdWord 0xD 0 0)
  | .setf ch pll f drv => some (.synth, outWord 0x1 (ch ++ pll ++ drv) (BitVec.ofNat 32 f))
  | .invp ch inv => some (.synth, outWord 0x2 (ch.setWidth 12 <<< 8) ((BitVec.ofBool inv).setWidth 32))
  | .diso => some (.synth, outWord 0x3 0 0)
  | .wait d => some (.synth, outWord 0x4 0 (BitVec.ofNat 32 d))

/-- The instruction the decoder reads from a word of spec/opcode_table.json. 48 bits are a command on the host port: the
table gives the four OUT rows the same codes as the first four CMD rows, and a record of the synthesizer port is never
offered to the block (45_synth_port.md, file head). Shorter words (one to three bytes) are a PIN record, the only other
input of the block (log entry 12). -/
def decodeTableWord (nbits w : Nat) : Option Instr :=
  if nbits = 48 then
    match decode .host (BitVec.ofNat 48 w) with
    | .ok i => some i
    | .error _ => none
  else if nbits ≤ 24 then
    match decode .pins (BitVec.ofNat 48 w) with
    | .ok i => some i
    | .error _ => none
  else none

end Sys2Proof
end

