-- ==== Sys2Proof/Machine/Fetch.lean ====
section
/-! DEFINITION. Which operation a step runs: the turn of one of the agents (00_scope.md R12, 20_memory.md R70, R71). -/

namespace Sys2Proof.Machine

/-- What a step is to do. -/
inductive Turn where
  /-- run this instruction in this state -/
  | run (i : Instr) (s : State)
  /-- the step is this outcome -/
  | done (o : Host.Outcome State Fault Refusal)

/-- The encoder agent's turn: its next event, or nothing while MODE is IDLE. -/
def encoderTurn (s : State) : Turn :=
  match encoderNext s with
  | .ok (some (i, s')) => .run i s'
  | .ok none => .done (.next s)
  | .error f => .done (.fault f)

/-- The host agent's turn with an offered CMD word: the instruction it decodes to, or the refusal of a reserved code
(30_encoding.md R106, R107). -/
def hostTurn (w : Word48) (s : State) : Turn :=
  match decode .host w with
  | .ok i => .run i s
  | .error (.reservedOp op) => .done (.refused (.reservedOp op))
  | .error (.reservedKind k) => .done (.refused (.reservedOp k))

/-- The tick agent's turn with an arriving PIN record: a TICK (40_quadrature.md R130). -/
def tickTurn (pin : BitVec 17) (s : State) : Turn :=
  match decode .pins (pin.setWidth 48) with
  | .ok i => .run i s
  | .error _ => .done (.next s)

/-- An input is a command that the host offers. -/
def isHost : Input → Bool
  | .host _ => true
  | _ => false

/-- The first input of a list that is no offered command, and the list without it: the commands before it wait
(46_host_port.md R283, log entry 5). -/
def nextArrival : List Input → Option (Input × List Input)
  | [] => none
  | x :: rest => if isHost x then (nextArrival rest).map (fun r => (r.1, x :: r.2)) else some (x, rest)

/-- The input that is next in a MODE, and what stays listed: the first of the list while MODE is IDLE; otherwise the port
accepts no command, and the first input behind the waiting commands is next, so a tick is never blocked
(46_host_port.md R283, 20_memory.md R71). -/
def takeInput (m : Mode) (inputs : List Input) : Option (Input × List Input) :=
  if m = .idle then
    match inputs with
    | [] => none
    | x :: rest => some (x, rest)
  else nextArrival inputs

/-- The next turn (log entry 4). With nothing arriving, or only commands that wait, the encoder agent goes on, and an idle
block does nothing (70_reset_and_hazards.md R321). -/
def fetch (s : State) : Turn :=
  match takeInput s.mode s.inputs with
  | none => encoderTurn s
  | some (.tick pin, rest) => tickTurn pin { s with inputs := rest }
  | some (.host w, rest) => hostTurn w { s with inputs := rest }
  | some (.encoder, rest) => encoderTurn { s with inputs := rest }
  | some (.reset, rest) => .done (hardReset { s with inputs := rest })

end Sys2Proof.Machine
end

