-- ==== Sys2Proof/Machine/Step.lean ====
section
/-! DEFINITION. One step of the machine: the next whole operation of one agent (00_scope.md R11, 20_memory.md R70). -/

namespace Sys2Proof.Machine

/-- One step. A configuration that breaks a constraint is refused (00_scope.md R7); otherwise the next turn's operation
runs whole. -/
def step (s : State) : Host.Outcome State Fault Refusal :=
  if s.cfg.valid then
    match fetch s with
    | .run i s' => exec i s'
    | .done o => o
  else .refused .badConfig

/-- The state in which this instruction of spec/opcode_table.json arrives next: a 48-bit word is offered on the host
port, with MODE at IDLE so that the port accepts it (46_host_port.md R283); a shorter word arrives at the pins
(decodeTableWord, log entry 12). -/
def State.withFetchWord (s : State) (nbits w : Nat) : State :=
  if nbits = 48 then { s with inputs := [.host (BitVec.ofNat 48 w)], mode := .idle }
  else { s with inputs := [.tick (BitVec.ofNat 17 w)] }

end Sys2Proof.Machine
end

