-- ==== Sys2Proof/Safety.lean ====
section
/-! DEFINITION. What the claims about the machine are made of: the invariant of 10_state.md R42, and the rules' closed
forms of a transmission (43_baudot_rtty.md R214, 44_varicode_psk31.md R251), of a run of polls (41_button.md R154) and of
a bit sequence's decoding (44_varicode_psk31.md R252). -/

namespace Sys2Proof.Safety

open Sys2Proof.Machine

/-- The invariant of one tracker (10_state.md R42). -/
structure TrackerInv (c : Config) (B : Button) : Prop where
  dbc_le : B.dbc ≤ c.pbDebounce - 1
  lpc_le : B.lpc ≤ c.pushButtonReset - 1
  rlx_le : B.rlx ≤ c.pbRelax
  relaxed : B.pushed = false → B.rlx = 0
  relaxing : B.pushed = true → B.dbc = 0 ∧ 1 ≤ B.rlx

/-- How many characters of the position are finished but for `IDX <- IDX + 1`. -/
def charsEnding : List Task → Nat
  | [] => 0
  | .nextChar :: ts => charsEnding ts + 1
  | .act _ :: ts => charsEnding ts
  | .setShift _ :: ts => charsEnding ts

/-- The tasks of the procedure that runs in a MODE (43_baudot_rtty.md R205, 44_varicode_psk31.md R243). -/
def belongs : Mode → Task → Bool
  | .idle, _ => false
  | .rtty, .act .rttyCarrier => true
  | .rtty, .act (.hold _) => true
  | .rtty, .act (.elem _ _) => true
  | .rtty, .setShift _ => true
  | .rtty, .nextChar => true
  | .rtty, _ => false
  | .psk, .act .pskCarrier => true
  | .psk, .act (.hold _) => true
  | .psk, .act (.slot _) => true
  | .psk, .nextChar => true
  | .psk, _ => false

/-- The invariant of the machine: 10_state.md R42, the widths of the registers held as numbers (R31 to R33), the unused
bits of EVFLAGS (R29), the canonical form and the range of TEXT (20_memory.md R60), an admissible configuration
(00_scope.md R7), and a position that fits MODE, IDX and NLEN (10_state.md R31). -/
structure MachineInv (s : State) : Prop where
  cfg_valid : s.cfg.valid = true
  btn_length : s.btn.length = s.cfg.nb
  trackers : ∀ B ∈ s.btn, TrackerInv s.cfg B
  flags_high : s.evflags &&& ~~~flagMask s.cfg.nb = 0
  text_wf : Memory.wf s.text = true
  text_range : ∀ x ∈ s.text, x.1 < s.cfg.maxLen
  fmark_lt : s.fmark < 2 ^ s.cfg.freqW
  fspace_lt : s.fspace < 2 ^ s.cfg.freqW
  nlen_le : s.nlen ≤ s.cfg.maxLen
  idx_le : s.idx + charsEnding s.todo ≤ s.nlen
  todo_belongs : ∀ t ∈ s.todo, belongs s.mode t = true
  idle_ended : s.mode = .idle → s.trace = [] ∨ s.trace.getLast? = some .diso

/-! ## Closed forms of a transmission -/

/-- SETF(f) of 30_encoding.md R113: the event with the configuration's channel, PLL and drive. -/
def setf (c : Config) (f : Nat) : Event := .setf c.txCh c.txPll f c.txDrive

/-- The codes CHARSTEP sends for a character in a shift state, and the shift state after it (43_baudot_rtty.md R211). -/
def charCodes (c : Config) (sh : Shift) (ch : Byte) : List (BitVec 5) × Shift :=
  let asSpace := ([c.spaceCode, c.ltrsCode], Shift.letters)
  let asLetter := blookup c .letters (upperCase ch)
  let asFigure := blookup c .figures ch
  match classOf ch with
  | .space => asSpace
  | .alpha =>
    if asLetter = 0 then asSpace
    else ((if sh = .letters then [asLetter] else [c.ltrsCode, asLetter]), .letters)
  | .other =>
    if asFigure = 0 then asSpace
    else ((if sh = .figures then [asFigure] else [c.figsCode, asFigure]), .figures)

/-- The codes of the characters of a text from a shift state on, and the shift state after it. -/
def textCodes (c : Config) : Shift → List Byte → List (BitVec 5) × Shift
  | sh, [] => ([], sh)
  | sh, ch :: text =>
    let r := charCodes c sh ch
    let rest := textCodes c r.2 text
    (r.1 ++ rest.1, rest.2)

/-- `rtty_codes(text)` (43_baudot_rtty.md R214): four Letters-shift codes, then the codes of every character. -/
def rttyCodes (c : Config) (text : List Byte) : List (BitVec 5) :=
  List.replicate 4 c.ltrsCode ++ (textCodes c .letters text).1

/-- The events of ELEM(tone, T) when TONE is `now` (43_baudot_rtty.md R210). -/
def elemEvents (c : Config) (mark space : Nat) (now tone : Bool) (t : Nat) : List Event :=
  if tone = now then [.wait t] else [setf c (if tone then mark else space), .wait (t - c.tSwitch)]

/-- The events of a sequence of elements (tone, T), started with TONE at `now`. -/
def elemsEvents (c : Config) (mark space : Nat) : Bool → List (Bool × Nat) → List Event
  | _, [] => []
  | now, (tone, t) :: es => elemEvents c mark space now tone t ++ elemsEvents c mark space tone es

/-- The seven elements of FRAME(code) (30_encoding.md R93, 43_baudot_rtty.md R209). -/
def frameElems (c : Config) (code : BitVec 5) : List (Bool × Nat) :=
  [(false, c.tRbit), (code.getLsbD 0, c.tRbit), (code.getLsbD 1, c.tRbit), (code.getLsbD 2, c.tRbit),
   (code.getLsbD 3, c.tRbit), (code.getLsbD 4, c.tRbit), (true, c.tRstop)]

/-- The events of FRAME(code), which starts with TONE at mark (43_baudot_rtty.md R214). -/
def frameEvents (c : Config) (mark space : Nat) (code : BitVec 5) : List Event :=
  elemsEvents c mark space true (frameElems c code)

/-- The trace of a SENDR (43_baudot_rtty.md R214). -/
def rttyMessage (c : Config) (mark space : Nat) (text : List Byte) : List Event :=
  [setf c mark, .wait c.tRsettle] ++ (rttyCodes c text).flatMap (frameEvents c mark space) ++ [.diso]

/-- The bits of the pattern of a word, bit 0 first, up to its highest set bit (30_encoding.md R94, R105). -/
def wordBits (w : VWord) : List Bool := (List.range (bitlen w.toNat)).map (fun k => w.getLsbD k)

/-- The bits of CHAR(c): the pattern, then N_GAP zeros (44_varicode_psk31.md R247). -/
def symbolBits (c : Config) (ch : Nat) : List Bool :=
  wordBits (c.varicode.getD ch 0) ++ List.replicate c.nGap false

/-- `psk_bits(text)` (44_varicode_psk31.md R251): N_PREAMBLE zeros, three NUL symbols, then every character below 128. -/
def pskBits (c : Config) (text : List Byte) : List Bool :=
  List.replicate c.nPreamble false ++ (symbolBits c 0 ++ symbolBits c 0 ++ symbolBits c 0) ++
    text.flatMap (fun ch => if ch.toNat < 128 then symbolBits c ch.toNat else [])

/-- The events of PBIT for each bit, started with PHASE at `phase` (44_varicode_psk31.md R246). -/
def slotEvents (c : Config) : Bool → List Bool → List Event
  | _, [] => []
  | phase, true :: bits => .wait c.tPbit :: slotEvents c phase bits
  | phase, false :: bits =>
    .invp c.txCh (!phase) :: .wait (c.tPbit - c.tPswitch) :: slotEvents c (!phase) bits

/-- The trace of a SENDP (44_varicode_psk31.md R251). -/
def pskMessage (c : Config) (carrier : Nat) (text : List Byte) : List Event :=
  [setf c carrier] ++ slotEvents c false (pskBits c text) ++ [.diso]

/-- The message: the bytes TEXT[0] to TEXT[n - 1] (20_memory.md R61). -/
def message (s : State) (n : Nat) : List Byte := (List.range n).map s.textAt

/-- PHASE after the slots of these bits, started at 0: the number of zeros mod 2 (44_varicode_psk31.md R251). -/
def phaseAfter (bits : List Bool) : Bool := decide (bits.count false % 2 = 1)

/-! ## Measures of a trace -/

/-- The event is a SETF. -/
def isSetf : Event → Bool
  | .setf _ _ _ _ => true
  | _ => false

/-- The event is an INVP. -/
def isInvp : Event → Bool
  | .invp _ _ => true
  | _ => false

/-- The event is a WAIT. -/
def isWait : Event → Bool
  | .wait _ => true
  | _ => false

/-- The sum of the operands of the WAIT events (70_reset_and_hazards.md R338). -/
def waitSum : List Event → Nat
  | [] => 0
  | .wait d :: es => d + waitSum es
  | _ :: es => waitSum es

/-- The operands `inv` of the INVP events, in order. -/
def invpOperands : List Event → List Bool
  | [] => []
  | .invp _ inv :: es => inv :: invpOperands es
  | _ :: es => invpOperands es

/-- The input is a tick. -/
def isTick : Input → Bool
  | .tick _ => true
  | _ => false

/-- Every INVP is directly followed by a WAIT (45_synth_port.md R268). -/
def invpThenWait : List Event → Bool
  | [] => true
  | .invp _ _ :: .wait _ :: es => invpThenWait es
  | .invp _ _ :: _ => false
  | _ :: es => invpThenWait es

/-! ## Runs of polls -/

/-- The results of polling one tracker with these raw levels, one a tick (41_button.md R146, R154). -/
def pollResults (c : Config) (b : Nat) : List Bool → Button → List Press
  | [], _ => []
  | raw :: raws, B => (bpoll c b raw B).2 :: pollResults c b raws (bpoll c b raw B).1

/-- The tracker after polling it with these raw levels. -/
def pollTracker (c : Config) (b : Nat) : List Bool → Button → Button
  | [], B => B
  | raw :: raws, B => pollTracker c b raws (bpoll c b raw B).1

/-- The deltas of polling the decoder with these samples (40_quadrature.md R127). -/
def pollDeltas (c : Config) : BitVec 4 → List (BitVec 2) → List Delta
  | _, [] => []
  | hist, s :: ss => (qpoll c hist s).2 :: pollDeltas c (qpoll c hist s).1 ss

/-! ## Decoding a bit sequence -/

/-- A number from its bits, bit 0 first. -/
def bitsToNat : List Bool → Nat
  | [] => 0
  | b :: bits => (if b then 1 else 0) + 2 * bitsToNat bits

/-- The words of a bit sequence (44_varicode_psk31.md R252): zeros between words are skipped, and a word ends before the
first pair of adjacent zeros. `word` holds the bits of the word being collected, last first. Where R252 is silent the
model chooses (DESIGN CHOICE, log entry 24): a word that the end of the sequence cuts off is a word, and of a word of more
than 16 bits the first 16 count. -/
def splitWords : List Bool → List Bool → List VWord
  | [], [] => []
  | word, [] => [BitVec.ofNat 16 (bitsToNat word.reverse)]
  | [], false :: bits => splitWords [] bits
  | [], true :: bits => splitWords [true] bits
  | word, false :: false :: bits => BitVec.ofNat 16 (bitsToNat word.reverse) :: splitWords [] bits
  | word, b :: bits => splitWords (b :: word) bits

/-- The characters of a bit sequence (44_varicode_psk31.md R252): its words, each looked up by VREV. -/
def receive (c : Config) (bits : List Bool) : List Byte := (splitWords [] bits).map (vreverse c)

end Sys2Proof.Safety
end

