-- ==== Sys2Proof/Certificates/Slice0/Obligations.lean ====
section
/-! DEFINITION. The statements for the provers. Each docstring names the rule of spec/ it formalises. A statement that
an operation completes is an equation, or gives the next state whole: every field the equation does not name is
unchanged. `res` and `sub` are the model's own fields (log entry 6). -/

open Sys2Proof Sys2Proof.Machine Sys2Proof.Safety

/-! ## The machine's step -/

/-- What a step runs: the command the host offers while MODE is IDLE (46_host_port.md R280, R283), the tick that arrives,
in every MODE (40_quadrature.md R130, 46_host_port.md R283), the encoder agent's event (43_baudot_rtty.md R215,
44_varicode_psk31.md R249). These are the model's choices: the input that is taken goes off the list `inputs`, and the
encoder agent moves where nothing is next (log entry 4); a command offered while MODE is not IDLE stays on the list, and
the inputs behind it go before it (log entry 5). -/
def Obligations.StepRunsTheDecodedOperation : Prop :=
  ∀ s : State, s.cfg.valid = true →
    (∀ w i rest, s.inputs = .host w :: rest → s.mode = .idle → decode .host w = .ok i →
      step s = exec i { s with inputs := rest }) ∧
    ∀ waiting : List Input, (waiting = [] ∨ s.mode ≠ .idle ∧ ∀ x ∈ waiting, isHost x = true) →
      (∀ pin rest, s.inputs = waiting ++ .tick pin :: rest →
        decode .pins (pin.setWidth 48) = .ok (.tick (decodePin pin)) ∧
        step s = exec (.tick (decodePin pin)) { s with inputs := waiting ++ rest }) ∧
      (∀ rest i t, s.inputs = waiting ++ .encoder :: rest →
        encoderNext { s with inputs := waiting ++ rest } = .ok (some (i, t)) → step s = exec i t) ∧
      (∀ i t, s.inputs = waiting → s.mode ≠ .idle → encoderNext s = .ok (some (i, t)) →
        t.inputs = s.inputs ∧ step s = exec i t)

/-- Where a step is refused, and where nothing happens: a reserved command code (30_encoding.md R107), a configuration
that breaks a constraint (00_scope.md R7; that every step is refused then is the model's choice, log entry 2), a hardware
reset during a transmission (70_reset_and_hazards.md R323; refused by the model's choice, log entry 13, also behind
commands that wait, log entry 5); with nothing arriving an idle block stays as it is (R321; that a step answers the same
state is the model's choice, log entry 4). -/
def Obligations.StepRefusesWhatTheSpecLeavesOut : Prop :=
  ∀ s : State,
    (s.cfg.valid = false → step s = .refused .badConfig) ∧
    (∀ w rest, s.cfg.valid = true → s.mode = .idle → s.inputs = .host w :: rest →
      codeField w = 0x0 ∨ codeField w = 0xE ∨ codeField w = 0xF → step s = .refused (.reservedOp (codeField w))) ∧
    (∀ waiting rest, s.cfg.valid = true → s.mode ≠ .idle → (∀ x ∈ waiting, isHost x = true) →
      s.inputs = waiting ++ .reset :: rest → step s = .refused .resetWhileSending) ∧
    (s.cfg.valid = true → s.mode = .idle → s.inputs = [] → step s = .next s)

/-- While MODE is not IDLE each of the 13 host operations does nothing (46_host_port.md R283; that exec answers the
unchanged state is the model's choice, log entry 5). -/
def Obligations.HostOperationsWaitWhileSending : Prop :=
  ∀ (i : Instr) (w : Word48) (s : State), decode .host w = .ok i → s.mode ≠ .idle → exec i s = .next s

/-- The host agent has no step from the SENDR or SENDP to the DISO that ends it: in every step while MODE is not IDLE TEXT
and the last result stay, HIST, BTN and EVFLAGS change by a tick only, and only a DISO, which is then the last event of
TRACE, brings MODE back to IDLE (46_host_port.md R283, 20_memory.md R71). That every offered command stays on the list
`inputs` is the model's choice (log entry 5). -/
def Obligations.HostBlockedUntilDiso : Prop :=
  ∀ s t : State, s.mode ≠ .idle → step s = .next t →
    t.inputs.filter isHost = s.inputs.filter isHost ∧ t.text = s.text ∧ t.res = s.res ∧
    ((t.hist = s.hist ∧ t.btn = s.btn ∧ t.evflags = s.evflags) ∨
      ∃ pin u, .tick pin ∈ s.inputs ∧ exec (.tick (decodePin pin)) s = .next u ∧ t = { u with inputs := t.inputs }) ∧
    (t.mode = s.mode ∨ t.mode = .idle ∧ t.trace = s.trace ++ [.diso])

/-- The invariant holds right after reset, for the configuration of State.reset. -/
def Obligations.InvariantHoldsAtReset : Prop := MachineInv State.reset

/-- The invariant holds after a hardware reset of a block with any admissible configuration. -/
def Obligations.InvariantHoldsAfterReset : Prop :=
  ∀ (c : Config) (n : Nat), c.valid = true → MachineInv (State.afterReset c n)

/-- Every step keeps the invariant, the bounds of 10_state.md R42 among it. -/
def Obligations.StepKeepsInvariant : Prop :=
  ∀ s t : State, MachineInv s → step s = .next t → MachineInv t

/-- No step from the invariant faults (60_exceptions.md R290: the block raises no exception). -/
def Obligations.StepNeverFaults : Prop :=
  ∀ s : State, MachineInv s → ∀ f, step s ≠ .fault f

/-- Every operation is total (60_exceptions.md R290, R292): in every state and for all operands it completes, but for a
SENDR or SENDP of an idle block one of whose own frequencies, the mark or space frequency or the carrier, lies outside 0
to 2^FREQ_W - 1 (30_encoding.md R102). That a blocked host operation and a BPOLL of no button complete with no effect is
the model's choice (log entries 5 and 11). -/
def Obligations.EveryOperationCompletes : Prop :=
  ∀ (i : Instr) (s : State),
    (∃ t, exec i s = .next t) ∨
    (s.mode = .idle ∧ ∃ (len : BitVec 12) (base : Word32) (f : Int),
      exec i s = .refused (.freqOutOfRange f) ∧ ¬ (0 ≤ f ∧ f < 2 ^ s.cfg.freqW) ∧
      ((i = .sendr len base ∧ (f = base.toNat + s.cfg.txOffset ∨ f = base.toNat - s.cfg.shift + s.cfg.txOffset)) ∨
       (i = .sendp len base ∧ f = base.toNat + s.cfg.txOffset)))

/-- The registers held as numbers fit the widths the rules give them: DBC_W, LPC_W, RLX_W and 12 bits (10_state.md R24,
R27, R28, R31, R32). -/
def Obligations.CountersFitTheirWidths : Prop :=
  ∀ s : State, MachineInv s →
    (∀ B ∈ s.btn, B.dbc < 2 ^ s.cfg.dbcW ∧ B.lpc < 2 ^ s.cfg.lpcW ∧ B.rlx < 2 ^ s.cfg.rlxW) ∧
    s.idx < 2 ^ 12 ∧ s.nlen < 2 ^ 12

/-- The configuration is never written (20_memory.md R62, 10_state.md R20), by no step and by no instruction. -/
def Obligations.ConfigurationNeverChanges : Prop :=
  (∀ s t : State, step s = .next t → t.cfg = s.cfg) ∧ (∀ (i : Instr) (s t : State), exec i s = .next t → t.cfg = s.cfg)

/-- TRACE is append-only but for INIT and a hardware reset, which empty it, and a step appends at most one event
(10_state.md R41, 00_scope.md R11). -/
def Obligations.TraceGrowsByOneEventAtMost : Prop :=
  ∀ s t : State, step s = .next t →
    t.trace = s.trace ∨ (∃ e, t.trace = s.trace ++ [e]) ∨
    (s.mode = .idle ∧ t.trace = [] ∧
      ((∃ w rest, s.inputs = .host w :: rest ∧ decode .host w = .ok .init) ∨ ∃ rest, s.inputs = .reset :: rest))

/-- Who writes TEXT: only TXWR, and a hardware reset makes it unspecified (20_memory.md R60, R64, 46_host_port.md R281). -/
def Obligations.OnlyTxwrWritesText : Prop :=
  ∀ s t : State, step s = .next t → (t.text ≠ s.text ∨ t.powerUps ≠ s.powerUps) →
    s.mode = .idle ∧
    ((∃ w rest addr byte, s.inputs = .host w :: rest ∧ decode .host w = .ok (.txwr addr byte)) ∨
      ∃ rest, s.inputs = .reset :: rest)

/-- Who writes HIST and who sets flags: in a step that takes no tick off `inputs` HIST changes only by INIT or a reset, and
no flag rises (10_state.md R21, 42_event_flags.md R172). -/
def Obligations.OnlyTicksMoveHistoryAndRaiseFlags : Prop :=
  ∀ s t : State, step s = .next t → t.inputs.countP isTick = s.inputs.countP isTick →
    (t.hist = s.hist ∨ t.hist = s.cfg.histReset ∧ s.mode = .idle) ∧
    (∀ n, t.evflags.getLsbD n = true → s.evflags.getLsbD n = true)

/-! ## The encodings -/

/-- Decode and encode agree, for every instruction that has an encoding and every well-formed value of its operands
(30_encoding.md R91, R95, R96, R100); only QPOLL and BPOLL have none. -/
def Obligations.DecodeOfEncodeIsTheInstruction : Prop :=
  ∀ (nb : Nat) (i : Instr), i.wellFormed nb = true →
    (∃ p w, encode i = some (p, w) ∧ decode p w = .ok i) ∨ (∃ ab, i = .qpoll ab) ∨ (∃ b raw, i = .bpoll b raw)

/-- The codes alone select the row (30_encoding.md R106): a CMD word is refused exactly when its code is 0, E or F, an OUT
record exactly when its kind is 0 or at least 5; and the bits a CMD word's row does not use do not matter: the encoder's
word, which has them 0 and is otherwise made of bits of the given one, has the same code and the same meaning (R95). -/
def Obligations.OperationCodeAloneSelects : Prop :=
  ∀ w : Word48,
    ((∃ i, decode .host w = .ok i) ↔ 0x1 ≤ (codeField w).toNat ∧ (codeField w).toNat ≤ 0xD) ∧
    ((∃ i, decode .synth w = .ok i) ↔ 0x1 ≤ (codeField w).toNat ∧ (codeField w).toNat ≤ 0x4) ∧
    (∀ i, decode .host w = .ok i → ∃ v, encode i = some (.host, v) ∧ decode .host v = .ok i ∧ codeField v = codeField w ∧
      v &&& w = v)

/-- The instruction words of 95_test_vectors.md V-C1 and V-C2 mean what the table there says. -/
def Obligations.SampleWordsDecode : Prop :=
  decode .host 0x100000000000 = .ok (.ben 0) ∧ decode .host 0x1FF0DEADBEEF = .ok (.ben 0) ∧
  decode .host 0x3ABC12345678 = .ok .frd ∧ decode .host 0x5000FFFFFFFF = .ok (.fxchg 0xFFFFFFFF) ∧
  decode .host 0x604500000000 = .ok (.blkup .letters 0x45) ∧ decode .host 0x711600000000 = .ok (.brev .figures 22) ∧
  decode .host 0x8003006C5660 = .ok (.sendr 3 7100000) ∧ decode .host 0x906500000000 = .ok (.vlkup 0x65) ∧
  decode .host 0xA00000000003 = .ok (.vrev 0x0003) ∧ decode .host 0xB001006C5660 = .ok (.sendp 1 7100000) ∧
  decode .host 0xC00200000021 = .ok (.txwr 2 0x21) ∧ decode .host 0xD00000000000 = .ok .init ∧
  decode .synth 0x1203006C5A2F = .ok (.setf 2 0 7100975 3) ∧ decode .synth 0x220000000001 = .ok (.invp 2 true) ∧
  decode .synth 0x300000000000 = .ok .diso ∧ decode .synth 0x400000000014 = .ok (.wait 20)

/-! ## The quadrature decoder and the tick -/

/-- QPOLL (40_quadrature.md R126) completes in every state: HIST is shifted by the sample, the delta is the table's entry,
nothing else changes. -/
def Obligations.QpollShiftsHistoryAndReadsTable : Prop :=
  ∀ (s : State) (ab : BitVec 2),
    exec (.qpoll ab) s = .next
      { s with hist := s.hist <<< 2 ||| ab.setWidth 4,
               sub := some (.delta (s.cfg.qtable.getD ((4 * s.hist.toNat + ab.toNat) % 16) .zero)) }

/-- The decode table of every admissible configuration, read through QPOLL (40_quadrature.md R122, R123, R124): it has 16
entries, the delta of previous sample p and sample q is the opposite of that of q and p, it is non-zero only where the
two differ in one bit, and exactly two of the 16 pairs give +1 and two give -1. -/
def Obligations.DecodeTableIsAntisymmetricOneStep : Prop :=
  ∀ c : Config, c.valid = true →
    let delta := fun p q : BitVec 2 => (qpoll c (p.setWidth 4) q).2
    c.qtable.length = 16 ∧
    (∀ p q, (delta p q).toInt = -(delta q p).toInt) ∧
    (∀ p q, delta p q ≠ .zero → p ^^^ q = 1 ∨ p ^^^ q = 2) ∧
    ((List.range 16).countP (fun n => delta (BitVec.ofNat 2 (n / 4)) (BitVec.ofNat 2 n) == .cw) = 2) ∧
    ((List.range 16).countP (fun n => delta (BitVec.ofNat 2 (n / 4)) (BitVec.ofNat 2 n) == .ccw) = 2)

/-- Reversing a sample sequence reverses and negates its deltas (40_quadrature.md R127 (b)): the deltas of s1 .. sn after
a first sample s0, and of s(n-1) .. s0 after a first sample sn. -/
def Obligations.ReversedSamplesNegateDeltas : Prop :=
  ∀ (c : Config) (s0 : BitVec 2) (ss : List (BitVec 2)), c.valid = true →
    ∀ h h' : BitVec 4, h.setWidth 2 = s0 → h'.setWidth 2 = (s0 :: ss).getLast (by simp) →
      pollDeltas c h' ((s0 :: ss).reverse.tail) = ((pollDeltas c h ss).map Delta.neg).reverse

/-- TICK (40_quadrature.md R130) completes in every state whose NB trackers stand in `btn`: HIST as QPOLL leaves it,
tracker b as BPOLL leaves it on BTN_RAW[b], a flag is 1 after it exactly when it was 1 or its event happened, and nothing
else changes, whatever MODE is. -/
def Obligations.TickPollsDecoderAndEveryButton : Prop :=
  ∀ (s : State) (pin : Pin), s.btn.length = s.cfg.nb → s.cfg.nb ≤ 15 →
    ∃ t, exec (.tick pin) s = .next t ∧
      t = { s with hist := t.hist, btn := t.btn, evflags := t.evflags } ∧
      let q := qpoll s.cfg s.hist (BitVec.ofBool pin.encA ++ BitVec.ofBool pin.encB)
      t.hist = q.1 ∧ t.btn.length = s.btn.length ∧
      (∀ b B, s.btn[b]? = some B → t.btn[b]? = some (bpoll s.cfg b (pin.btn.getLsbD b) B).1) ∧
      (∀ n, t.evflags.getLsbD n = true ↔
        s.evflags.getLsbD n = true ∨ (n = 0 ∧ q.2 = .cw) ∨ (n = 1 ∧ q.2 = .ccw) ∨
        ∃ b B, s.btn[b]? = some B ∧
          ((n = 2 + 2 * b ∧ (bpoll s.cfg b (pin.btn.getLsbD b) B).2.pressed = true) ∨
           (n = 3 + 2 * b ∧ (bpoll s.cfg b (pin.btn.getLsbD b) B).2.lpr = true)))

/-- A tick and the encoder agent's next event commute, so the place of a tick among the events of a transmission does not
change the trace (60_exceptions.md R296, 20_memory.md R71 (c)). -/
def Obligations.TickAndEncoderEventCommute : Prop :=
  ∀ (s s1 s2 : State) (pin : BitVec 17) (rest : List Input),
    step { s with inputs := .tick pin :: .encoder :: rest } = .next s1 →
    step { s with inputs := .encoder :: .tick pin :: rest } = .next s2 →
    ∃ u, step s1 = .next u ∧ step s2 = .next u ∧ s1.trace = s.trace ∧ u.trace = s2.trace

/-! ## The button tracker -/

/-- BPOLL (41_button.md R146 to R150) completes on every existing button, in every state: each field of its record, the
two results, and nothing else changes. -/
def Obligations.BpollUpdatesEachField : Prop :=
  ∀ (s : State) (b : BitVec 4) (raw : Bool) (B : Button), b.toNat < s.cfg.nb → s.btn[b.toNat]? = some B →
    let held := raw == s.cfg.heldLevel.getLsbD b.toNat
    let lpr := held && decide (s.cfg.pushButtonReset ≤ B.lpc + 1)
    let counting := held && !B.pushed && B.en
    let pressed := counting && decide (s.cfg.pbDebounce ≤ B.dbc + 1)
    let B' : Button :=
      { lvl := raw
        dbc := if counting && !pressed then B.dbc + 1 else 0
        pushed := pressed || (B.pushed && (held || decide (1 < B.rlx)))
        en := B.en && !pressed
        lpc := if held && !lpr then B.lpc + 1 else 0
        rlx := if held then (if B.pushed || pressed then s.cfg.pbRelax else B.rlx)
               else if B.pushed then B.rlx - 1 else B.rlx }
    exec (.bpoll b raw) s =
      .next { s with btn := s.btn.set b.toNat B', sub := some (.press { pressed := pressed, lpr := lpr }) }

/-- BPOLL of a button index at or above NB completes and changes nothing of the block: 41_button.md R146 gives the
operation for the existing buttons only, this is the model's choice (log entry 11). -/
def Obligations.BpollOfNoButtonDoesNothing : Prop :=
  ∀ (s : State) (b : BitVec 4) (raw : Bool), s.cfg.nb ≤ b.toNat →
    exec (.bpoll b raw) s = .next { s with sub := some (.press { pressed := false, lpr := false }) }

/-- From reset, a button held for k consecutive ticks raises `pressed` on tick PBDEBOUNCE and on no other, so never if
k < PBDEBOUNCE (41_button.md R154 (a), R142). -/
def Obligations.HeldButtonPressesOnceOnTickPbdebounce : Prop :=
  ∀ (c : Config) (b k : Nat), 1 ≤ c.pbDebounce →
    ∀ n p, (pollResults c b (List.replicate k (c.heldLevel.getLsbD b)) (Button.afterReset c b))[n]? = some p →
      (p.pressed = true ↔ n + 1 = c.pbDebounce)

/-- The long press (41_button.md R150), in every latch state: on every held tick LPC counts, and on the tick that makes
the count PUSH_BUTTON_RESET `lpr` is 1 and LPC becomes 0; so a run of k held ticks from LPC = 0 raises `lpr` on exactly
the ticks PUSH_BUTTON_RESET, 2 x PUSH_BUTTON_RESET, ..., k / PUSH_BUTTON_RESET times; one released tick clears LPC and
raises nothing. -/
def Obligations.LongPressRepeatsEveryThreshold : Prop :=
  ∀ (c : Config) (b : Nat) (B : Button),
    (let r := bpoll c b (c.heldLevel.getLsbD b) B
     r.2.lpr = decide (c.pushButtonReset ≤ B.lpc + 1) ∧
     r.1.lpc = if c.pushButtonReset ≤ B.lpc + 1 then 0 else B.lpc + 1) ∧
    ((bpoll c b (!c.heldLevel.getLsbD b) B).1.lpc = 0 ∧ (bpoll c b (!c.heldLevel.getLsbD b) B).2.lpr = false) ∧
    ∀ k, 1 ≤ c.pushButtonReset → B.lpc = 0 →
    (∀ n p, (pollResults c b (List.replicate k (c.heldLevel.getLsbD b)) B)[n]? = some p →
      (p.lpr = true ↔ c.pushButtonReset ∣ n + 1)) ∧
    (pollResults c b (List.replicate k (c.heldLevel.getLsbD b)) B).countP (fun p => p.lpr) = k / c.pushButtonReset

/-- After a held tick PUSHED clears on exactly the PBRELAX-th consecutive released tick (41_button.md R149). -/
def Obligations.PushedClearsAfterPbrelaxReleases : Prop :=
  ∀ (c : Config) (b k : Nat) (B : Button), 1 ≤ c.pbRelax → B.pushed = true → B.rlx = c.pbRelax →
    ((pollTracker c b (List.replicate k (!c.heldLevel.getLsbD b)) B).pushed = true ↔ k < c.pbRelax)

/-- A disabled button never fires a press, whatever its pin does; only a press or BEN changes EN (41_button.md R147,
R154 (c)). -/
def Obligations.DisabledButtonNeverPresses : Prop :=
  ∀ (c : Config) (b : Nat) (raws : List Bool) (B : Button), B.en = false →
    (∀ p ∈ pollResults c b raws B, p.pressed = false) ∧ (pollTracker c b raws B).en = false ∧
    (B.pushed = false → (pollTracker c b raws B).pushed = false)

/-- A press needs EN = 1 and PUSHED = 0, sets PUSHED and clears EN; PUSHED rises on no other tick (41_button.md R147,
10_state.md R25, R26). -/
def Obligations.PressOnlyWhenArmed : Prop :=
  ∀ (c : Config) (b : Nat) (raw : Bool) (B : Button),
    let r := bpoll c b raw B
    (r.2.pressed = true → B.en = true ∧ B.pushed = false ∧ r.1.pushed = true ∧ r.1.en = false) ∧
    (B.pushed = false → r.1.pushed = true → r.2.pressed = true)

/-- BEN (41_button.md R152) completes in every idle state: EN of button b becomes 1 and nothing else of the block changes;
with b at or above NB nothing changes. Its code is 0x1 and b is bits 35:32. -/
def Obligations.BenSetsTheLatchOnly : Prop :=
  (∀ (a : BitVec 12) (d : Word32), decode .host (cmdWord 0x1 a d) = .ok (.ben (a.setWidth 4))) ∧
  ∀ (s : State) (b : BitVec 4), s.mode = .idle →
    ∃ t, exec (.ben b) s = .next t ∧ t = { s with btn := t.btn, res := none } ∧
      ∀ j, t.btn[j]? = if j = b.toNat ∧ j < s.cfg.nb then (s.btn[j]?).map (fun B => { B with en := true }) else s.btn[j]?

/-- BDIS (41_button.md R153) completes in every idle state: EN of button b becomes 0 and nothing else of the block
changes; with b at or above NB nothing changes. Its code is 0x2 and b is bits 35:32. -/
def Obligations.BdisClearsTheLatchOnly : Prop :=
  (∀ (a : BitVec 12) (d : Word32), decode .host (cmdWord 0x2 a d) = .ok (.bdis (a.setWidth 4))) ∧
  ∀ (s : State) (b : BitVec 4), s.mode = .idle →
    ∃ t, exec (.bdis b) s = .next t ∧ t = { s with btn := t.btn, res := none } ∧
      ∀ j, t.btn[j]? = if j = b.toNat ∧ j < s.cfg.nb then (s.btn[j]?).map (fun B => { B with en := false }) else s.btn[j]?

/-! ## The event flags -/

/-- FRD (42_event_flags.md R174) completes in every idle state: it returns the register, bits at and above 2 + 2 x NB
reading 0, and changes nothing. Its code is 0x3. -/
def Obligations.FrdReturnsTheFlags : Prop :=
  (∀ (a : BitVec 12) (d : Word32), decode .host (cmdWord 0x3 a d) = .ok .frd) ∧
  ∀ s : State, s.mode = .idle →
    ∃ v, exec .frd s = .next { s with res := some v } ∧
      ∀ n, v.getLsbD n = (s.evflags.getLsbD n && decide (n < 2 + 2 * s.cfg.nb))

/-- FCLR (42_event_flags.md R175) completes in every idle state: a flag of the register is 1 after it exactly when it was
1 and its mask bit is 0; nothing else changes. Its code is 0x4. -/
def Obligations.FclrClearsTheMaskedFlags : Prop :=
  (∀ (a : BitVec 12) (d : Word32), decode .host (cmdWord 0x4 a d) = .ok (.fclr d)) ∧
  ∀ (s : State) (mask : Word32), s.mode = .idle →
    ∃ v, exec (.fclr mask) s = .next { s with evflags := v, res := none } ∧
      ∀ n, v.getLsbD n = (s.evflags.getLsbD n && !(mask.getLsbD n && decide (n < 2 + 2 * s.cfg.nb)))

/-- FXCHG (42_event_flags.md R176) completes in every idle state: it returns the flags as FRD would and clears them as
FCLR would, in one step, so every flag it clears it also returned. Its code is 0x5. -/
def Obligations.FxchgReadsAndClearsAtOnce : Prop :=
  (∀ (a : BitVec 12) (d : Word32), decode .host (cmdWord 0x5 a d) = .ok (.fxchg d)) ∧
  ∀ (s : State) (mask : Word32), s.mode = .idle →
    ∃ v r, exec (.fxchg mask) s = .next { s with evflags := v, res := some r } ∧
      (∀ n, v.getLsbD n = (s.evflags.getLsbD n && !(mask.getLsbD n && decide (n < 2 + 2 * s.cfg.nb)))) ∧
      (∀ n, r.getLsbD n = (s.evflags.getLsbD n && decide (n < 2 + 2 * s.cfg.nb))) ∧
      (∀ n, s.evflags.getLsbD n = true → v.getLsbD n = false → r.getLsbD n = true)

/-! ## The line-code tables -/

/-- BLKUP (43_baudot_rtty.md R196) completes in every idle state of an admissible configuration and changes nothing: the
result is the index of the first entry that holds the character, where one of the entries 0 to 31 does, and 0 where none
does. Its code is 0x6, sel is bit 40, the character is bits 39:32. -/
def Obligations.BlkupFindsTheFirstMatch : Prop :=
  (∀ (a : BitVec 12) (d : Word32),
    decode .host (cmdWord 0x6 a d) = .ok (.blkup (if a.getLsbD 8 then .figures else .letters) (a.setWidth 8))) ∧
  ∀ (s : State) (sel : Shift) (ch : Byte), s.mode = .idle → s.cfg.valid = true →
    let table := match sel with
      | .letters => s.cfg.baudotLtrs
      | .figures => s.cfg.baudotFigs
    ∃ k : Nat, k ≤ 31 ∧ exec (.blkup sel ch) s = .next { s with res := some (BitVec.ofNat 32 k) } ∧
      ((table[k]? = some ch ∧ ∀ j < k, table[j]? ≠ some ch) ∨ (k = 0 ∧ ∀ j ≤ 32, table[j]? ≠ some ch))

/-- BREV (43_baudot_rtty.md R197) completes in every idle state of an admissible configuration and changes nothing: the
result is the entry at the code, so 0 at the sentinel entries. Its code is 0x7, sel is bit 40, the code is bits 36:32. -/
def Obligations.BrevReadsTheEntry : Prop :=
  (∀ (a : BitVec 12) (d : Word32),
    decode .host (cmdWord 0x7 a d) = .ok (.brev (if a.getLsbD 8 then .figures else .letters) (a.setWidth 5))) ∧
  ∀ (s : State) (sel : Shift) (code : BitVec 5), s.mode = .idle → s.cfg.valid = true →
    let table := match sel with
      | .letters => s.cfg.baudotLtrs
      | .figures => s.cfg.baudotFigs
    ∃ ch : Byte, table[code.toNat]? = some ch ∧
      exec (.brev sel code) s = .next { s with res := some (ch.setWidth 32) } ∧
      (code = 0 ∨ code = s.cfg.ltrsCode ∨ code = s.cfg.figsCode → ch = 0)

/-- The Baudot round trip, for every admissible pair of tables, which 43_baudot_rtty.md R198 derives: a non-zero byte of a
table comes back from its code, and a code with a non-zero entry comes back from its byte. -/
def Obligations.BaudotRoundTrip : Prop :=
  ∀ (c : Config) (sel : Shift), c.valid = true →
    (∀ ch : Byte, ch ≠ 0 → ch ∈ c.baudot sel → readBaudot c sel (blookup c sel ch).toNat = ch) ∧
    (∀ k : BitVec 5, readBaudot c sel k.toNat ≠ 0 → blookup c sel (readBaudot c sel k.toNat) = k)

/-- VLKUP (44_varicode_psk31.md R236) completes in every idle state of an admissible configuration and changes nothing: the
result is the stored word of a character below 0x80, and 0 for every other, which no entry is. Its code is 0x9, the
character is bits 39:32. -/
def Obligations.VlkupReadsTheWord : Prop :=
  (∀ (a : BitVec 12) (d : Word32), decode .host (cmdWord 0x9 a d) = .ok (.vlkup (a.setWidth 8))) ∧
  ∀ (s : State) (ch : Byte), s.mode = .idle → s.cfg.valid = true →
    (0x80 ≤ ch.toNat → exec (.vlkup ch) s = .next { s with res := some 0 }) ∧
    (ch.toNat < 0x80 → ∃ w : VWord, s.cfg.varicode[ch.toNat]? = some w ∧ w ≠ 0 ∧
      exec (.vlkup ch) s = .next { s with res := some (w.setWidth 32) })

/-- VREV (44_varicode_psk31.md R237) completes in every idle state of an admissible configuration and changes nothing: the
result is the one character whose stored word it is, and 0xFF where none is. Its code is 0xA, the word is bits 15:0. -/
def Obligations.VrevFindsTheCharacter : Prop :=
  (∀ (a : BitVec 12) (d : Word32), decode .host (cmdWord 0xA a d) = .ok (.vrev (d.setWidth 16))) ∧
  ∀ (s : State) (w : VWord), s.mode = .idle → s.cfg.valid = true →
    (∀ ch < 128, s.cfg.varicode[ch]? = some w → exec (.vrev w) s = .next { s with res := some (BitVec.ofNat 32 ch) }) ∧
    ((∀ ch < 128, s.cfg.varicode[ch]? ≠ some w) → exec (.vrev w) s = .next { s with res := some 0xFF })

/-- The Varicode round trip, for every admissible table, which 44_varicode_psk31.md R238 derives. -/
def Obligations.VaricodeRoundTrip : Prop :=
  ∀ (c : Config) (ch : Byte), c.valid = true → ch.toNat ≤ 127 → vreverse c (vlookup c ch) = ch

/-! ## The host port -/

/-- TXWR (46_host_port.md R281) completes in every idle state with the canonical TEXT: the byte at an address below
MAXLEN reads as written, every other byte of TEXT as before, and nothing else changes; at or above MAXLEN nothing
changes. Its code is 0xC, the address is bits 43:32, the byte is bits 7:0. -/
def Obligations.TxwrWritesOneByte : Prop :=
  (∀ (a : BitVec 12) (d : Word32), decode .host (cmdWord 0xC a d) = .ok (.txwr a (d.setWidth 8))) ∧
  ∀ (s : State) (addr : BitVec 12) (byte : Byte), s.mode = .idle → Memory.wf s.text = true →
    ∃ t, exec (.txwr addr byte) s = .next t ∧ t = { s with text := t.text, res := none } ∧ Memory.wf t.text = true ∧
      (addr.toNat < s.cfg.maxLen → ∀ a, t.textAt a = if a = addr.toNat then byte else s.textAt a) ∧
      (s.cfg.maxLen ≤ addr.toNat → t.text = s.text)

/-- INIT (46_host_port.md R282) completes in every idle state and leaves the state of a hardware reset, but for TEXT,
which keeps its contents (`inputs`, what has yet to arrive, is no register). Its code is 0xD. -/
def Obligations.InitLeavesResetStateButText : Prop :=
  (∀ (a : BitVec 12) (d : Word32), decode .host (cmdWord 0xD a d) = .ok .init) ∧
  ∀ s : State, s.mode = .idle →
    exec .init s = .next { State.afterReset s.cfg s.powerUps with text := s.text, inputs := s.inputs }

/-- What reset leaves (70_reset_and_hazards.md R320): every value of the rule's table, for every configuration; a byte of
TEXT reads as the arbitrary byte of power-on (log entry 3), whatever that is. -/
def Obligations.ResetValuesOfEveryRegister : Prop :=
  ∀ (c : Config) (n : Nat),
    let s := State.afterReset c n
    s.hist = c.histReset ∧ s.btn.length = c.nb ∧
    (∀ b < c.nb, s.btn[b]? = some
      { lvl := !c.heldLevel.getLsbD b, dbc := 0, pushed := false, en := true, lpc := 0, rlx := 0 }) ∧
    s.evflags = 0 ∧ s.mode = .idle ∧ s.idx = 0 ∧ s.nlen = 0 ∧ s.fmark = 0 ∧ s.fspace = 0 ∧ s.shiftst = .letters ∧
    s.tone = true ∧ s.phase = false ∧ s.trace = [] ∧ s.cfg = c ∧ ∀ a, s.textAt a = Config.powerOnText n a

/-- A hardware reset while MODE is IDLE gives the state after reset (70_reset_and_hazards.md R320, R323); what has yet to
arrive still arrives, and TEXT is unspecified anew (log entry 13). -/
def Obligations.HardwareResetWhileIdle : Prop :=
  ∀ (s : State) (rest : List Input), s.cfg.valid = true → s.mode = .idle → s.inputs = .reset :: rest →
    step s = .next { State.afterReset s.cfg (s.powerUps + 1) with inputs := rest }

/-! ## The output records -/

/-- SETF, INVP, DISO and WAIT (45_synth_port.md R261 to R264) complete in every state: each appends its event to TRACE and
changes nothing else; that the record itself does not look at MODE is the model's choice (log entry 23). -/
def Obligations.RecordsAppendTheirEvent : Prop :=
  ∀ (s : State) (ch : BitVec 4) (pll : BitVec 2) (f : Nat) (drv : BitVec 6) (inv : Bool) (d : Nat),
    exec (.setf ch pll f drv) s = .next { s with trace := s.trace ++ [.setf ch pll f drv] } ∧
    exec (.invp ch inv) s = .next { s with trace := s.trace ++ [.invp ch inv] } ∧
    exec .diso s = .next { s with trace := s.trace ++ [.diso] } ∧
    exec (.wait d) s = .next { s with trace := s.trace ++ [.wait d] }

/-- What the encoder agent emits and when, from the invariant: nothing while MODE is IDLE, and otherwise always an event;
an INVP only in PSK31, on the configured channel, carrying the new PHASE, which it toggles; a SETF with the configured
operands, of FMARK or FSPACE by the new TONE in RTTY and of FMARK in PSK31; DISO exactly when MODE becomes IDLE
(45_synth_port.md R261 to R263, R267, 43_baudot_rtty.md R210, 44_varicode_psk31.md R246). -/
def Obligations.EncoderEmitsOnlyItsRecords : Prop :=
  ∀ s : State, MachineInv s →
    (s.mode = .idle → encoderNext s = .ok none) ∧
    (s.mode ≠ .idle → ∃ i t, encoderNext s = .ok (some (i, t)) ∧ t.trace = s.trace ∧
      ((∃ d, i = .wait d ∧ t.mode = s.mode ∧ t.tone = s.tone ∧ t.phase = s.phase) ∨
       (i = .setf s.cfg.txCh s.cfg.txPll (if t.tone then s.fmark else s.fspace) s.cfg.txDrive ∧ s.mode = .rtty ∧
          t.mode = .rtty ∧ t.phase = s.phase) ∨
       (i = .setf s.cfg.txCh s.cfg.txPll s.fmark s.cfg.txDrive ∧ s.mode = .psk ∧ t.mode = .psk ∧ t.phase = false ∧
          t.tone = s.tone) ∨
       (i = .invp s.cfg.txCh t.phase ∧ s.mode = .psk ∧ t.mode = .psk ∧ t.phase = !s.phase ∧ t.tone = s.tone) ∨
       (i = .diso ∧ t.mode = .idle ∧ t.idx = s.nlen ∧ t.tone = s.tone ∧ t.phase = s.phase)))

/-! ## The transmissions -/

/-- SENDR, the issue (43_baudot_rtty.md R205, R206, 30_encoding.md R102, R103): in every idle state, if both frequencies
fit FREQ_W it completes with the session registers set and the encoder agent at the start of the message; nothing else of
the block changes. If one does not fit it is refused. Its code is 0x8, len is bits 43:32, base is bits 31:0. -/
def Obligations.SendrIssuesOrRefuses : Prop :=
  (∀ (a : BitVec 12) (d : Word32), decode .host (cmdWord 0x8 a d) = .ok (.sendr a d)) ∧
  ∀ (s : State) (len : BitVec 12) (base : Word32), s.mode = .idle →
    let fits := fun f : Int => 0 ≤ f ∧ f < 2 ^ s.cfg.freqW
    let mark : Int := base.toNat + s.cfg.txOffset
    let space : Int := base.toNat - s.cfg.shift + s.cfg.txOffset
    (fits mark → fits space →
      ∃ t, exec (.sendr len base) s = .next t ∧ (t.fmark : Int) = mark ∧ (t.fspace : Int) = space ∧
        t = { s with nlen := min len.toNat s.cfg.maxLen, fmark := t.fmark, fspace := t.fspace, idx := 0, mode := .rtty,
                     todo := rttyPreamble s.cfg, res := none }) ∧
    (¬ fits mark ∨ ¬ fits space → ∃ f, ¬ fits f ∧ exec (.sendr len base) s = .refused (.freqOutOfRange f))

/-- SENDP, the issue (44_varicode_psk31.md R243, R244, 30_encoding.md R102, R103): in every idle state, if the carrier fits
FREQ_W it completes with the session registers set, FSPACE, TONE and SHIFTST not written; nothing else of the block
changes. If it does not fit it is refused. Its code is 0xB, len is bits 43:32, base is bits 31:0. -/
def Obligations.SendpIssuesOrRefuses : Prop :=
  (∀ (a : BitVec 12) (d : Word32), decode .host (cmdWord 0xB a d) = .ok (.sendp a d)) ∧
  ∀ (s : State) (len : BitVec 12) (base : Word32), s.mode = .idle →
    let fits := fun f : Int => 0 ≤ f ∧ f < 2 ^ s.cfg.freqW
    let carrier : Int := base.toNat + s.cfg.txOffset
    (fits carrier →
      ∃ t, exec (.sendp len base) s = .next t ∧ (t.fmark : Int) = carrier ∧
        t = { s with nlen := min len.toNat s.cfg.maxLen, fmark := t.fmark, idx := 0, mode := .psk,
                     todo := pskPreamble s.cfg, res := none }) ∧
    (¬ fits carrier → exec (.sendp len base) s = .refused (.freqOutOfRange carrier))

/-- The whole RTTY message (43_baudot_rtty.md R205, R214): from the issue of a SENDR, with nothing else arriving, exactly
as many steps as the closed-form trace has events later the block is idle again, TRACE has grown by exactly that trace,
and every register is as the rules leave it. -/
def Obligations.SendrSendsTheWholeMessage : Prop :=
  ∀ (s t : State) (len : BitVec 12) (base : Word32), s.cfg.valid = true → s.mode = .idle → s.inputs = [] →
    exec (.sendr len base) s = .next t →
    let text := message s (min len.toNat s.cfg.maxLen)
    let events := rttyMessage s.cfg t.fmark t.fspace text
    Host.Core.run Sys2Proof.core events.length t = .next
      { t with mode := .idle, todo := [], idx := text.length, tone := true, trace := s.trace ++ events,
               shiftst := (textCodes s.cfg .letters text).2 }

/-- The whole PSK31 message (44_varicode_psk31.md R243, R251): from the issue of a SENDP, with nothing else arriving,
exactly as many steps as the closed-form trace has events later the block is idle again, TRACE has grown by exactly that
trace, and every register is as the rules leave it. -/
def Obligations.SendpSendsTheWholeMessage : Prop :=
  ∀ (s t : State) (len : BitVec 12) (base : Word32), s.cfg.valid = true → s.mode = .idle → s.inputs = [] →
    exec (.sendp len base) s = .next t →
    let text := message s (min len.toNat s.cfg.maxLen)
    let events := pskMessage s.cfg t.fmark text
    Host.Core.run Sys2Proof.core events.length t = .next
      { t with mode := .idle, todo := [], idx := text.length, trace := s.trace ++ events,
               phase := phaseAfter (pskBits s.cfg text) }

/-- A transmission, in RTTY or in PSK31, with ticks among its events (20_memory.md R71 (c), 60_exceptions.md R296):
whatever ticks arrive and wherever they fall among the encoder agent's steps, the block is idle again after as many
encoder steps as the closed form has events, with exactly that trace. -/
def Obligations.TicksDoNotChangeTheTrace : Prop :=
  ∀ (s t : State) (len : BitVec 12) (base : Word32) (inputs : List Input) (events : List Event), MachineInv s →
    s.mode = .idle →
    (exec (.sendr len base) s = .next t ∧
        events = rttyMessage s.cfg t.fmark t.fspace (message s (min len.toNat s.cfg.maxLen)) ∨
      exec (.sendp len base) s = .next t ∧
        events = pskMessage s.cfg t.fmark (message s (min len.toNat s.cfg.maxLen))) →
    (∀ x ∈ inputs, x = .encoder ∨ ∃ pin, x = .tick pin) → inputs.count .encoder = events.length →
    ∃ u, Host.Core.run Sys2Proof.core inputs.length { t with inputs := inputs } = .next u ∧
      u.mode = .idle ∧ u.trace = s.trace ++ events ∧ u.text = s.text ∧
      (∀ n, s.evflags.getLsbD n = true → u.evflags.getLsbD n = true)

/-- Every frame starts with a change to space and ends on mark, emits between 2 and 6 SETF events, and its stop element
changes tone exactly when bit 4 of the code is 0: the stop element is then SETF and a wait, and otherwise a wait alone,
after the wait of the last data element (43_baudot_rtty.md R209). -/
def Obligations.FrameShape : Prop :=
  ∀ (c : Config) (mark space : Nat) (code : BitVec 5),
    let es := frameEvents c mark space code
    2 ≤ es.countP isSetf ∧ es.countP isSetf ≤ 6 ∧
    (∃ rest, es = setf c space :: .wait (c.tRbit - c.tSwitch) :: rest) ∧
    (es.filter isSetf).getLast? = some (setf c mark) ∧
    (code.getLsbD 4 = false →
      ∃ front d, es = front ++ [.wait d, setf c mark, .wait (c.tRstop - c.tSwitch)]) ∧
    (code.getLsbD 4 = true → ∃ front d, es = front ++ [.wait d, .wait c.tRstop])

/-- The shape of every message trace (45_synth_port.md R268). -/
def Obligations.TraceShapes : Prop :=
  ∀ (c : Config) (mark space : Nat) (text : List Byte),
    (∃ f d body, rttyMessage c mark space text = [setf c f, .wait d] ++ body ++ [.diso] ∧
      ∀ e ∈ body, isSetf e = true ∨ isWait e = true) ∧
    (∃ f body, pskMessage c mark text = [setf c f] ++ body ++ [.diso] ∧
      (∀ e ∈ body, isInvp e = true ∨ isWait e = true) ∧ invpThenWait body = true)

/-- The sums of the waits of a message, which 70_reset_and_hazards.md R338 derives: RTTY, T_RSETTLE and 6 x T_RBIT +
T_RSTOP for every frame, less T_SWITCH for every SETF after the first; PSK31, T_PBIT for every slot, less T_PSWITCH for
every INVP. With CFG-T the message "E" has 13 SETF events and a sum of 901, and "e" has 44 slots and a sum of 1408. -/
def Obligations.WaitSums : Prop :=
  ((rttyMessage Config.cfgT 7100975 7100805 [0x45]).countP isSetf = 13 ∧
    waitSum (rttyMessage Config.cfgT 7100975 7100805 [0x45]) = 901 ∧
    (pskBits Config.cfgT [0x65]).length = 44 ∧ waitSum (pskMessage Config.cfgT 7100975 [0x65]) = 1408) ∧
  ∀ (c : Config) (mark space : Nat) (text : List Byte), c.valid = true →
    (waitSum (rttyMessage c mark space text) + c.tSwitch * ((rttyMessage c mark space text).countP isSetf - 1) =
      c.tRsettle + (rttyCodes c text).length * (6 * c.tRbit + c.tRstop)) ∧
    (waitSum (pskMessage c mark text) + c.tPswitch * (pskMessage c mark text).countP isInvp =
      c.tPbit * (pskBits c text).length)

/-- The i-th INVP of a PSK31 message (counted from 1) carries i mod 2, and there are as many as zeros in the bits
(44_varicode_psk31.md R251). -/
def Obligations.InvpOperandsAlternate : Prop :=
  ∀ (c : Config) (carrier : Nat) (text : List Byte),
    let ops := invpOperands (pskMessage c carrier text)
    ops.length = (pskBits c text).count false ∧
    (∀ i inv, ops[i]? = some inv → inv = decide ((i + 1) % 2 = 1))

/-- Which codes a character takes, for every admissible pair of tables (43_baudot_rtty.md R211, R212, R216, R217): "E" is
one code after the four Letters-shift codes, "0" to "9" take a Figures shift first. Every letter is one code in Letters
and takes a Letters shift in Figures, and its case does not matter; every other character of the Figures table is one
code in Figures and takes a Figures shift in Letters; a space, an unmapped character or a NUL is SPACE_CODE and LTRS_CODE
in either shift and leaves Letters. That each of the ten digits stands in the Figures table is the model's reading of
R193 (log entry 22). -/
def Obligations.CharacterCodes : Prop :=
  ∀ c : Config, c.valid = true →
    (rttyCodes c [0x45] = List.replicate 4 c.ltrsCode ++ [blookup c .letters 0x45]) ∧
    (∀ k < 10, rttyCodes c [BitVec.ofNat 8 (0x30 + k)] =
      List.replicate 4 c.ltrsCode ++ [c.figsCode, blookup c .figures (BitVec.ofNat 8 (0x30 + k))]) ∧
    (∀ k < 26,
      let letter : Byte := BitVec.ofNat 8 (0x41 + k)
      let code := blookup c .letters letter
      code ≠ 0 ∧ charCodes c .letters letter = ([code], .letters) ∧
      charCodes c .figures letter = ([c.ltrsCode, code], .letters) ∧
      ∀ sh, charCodes c sh (BitVec.ofNat 8 (0x61 + k)) = charCodes c sh letter) ∧
    (∀ ch : Byte, classOf ch = .other → ch ∈ c.baudotFigs → ch ≠ 0 →
      let code := blookup c .figures ch
      code ≠ 0 ∧ charCodes c .figures ch = ([code], .figures) ∧
      charCodes c .letters ch = ([c.figsCode, code], .figures)) ∧
    (∀ (sh : Shift) (ch : Byte), ch = 0x20 ∨ (classOf ch = .other ∧ ch ∉ c.baudotFigs) ∨ ch = 0 →
      charCodes c sh ch = ([c.spaceCode, c.ltrsCode], .letters))

/-- The bits of a PSK31 message decode back to the three NULs and the characters that were sent, for every admissible
table and every gap of at least 2 (44_varicode_psk31.md R252). -/
def Obligations.PskBitsDecodeBack : Prop :=
  ∀ (c : Config) (text : List Byte), c.valid = true →
    receive c (pskBits c text) = [0, 0, 0] ++ text.filter (fun ch => decide (ch.toNat < 128))
end

