-- ==== Sys2Proof/Laws/Check.lean ====
section
/-! SUPPORT. What an admissible configuration meets (00_scope.md R6, R7), one fact a lemma. -/

namespace Sys2Proof.Laws

open Sys2Proof.Machine

@[simp] theorem allTrue_nil : allTrue [] = true := rfl

@[simp] theorem allTrue_cons (b : Bool) (bs : List Bool) : allTrue (b :: bs) = (b && allTrue bs) := rfl

/-- The bit-set check says that no number occurs twice and none is in the set. -/
theorem distinctFrom_iff (seen : Nat) (l : List Nat) :
    distinctFrom seen l = true ↔ l.Nodup ∧ ∀ x ∈ l, seen.testBit x = false := by
  induction l generalizing seen with
  | nil => simp [distinctFrom]
  | cons x l ih =>
    have hbit (y : Nat) : (seen ||| 1 <<< x).testBit y = (seen.testBit y || decide (x = y)) := by
      rw [Nat.testBit_or, Nat.one_shiftLeft, Nat.testBit_two_pow]
    simp only [distinctFrom, Bool.and_eq_true, Bool.not_eq_true', ih, hbit, List.nodup_cons, List.mem_cons,
      Bool.or_eq_false_iff, decide_eq_false_iff_not]
    constructor
    · rintro ⟨h0, hl, h⟩
      refine ⟨⟨fun hx => (h x hx).2 rfl, hl⟩, ?_⟩
      rintro y (rfl | hy)
      · exact h0
      · exact (h y hy).1
    · rintro ⟨⟨hx, hl⟩, h⟩
      exact ⟨h x (.inl rfl), hl, fun y hy => ⟨h y (.inr hy), fun e => hx (e ▸ hy)⟩⟩

/-- The distinctness check of a table. -/
theorem allDistinct_iff {w : Nat} (l : List (BitVec w)) : allDistinct l = true ↔ l.Nodup := by
  rw [allDistinct, distinctFrom_iff]
  simp only [Nat.zero_testBit, implies_true, and_true]
  exact List.nodup_map_iff fun _ _ h => BitVec.eq_of_toNat_eq h

/-- The membership check of a table. -/
theorem holds_iff (t : List Byte) (n : Nat) : holds t n = true ↔ ∃ e ∈ t, e.toNat = n := by
  simp [holds, List.any_eq_true]

/-- The membership check for a byte. -/
theorem holds_byte (t : List Byte) (n : Nat) (h : n < 256) : holds t n = true ↔ BitVec.ofNat 8 n ∈ t := by
  rw [holds_iff]
  constructor
  · rintro ⟨e, he, rfl⟩
    simpa using he
  · intro he
    exact ⟨_, he, by simp [Nat.mod_eq_of_lt h]⟩

/-- The four groups of constraints. -/
theorem valid_iff (c : Config) : c.valid = true ↔
    c.boundsOk = true ∧ c.qtableOk = true ∧ c.baudotOk = true ∧ c.varicodeOk = true := by
  simp [Config.valid]

/-- The bounds of 00_scope.md R6. -/
theorem bounds_of_valid (c : Config) (h : c.valid = true) :
    1 ≤ c.nb ∧ c.nb ≤ 15 ∧ 1 ≤ c.pbDebounce ∧ 1 ≤ c.pushButtonReset ∧ 1 ≤ c.pbRelax ∧ 1 ≤ c.maxLen ∧
    c.maxLen ≤ 4095 ∧ 1 ≤ c.freqW ∧ c.tSwitch < c.tRbit ∧ 3 * c.tRbit ≤ 2 * c.tRstop ∧ c.tPswitch < c.tPbit ∧
    2 ≤ c.nGap := by
  have := ((valid_iff c).1 h).1
  simpa [Config.boundsOk] using this

/-- One Baudot table (43_baudot_rtty.md R192). -/
structure TableFacts (c : Config) (t : List Byte) : Prop where
  length : t.length = 33
  zero : t[0]? = some 0
  figs : t[c.figsCode.toNat]? = some 0
  ltrs : t[c.ltrsCode.toNat]? = some 0
  last : t[32]? = some 0
  nodup : (t.filter (· != 0)).Nodup

/-- Both Baudot tables (43_baudot_rtty.md R192). -/
theorem tableFacts_of_ok (c : Config) (t : List Byte) (h : c.baudotTableOk t = true) : TableFacts c t := by
  simp only [Config.baudotTableOk, allTrue_cons, allTrue_nil, Bool.and_eq_true, beq_iff_eq, Bool.and_true,
    allDistinct_iff] at h
  obtain ⟨hl, h0, hf, hlt, h32, hn⟩ := h
  have key (i : Nat) (hi : t.getD i 1 = 0) : t[i]? = some 0 := by
    rw [List.getD_eq_getElem?_getD] at hi
    cases hq : t[i]? with
    | none => rw [hq] at hi; exact absurd hi (by decide)
    | some v => rw [hq] at hi; exact congrArg some hi
  exact ⟨hl, key _ h0, key _ hf, key _ hlt, key _ h32, hn⟩

/-- The Baudot tables and shift codes (43_baudot_rtty.md R192, R193). -/
structure BaudotFacts (c : Config) : Prop where
  ltrs_ne : c.ltrsCode ≠ 0
  figs_ne : c.figsCode ≠ 0
  codes_ne : c.ltrsCode ≠ c.figsCode
  table : ∀ sel, TableFacts c (c.baudot sel)
  upper : ∀ k < 26, BitVec.ofNat 8 (0x41 + k) ∈ c.baudotLtrs
  e_only : (0x45 : Byte) ∉ c.baudotFigs
  digits : ∀ k < 10, BitVec.ofNat 8 (0x30 + k) ∈ c.baudotFigs ∧ BitVec.ofNat 8 (0x30 + k) ∉ c.baudotLtrs
  space_ltrs : (0x20 : Byte) ∈ c.baudotLtrs
  space_figs : (0x20 : Byte) ∈ c.baudotFigs
  space_same : c.baudotLtrs.idxOf 0x20 = c.baudotFigs.idxOf 0x20
  space_ne : c.baudotLtrs.idxOf 0x20 ≠ 0
  lower : ∀ k < 26, BitVec.ofNat 8 (0x61 + k) ∉ c.baudotLtrs ∧ BitVec.ofNat 8 (0x61 + k) ∉ c.baudotFigs

theorem baudotFacts_of_valid (c : Config) (h : c.valid = true) : BaudotFacts c := by
  have hb := ((valid_iff c).1 h).2.2.1
  simp only [Config.baudotOk, allTrue_cons, allTrue_nil, Bool.and_true, Bool.and_eq_true, bne_iff_ne, ne_eq,
    List.all_eq_true, List.mem_range, Bool.not_eq_true', beq_iff_eq] at hb
  obtain ⟨h1, h2, h3, h4, h5, h6, h7, h8, h9, h10, h11, h12, h13⟩ := hb
  have hn (t : List Byte) (n : Nat) (hlt : n < 256) (hf : holds t n = false) : BitVec.ofNat 8 n ∉ t := fun hm => by
    rw [(holds_byte t n hlt).2 hm] at hf
    cases hf
  exact
    { ltrs_ne := h1
      figs_ne := h2
      codes_ne := h3
      table := fun sel => by cases sel <;> first | exact tableFacts_of_ok c _ h4 | exact tableFacts_of_ok c _ h5
      upper := fun k hk => (holds_byte _ _ (by omega)).1 (h6 k hk)
      e_only := hn _ _ (by decide) h7
      digits := fun k hk => ⟨(holds_byte _ _ (by omega)).1 (h8 k hk).1, hn _ _ (by omega) (h8 k hk).2⟩
      space_ltrs := (holds_byte _ _ (by decide)).1 h9
      space_figs := (holds_byte _ _ (by decide)).1 h10
      space_same := h11
      space_ne := h12
      lower := fun k hk => ⟨hn _ _ (by omega) (h13 k hk).1, hn _ _ (by omega) (h13 k hk).2⟩ }

/-- One Varicode word (44_varicode_psk31.md R232 (b) to (d)). -/
structure WordFacts (w : VWord) : Prop where
  ne_zero : w ≠ 0
  length : bitlen w.toNat ≤ 10
  first : w.getLsbD 0 = true
  no_adjacent_zeros : ∀ k, k + 1 < bitlen w.toNat → w.getLsbD k = true ∨ w.getLsbD (k + 1) = true

theorem wordFacts_of_ok (w : VWord) (h : varicodeWordOk w = true) : WordFacts w := by
  simp only [varicodeWordOk, allTrue_cons, allTrue_nil, Bool.and_true, Bool.and_eq_true, Bool.not_eq_true',
    decide_eq_true_eq] at h
  obtain ⟨h0, hl, hf, hp⟩ := h
  replace hp := Nat.eq_of_beq_eq_true hp
  refine ⟨?_, hl, hf, fun k hk => ?_⟩
  · rintro rfl
    simp at h0
  · have hk' : (2 ^ (bitlen w.toNat - 1) - 1).testBit k = true := by
      rw [Nat.testBit_two_pow_sub_one]
      simp only [decide_eq_true_eq]
      omega
    rw [← hp, Nat.testBit_and, Nat.testBit_or, Nat.testBit_shiftRight, Bool.and_eq_true, Bool.or_eq_true] at hk'
    simpa [BitVec.getLsbD, Nat.add_comm] using hk'.1

/-- VARICODE (44_varicode_psk31.md R232, R233). -/
structure VaricodeFacts (c : Config) : Prop where
  length : c.varicode.length = 128
  word : ∀ w ∈ c.varicode, WordFacts w
  nodup : c.varicode.Nodup
  e_word : c.varicode[0x65]? = some 0x0003

theorem varicodeFacts_of_valid (c : Config) (h : c.valid = true) : VaricodeFacts c := by
  have hb := ((valid_iff c).1 h).2.2.2
  simp only [Config.varicodeOk, allTrue_cons, allTrue_nil, Bool.and_true, Bool.and_eq_true, beq_iff_eq,
    List.all_eq_true, allDistinct_iff] at hb
  obtain ⟨h1, h2, h3, h4⟩ := hb
  refine ⟨h1, fun w hw => wordFacts_of_ok w (h2 w hw), h3, ?_⟩
  rw [List.getD_eq_getElem?_getD] at h4
  have hlt : 0x65 < c.varicode.length := by omega
  rw [List.getElem?_eq_getElem hlt] at h4 ⊢
  exact congrArg some h4

/-- QTABLE (40_quadrature.md R122, R123, R124). -/
structure QtableFacts (c : Config) : Prop where
  length : c.qtable.length = 16
  cw : c.qtable.count .cw = 2
  ccw : c.qtable.count .ccw = 2
  one_step : ∀ p < 4, ∀ q < 4, c.qtAt (4 * p + q) ≠ .zero → p ^^^ q = 1 ∨ p ^^^ q = 2
  antisymmetric : ∀ p < 4, ∀ q < 4, c.qtAt (4 * q + p) = (c.qtAt (4 * p + q)).neg

theorem qtableFacts_of_valid (c : Config) (h : c.valid = true) : QtableFacts c := by
  have hb := ((valid_iff c).1 h).2.1
  simp only [Config.qtableOk, oneStep, allTrue_cons, allTrue_nil, Bool.and_true, Bool.and_eq_true, beq_iff_eq,
    List.all_eq_true, List.mem_range, Bool.or_eq_true] at hb
  obtain ⟨h1, h2, h3, h4⟩ := hb
  exact ⟨h1, h2, h3, fun p hp q hq hne => ((h4 p hp q hq).1).resolve_left hne, fun p hp q hq => (h4 p hp q hq).2⟩

end Sys2Proof.Laws
end

