-- ==== Sys2Proof/Laws/Decode.lean ====
section
/-! SUPPORT. The fields of the two 48-bit formats: what was put together comes apart again (30_encoding.md R95, R100). -/

namespace Sys2Proof.Laws

/-- A bit of a CMD word. -/
theorem getLsbD_cmdWord (op : BitVec 4) (a : BitVec 12) (d : Word32) (n : Nat) :
    (cmdWord op a d).getLsbD n =
      if n < 32 then d.getLsbD n else if n < 44 then a.getLsbD (n - 32) else op.getLsbD (n - 44) := by
  have h : (cmdWord op a d).getLsbD n = (op ++ a ++ d : BitVec (4 + 12 + 32)).getLsbD n := rfl
  rw [h, BitVec.getLsbD_append]
  by_cases h1 : n < 32
  · simp [h1]
  · simp only [h1, if_false]
    rw [BitVec.getLsbD_append]
    by_cases h2 : n < 44
    · simp [h2, show n - 32 < 12 by omega]
    · simp [h2, show ¬ n - 32 < 12 by omega, show n - 32 - 12 = n - 44 by omega]

@[simp] theorem codeField_cmdWord (op : BitVec 4) (a : BitVec 12) (d : Word32) : codeField (cmdWord op a d) = op := by
  ext i hi
  simp only [codeField, BitVec.getElem_extractLsb', getLsbD_cmdWord]
  simp [show ¬ (44 + i < 32) by omega, hi]

@[simp] theorem aField_cmdWord (op : BitVec 4) (a : BitVec 12) (d : Word32) : aField (cmdWord op a d) = a := by
  ext i hi
  simp only [aField, BitVec.getElem_extractLsb', getLsbD_cmdWord]
  simp [show 32 + i < 44 by omega, hi]

@[simp] theorem dField_cmdWord (op : BitVec 4) (a : BitVec 12) (d : Word32) : dField (cmdWord op a d) = d := by
  ext i hi
  simp only [dField, BitVec.getElem_extractLsb', getLsbD_cmdWord]
  simp [hi]

/-- An OUT record has the places of a CMD word. -/
theorem outWord_eq_cmdWord (kind : BitVec 4) (hi : BitVec 12) (lo : Word32) : outWord kind hi lo = cmdWord kind hi lo := rfl

@[simp] theorem codeField_outWord (kind : BitVec 4) (hi : BitVec 12) (lo : Word32) :
    codeField (outWord kind hi lo) = kind := by rw [outWord_eq_cmdWord, codeField_cmdWord]

/-- A bit of the `a` operand of a Baudot lookup (30_encoding.md R96). -/
theorem getLsbD_selOperand (sel : Shift) (low : Byte) (n : Nat) :
    (selOperand sel low).getLsbD n = if n < 8 then low.getLsbD n else (n = 8 && sel.bit) := by
  have h : (selOperand sel low).getLsbD n =
      ((0 : BitVec 3) ++ BitVec.ofBool sel.bit ++ low : BitVec (3 + 1 + 8)).getLsbD n := rfl
  rw [h, BitVec.getLsbD_append, BitVec.getLsbD_append]
  by_cases h1 : n < 8
  · simp [h1]
  · by_cases h2 : n = 8
    · subst h2; simp
    · simp [h1, h2, show ¬ (n - 8 = 0) by omega]

/-- The PIN record of some levels reads back as those levels (30_encoding.md R91). -/
@[simp] theorem decodePin_encodePin (p : Pin) : decodePin (encodePin p) = p := by
  have bit (n : Nat) : (encodePin p).getLsbD n =
      if n < 1 then (BitVec.ofBool p.encB).getLsbD n
      else if n - 1 < 1 then (BitVec.ofBool p.encA).getLsbD (n - 1) else p.btn.getLsbD (n - 1 - 1) := by
    have h : (encodePin p).getLsbD n =
        (p.btn ++ BitVec.ofBool p.encA ++ BitVec.ofBool p.encB : BitVec (15 + 1 + 1)).getLsbD n := rfl
    rw [h, BitVec.getLsbD_append, BitVec.getLsbD_append]
  obtain ⟨a, b, btn⟩ := p
  simp only [decodePin, Pin.mk.injEq]
  refine ⟨by rw [bit]; simp, by rw [bit]; simp, ?_⟩
  ext i hi
  rw [BitVec.getElem_extractLsb', bit]
  simp [show ¬ (2 + i < 1) by omega, hi]

end Sys2Proof.Laws
end

