-- ==== Sys2Proof/Laws/Memory.lean ====
section
/-! SUPPORT. What the operations over TEXT can do: a read after a write, and that every write keeps the canonical form. -/

namespace Sys2Proof.Laws

open Sys2Proof.Machine

@[simp] theorem lookup_nil (a : Nat) : Memory.lookup [] a = none := rfl

/-- A read after a write: the written byte at its address, what was there before at every other. -/
theorem lookup_write (m : Memory) (addr : Nat) (v : Byte) (a : Nat) :
    Memory.lookup (Memory.write m addr v) a = if a = addr then some v else Memory.lookup m a := by
  induction m with
  | nil => simp [Memory.write, Memory.lookup]
  | cons x m ih =>
    obtain ⟨b, w⟩ := x
    simp only [Memory.write]
    split
    · simp [Memory.lookup]
    · split
      · subst_vars
        simp only [Memory.lookup]
        split <;> simp_all
      · simp only [Memory.lookup, ih]
        split
        · rename_i h1 h2 h3
          subst h3
          simp [Ne.symm h2]
        · rfl

@[simp] theorem lookup_write_same (m : Memory) (addr : Nat) (v : Byte) :
    Memory.lookup (Memory.write m addr v) addr = some v := by simp [lookup_write]

theorem lookup_write_other (m : Memory) (addr : Nat) (v : Byte) (a : Nat) (h : a ≠ addr) :
    Memory.lookup (Memory.write m addr v) a = Memory.lookup m a := by simp [lookup_write, h]

/-- The canonical form, one entry at a time. -/
theorem wf_cons (x : Host.Cell) (m : Memory) :
    Memory.wf (x :: m) = true ↔ (∀ y, m.head? = some y → x.1 < y.1) ∧ Memory.wf m = true := by
  cases m <;> simp [Memory.wf]

/-- The first address after a write. -/
theorem head_write (m : Memory) (addr : Nat) (v : Byte) :
    ∃ y, (Memory.write m addr v).head? = some y ∧ (y.1 = addr ∨ m.head? = some y) := by
  cases m with
  | nil => exact ⟨(addr, v), rfl, .inl rfl⟩
  | cons x m =>
    simp only [Memory.write]
    split
    · exact ⟨(addr, v), rfl, .inl rfl⟩
    · split
      · rename_i h
        exact ⟨(x.1, v), rfl, .inl h.symm⟩
      · exact ⟨x, rfl, .inr rfl⟩

/-- Every write keeps the canonical form. -/
theorem wf_write (m : Memory) (addr : Nat) (v : Byte) (h : Memory.wf m = true) :
    Memory.wf (Memory.write m addr v) = true := by
  induction m with
  | nil => rfl
  | cons x m ih =>
    obtain ⟨hx, hm⟩ := (wf_cons x m).1 h
    simp only [Memory.write]
    split
    · rename_i hlt
      exact (wf_cons _ _).2 ⟨by rintro y ⟨⟩; exact hlt, h⟩
    · split
      · exact (wf_cons _ _).2 ⟨hx, hm⟩
      · refine (wf_cons _ _).2 ⟨fun y hy => ?_, ih hm⟩
        obtain ⟨z, hz, hz'⟩ := head_write m addr v
        rw [hz] at hy
        obtain rfl : z = y := Option.some.inj hy
        rcases hz' with hz' | hz'
        · omega
        · exact hx _ hz'

/-- A write adds no address but its own. -/
theorem mem_write (m : Memory) (addr : Nat) (v : Byte) (x : Host.Cell) (h : x ∈ Memory.write m addr v) :
    x = (addr, v) ∨ x ∈ m := by
  induction m with
  | nil => simpa [Memory.write] using h
  | cons y m ih =>
    simp only [Memory.write] at h
    split at h
    · simpa using h
    · split at h
      · simp only [List.mem_cons] at h ⊢
        rcases h with h | h
        · subst_vars; exact .inl rfl
        · exact .inr (.inr h)
      · simp only [List.mem_cons] at h ⊢
        rcases h with h | h
        · exact .inr (.inl h)
        · exact (ih h).imp_right .inr

/-- In the canonical form every listed address lies above the first. -/
theorem wf_lt_of_mem (x : Host.Cell) (m : Memory) (h : Memory.wf (x :: m) = true) (y : Host.Cell) (hy : y ∈ m) :
    x.1 < y.1 := by
  induction m generalizing x with
  | nil => cases hy
  | cons z m ih =>
    obtain ⟨hz, hm⟩ := (wf_cons x (z :: m)).1 h
    rcases List.mem_cons.1 hy with rfl | hy
    · exact hz _ rfl
    · exact Nat.lt_trans (hz _ rfl) (ih z hm hy)

/-- A listed entry is what its address reads as. -/
theorem lookup_of_mem (m : Memory) (h : Memory.wf m = true) (x : Host.Cell) (hx : x ∈ m) :
    Memory.lookup m x.1 = some x.2 := by
  induction m with
  | nil => cases hx
  | cons y m ih =>
    rcases List.mem_cons.1 hx with rfl | hx
    · simp [Memory.lookup]
    · have hlt := wf_lt_of_mem y m h x hx
      have := ih ((wf_cons y m).1 h).2 hx
      simp [Memory.lookup, Nat.ne_of_gt hlt, this]

/-- An address that reads as a byte is listed with it. -/
theorem mem_of_lookup (m : Memory) (a : Nat) (v : Byte) (h : Memory.lookup m a = some v) : (a, v) ∈ m := by
  induction m with
  | nil => cases h
  | cons y m ih =>
    simp only [Memory.lookup] at h
    split at h
    · obtain rfl := Option.some.inj h
      subst_vars
      exact List.mem_cons_self
    · exact List.mem_cons_of_mem _ (ih h)

/-- Equal memories are equal data: two canonical memories that read the same at every address are one list. -/
theorem eq_of_lookup_eq (m n : Memory) (hm : Memory.wf m = true) (hn : Memory.wf n = true)
    (h : ∀ a, Memory.lookup m a = Memory.lookup n a) : m = n := by
  induction m generalizing n with
  | nil =>
    cases n with
    | nil => rfl
    | cons y n =>
      have := h y.1
      rw [lookup_of_mem _ hn y List.mem_cons_self] at this
      cases this
  | cons x m ih =>
    cases n with
    | nil =>
      have := h x.1
      rw [lookup_of_mem _ hm x List.mem_cons_self] at this
      cases this
    | cons y n =>
      have hxy : x = y := by
        have h1 := mem_of_lookup (y :: n) x.1 x.2 ((h x.1).symm.trans (lookup_of_mem _ hm x List.mem_cons_self))
        have h2 := mem_of_lookup (x :: m) y.1 y.2 ((h y.1).trans (lookup_of_mem _ hn y List.mem_cons_self))
        rcases List.mem_cons.1 h1 with h1 | h1
        · exact h1
        · rcases List.mem_cons.1 h2 with h2 | h2
          · exact h2.symm
          · have := wf_lt_of_mem _ _ hn _ h1
            have := wf_lt_of_mem _ _ hm _ h2
            simp at *
            omega
      subst hxy
      refine congrArg (x :: ·) (ih n ((wf_cons x m).1 hm).2 ((wf_cons x n).1 hn).2 fun a => ?_)
      by_cases ha : a = x.1
      · subst ha
        have none_of (k : Memory) (hk : Memory.wf (x :: k) = true) : Memory.lookup k x.1 = none := by
          cases hl : Memory.lookup k x.1 with
          | none => rfl
          | some v => exact absurd (wf_lt_of_mem x k hk _ (mem_of_lookup k x.1 v hl)) (by simp)
        rw [none_of m hm, none_of n hn]
      · have := h a
        simpa [Memory.lookup, ha] using this

end Sys2Proof.Laws
end

