-- ==== Sys2Proof/Laws/State.lean ====
section
/-! SUPPORT. The small lemmas of State: each field after each named update. -/

namespace Sys2Proof.Laws

open Sys2Proof.Machine

/-! ## emit: only TRACE grows (45_synth_port.md R260) -/

@[simp] theorem emit_hist (s : State) (e : Event) : (emit s e).hist = s.hist := rfl
@[simp] theorem emit_btn (s : State) (e : Event) : (emit s e).btn = s.btn := rfl
@[simp] theorem emit_evflags (s : State) (e : Event) : (emit s e).evflags = s.evflags := rfl
@[simp] theorem emit_mode (s : State) (e : Event) : (emit s e).mode = s.mode := rfl
@[simp] theorem emit_idx (s : State) (e : Event) : (emit s e).idx = s.idx := rfl
@[simp] theorem emit_nlen (s : State) (e : Event) : (emit s e).nlen = s.nlen := rfl
@[simp] theorem emit_fmark (s : State) (e : Event) : (emit s e).fmark = s.fmark := rfl
@[simp] theorem emit_fspace (s : State) (e : Event) : (emit s e).fspace = s.fspace := rfl
@[simp] theorem emit_shiftst (s : State) (e : Event) : (emit s e).shiftst = s.shiftst := rfl
@[simp] theorem emit_tone (s : State) (e : Event) : (emit s e).tone = s.tone := rfl
@[simp] theorem emit_phase (s : State) (e : Event) : (emit s e).phase = s.phase := rfl
@[simp] theorem emit_text (s : State) (e : Event) : (emit s e).text = s.text := rfl
@[simp] theorem emit_trace (s : State) (e : Event) : (emit s e).trace = s.trace ++ [e] := rfl
@[simp] theorem emit_todo (s : State) (e : Event) : (emit s e).todo = s.todo := rfl
@[simp] theorem emit_cfg (s : State) (e : Event) : (emit s e).cfg = s.cfg := rfl
@[simp] theorem emit_inputs (s : State) (e : Event) : (emit s e).inputs = s.inputs := rfl
@[simp] theorem emit_res (s : State) (e : Event) : (emit s e).res = s.res := rfl
@[simp] theorem emit_sub (s : State) (e : Event) : (emit s e).sub = s.sub := rfl
@[simp] theorem emit_powerUps (s : State) (e : Event) : (emit s e).powerUps = s.powerUps := rfl

/-! ## writeText: only TEXT changes (46_host_port.md R281) -/

@[simp] theorem writeText_hist (s : State) (a : Nat) (v : Byte) : (writeText s a v).hist = s.hist := by
  unfold writeText; split <;> rfl
@[simp] theorem writeText_btn (s : State) (a : Nat) (v : Byte) : (writeText s a v).btn = s.btn := by
  unfold writeText; split <;> rfl
@[simp] theorem writeText_evflags (s : State) (a : Nat) (v : Byte) : (writeText s a v).evflags = s.evflags := by
  unfold writeText; split <;> rfl
@[simp] theorem writeText_mode (s : State) (a : Nat) (v : Byte) : (writeText s a v).mode = s.mode := by
  unfold writeText; split <;> rfl
@[simp] theorem writeText_idx (s : State) (a : Nat) (v : Byte) : (writeText s a v).idx = s.idx := by
  unfold writeText; split <;> rfl
@[simp] theorem writeText_nlen (s : State) (a : Nat) (v : Byte) : (writeText s a v).nlen = s.nlen := by
  unfold writeText; split <;> rfl
@[simp] theorem writeText_fmark (s : State) (a : Nat) (v : Byte) : (writeText s a v).fmark = s.fmark := by
  unfold writeText; split <;> rfl
@[simp] theorem writeText_fspace (s : State) (a : Nat) (v : Byte) : (writeText s a v).fspace = s.fspace := by
  unfold writeText; split <;> rfl
@[simp] theorem writeText_shiftst (s : State) (a : Nat) (v : Byte) : (writeText s a v).shiftst = s.shiftst := by
  unfold writeText; split <;> rfl
@[simp] theorem writeText_tone (s : State) (a : Nat) (v : Byte) : (writeText s a v).tone = s.tone := by
  unfold writeText; split <;> rfl
@[simp] theorem writeText_phase (s : State) (a : Nat) (v : Byte) : (writeText s a v).phase = s.phase := by
  unfold writeText; split <;> rfl
@[simp] theorem writeText_trace (s : State) (a : Nat) (v : Byte) : (writeText s a v).trace = s.trace := by
  unfold writeText; split <;> rfl
@[simp] theorem writeText_todo (s : State) (a : Nat) (v : Byte) : (writeText s a v).todo = s.todo := by
  unfold writeText; split <;> rfl
@[simp] theorem writeText_cfg (s : State) (a : Nat) (v : Byte) : (writeText s a v).cfg = s.cfg := by
  unfold writeText; split <;> rfl
@[simp] theorem writeText_inputs (s : State) (a : Nat) (v : Byte) : (writeText s a v).inputs = s.inputs := by
  unfold writeText; split <;> rfl
@[simp] theorem writeText_res (s : State) (a : Nat) (v : Byte) : (writeText s a v).res = s.res := by
  unfold writeText; split <;> rfl
@[simp] theorem writeText_sub (s : State) (a : Nat) (v : Byte) : (writeText s a v).sub = s.sub := by
  unfold writeText; split <;> rfl
@[simp] theorem writeText_powerUps (s : State) (a : Nat) (v : Byte) : (writeText s a v).powerUps = s.powerUps := by
  unfold writeText; split <;> rfl

/-! ## onButton: only BTN changes (41_button.md R152, R153) -/

@[simp] theorem onButton_hist (s : State) (b : Nat) (g : Button → Button) : (onButton s b g).hist = s.hist := by
  unfold onButton; split <;> rfl
@[simp] theorem onButton_evflags (s : State) (b : Nat) (g : Button → Button) : (onButton s b g).evflags = s.evflags := by
  unfold onButton; split <;> rfl
@[simp] theorem onButton_mode (s : State) (b : Nat) (g : Button → Button) : (onButton s b g).mode = s.mode := by
  unfold onButton; split <;> rfl
@[simp] theorem onButton_idx (s : State) (b : Nat) (g : Button → Button) : (onButton s b g).idx = s.idx := by
  unfold onButton; split <;> rfl
@[simp] theorem onButton_nlen (s : State) (b : Nat) (g : Button → Button) : (onButton s b g).nlen = s.nlen := by
  unfold onButton; split <;> rfl
@[simp] theorem onButton_fmark (s : State) (b : Nat) (g : Button → Button) : (onButton s b g).fmark = s.fmark := by
  unfold onButton; split <;> rfl
@[simp] theorem onButton_fspace (s : State) (b : Nat) (g : Button → Button) : (onButton s b g).fspace = s.fspace := by
  unfold onButton; split <;> rfl
@[simp] theorem onButton_shiftst (s : State) (b : Nat) (g : Button → Button) : (onButton s b g).shiftst = s.shiftst := by
  unfold onButton; split <;> rfl
@[simp] theorem onButton_tone (s : State) (b : Nat) (g : Button → Button) : (onButton s b g).tone = s.tone := by
  unfold onButton; split <;> rfl
@[simp] theorem onButton_phase (s : State) (b : Nat) (g : Button → Button) : (onButton s b g).phase = s.phase := by
  unfold onButton; split <;> rfl
@[simp] theorem onButton_text (s : State) (b : Nat) (g : Button → Button) : (onButton s b g).text = s.text := by
  unfold onButton; split <;> rfl
@[simp] theorem onButton_trace (s : State) (b : Nat) (g : Button → Button) : (onButton s b g).trace = s.trace := by
  unfold onButton; split <;> rfl
@[simp] theorem onButton_todo (s : State) (b : Nat) (g : Button → Button) : (onButton s b g).todo = s.todo := by
  unfold onButton; split <;> rfl
@[simp] theorem onButton_cfg (s : State) (b : Nat) (g : Button → Button) : (onButton s b g).cfg = s.cfg := by
  unfold onButton; split <;> rfl
@[simp] theorem onButton_inputs (s : State) (b : Nat) (g : Button → Button) : (onButton s b g).inputs = s.inputs := by
  unfold onButton; split <;> rfl
@[simp] theorem onButton_res (s : State) (b : Nat) (g : Button → Button) : (onButton s b g).res = s.res := by
  unfold onButton; split <;> rfl
@[simp] theorem onButton_sub (s : State) (b : Nat) (g : Button → Button) : (onButton s b g).sub = s.sub := by
  unfold onButton; split <;> rfl
@[simp] theorem onButton_powerUps (s : State) (b : Nat) (g : Button → Button) : (onButton s b g).powerUps = s.powerUps := by
  unfold onButton; split <;> rfl

/-! ## afterReset: the reset values (70_reset_and_hazards.md R320) -/

@[simp] theorem afterReset_hist (c : Config) (n : Nat) : (State.afterReset c n).hist = c.histReset := rfl
@[simp] theorem afterReset_btn (c : Config) (n : Nat) : (State.afterReset c n).btn = (List.range c.nb).map (Button.afterReset c) := rfl
@[simp] theorem afterReset_evflags (c : Config) (n : Nat) : (State.afterReset c n).evflags = 0 := rfl
@[simp] theorem afterReset_mode (c : Config) (n : Nat) : (State.afterReset c n).mode = .idle := rfl
@[simp] theorem afterReset_idx (c : Config) (n : Nat) : (State.afterReset c n).idx = 0 := rfl
@[simp] theorem afterReset_nlen (c : Config) (n : Nat) : (State.afterReset c n).nlen = 0 := rfl
@[simp] theorem afterReset_fmark (c : Config) (n : Nat) : (State.afterReset c n).fmark = 0 := rfl
@[simp] theorem afterReset_fspace (c : Config) (n : Nat) : (State.afterReset c n).fspace = 0 := rfl
@[simp] theorem afterReset_shiftst (c : Config) (n : Nat) : (State.afterReset c n).shiftst = .letters := rfl
@[simp] theorem afterReset_tone (c : Config) (n : Nat) : (State.afterReset c n).tone = true := rfl
@[simp] theorem afterReset_phase (c : Config) (n : Nat) : (State.afterReset c n).phase = false := rfl
@[simp] theorem afterReset_text (c : Config) (n : Nat) : (State.afterReset c n).text = [] := rfl
@[simp] theorem afterReset_trace (c : Config) (n : Nat) : (State.afterReset c n).trace = [] := rfl
@[simp] theorem afterReset_todo (c : Config) (n : Nat) : (State.afterReset c n).todo = [] := rfl
@[simp] theorem afterReset_cfg (c : Config) (n : Nat) : (State.afterReset c n).cfg = c := rfl
@[simp] theorem afterReset_inputs (c : Config) (n : Nat) : (State.afterReset c n).inputs = [] := rfl
@[simp] theorem afterReset_res (c : Config) (n : Nat) : (State.afterReset c n).res = none := rfl
@[simp] theorem afterReset_sub (c : Config) (n : Nat) : (State.afterReset c n).sub = none := rfl
@[simp] theorem afterReset_powerUps (c : Config) (n : Nat) : (State.afterReset c n).powerUps = n := rfl

end Sys2Proof.Laws
end

