-- ==== Sys2Proof/Laws/Ops.lean ====
section
/-! SUPPORT. What each shared operation can do, said once. -/

namespace Sys2Proof.Laws

open Sys2Proof.Machine

@[simp] theorem whenIdle_idle (s : State) (k : Host.Outcome State Fault Refusal) (h : s.mode = .idle) :
    whenIdle s k = k := by simp [whenIdle, h]

@[simp] theorem whenIdle_busy (s : State) (k : Host.Outcome State Fault Refusal) (h : s.mode ≠ .idle) :
    whenIdle s k = .next s := by simp [whenIdle, h]

/-- A host operation that answers a next state either waited or did its work (46_host_port.md R283). -/
theorem whenIdle_next (s t : State) (k : Host.Outcome State Fault Refusal) (h : whenIdle s k = .next t) :
    (s.mode = .idle ∧ k = .next t) ∨ (s.mode ≠ .idle ∧ t = s) := by
  unfold whenIdle at h
  split at h
  · exact .inl ⟨‹_›, h⟩
  · exact .inr ⟨‹_›, by cases h; rfl⟩

/-- A host operation that ends answers the state it left, with its result. -/
theorem finish_eq (s : State) (r : Option Word32) : finish s r = .next { s with res := r } := rfl

/-- The range check of a frequency (30_encoding.md R102). -/
theorem hertzFits_iff (c : Config) (f : Int) : hertzFits c f = true ↔ 0 ≤ f ∧ f < 2 ^ c.freqW := by simp [hertzFits]

/-- The byte of TEXT after a TXWR's write. -/
theorem textAt_writeText (s : State) (addr : Nat) (v : Byte) (h : addr < s.cfg.maxLen) (a : Nat) :
    (writeText s addr v).textAt a = if a = addr then v else s.textAt a := by
  simp only [writeText, h, if_true, State.textAt, lookup_write]
  split <;> rfl

/-- A write at or above MAXLEN changes nothing (20_memory.md R69). -/
theorem writeText_outside (s : State) (addr : Nat) (v : Byte) (h : s.cfg.maxLen ≤ addr) : writeText s addr v = s := by
  simp [writeText, Nat.not_lt.2 h]

/-- TEXT as data after a TXWR's write. -/
theorem writeText_text (s : State) (addr : Nat) (v : Byte) :
    (writeText s addr v).text = if addr < s.cfg.maxLen then Memory.write s.text addr v else s.text := by
  unfold writeText
  split <;> rfl

/-- A read of TEXT gives its byte inside the space, and faults outside (20_memory.md R63). -/
theorem readText_inside (s : State) (a : Nat) (h : a < s.cfg.maxLen) : readText s a = .ok (s.textAt a) := by
  simp [readText, h]

/-- The records after a change of one button: an existing one changed, the others as before. -/
theorem onButton_getElem? (s : State) (b : Nat) (f : Button → Button) (j : Nat) :
    (onButton s b f).btn[j]? = if j = b ∧ j < s.cfg.nb then (s.btn[j]?).map f else s.btn[j]? := by
  unfold onButton
  split
  · rename_i h
    simp only [List.getElem?_modify]
    by_cases hj : j = b
    · subst hj; simp [h]
    · simp [hj, Ne.symm hj]
  · rename_i h
    by_cases hj : j = b
    · subst hj; simp [h]
    · simp [hj]

@[simp] theorem onButton_length (s : State) (b : Nat) (f : Button → Button) :
    (onButton s b f).btn.length = s.btn.length := by
  unfold onButton
  split <;> simp

/-- Every record after a change of one button is an old one or the changed one. -/
theorem mem_onButton (s : State) (b : Nat) (f : Button → Button) (B : Button) (h : B ∈ (onButton s b f).btn) :
    B ∈ s.btn ∨ ∃ B0 ∈ s.btn, B = f B0 := by
  obtain ⟨j, hj⟩ := List.mem_iff_getElem?.1 h
  rw [onButton_getElem?] at hj
  split at hj
  · obtain ⟨B0, h0, rfl⟩ := Option.map_eq_some_iff.1 hj
    exact .inr ⟨B0, List.mem_of_getElem? h0, rfl⟩
  · exact .inl (List.mem_of_getElem? hj)

end Sys2Proof.Laws
end

