-- ==== Sys2Proof/Laws/Encoder.lean ====
section
/-! SUPPORT. What the encoder agent's operations can do, said once: their frames, their effect on the position, and that
they do not look at the input side of the block. -/

namespace Sys2Proof.Laws

open Sys2Proof.Machine

/-! ## runWrites -/

@[simp] theorem runWrites_nil (s : State) : runWrites [] s = ({ s with todo := [] }, none) := rfl

@[simp] theorem runWrites_setShift (v : Shift) (ts : List Task) (s : State) :
    runWrites (.setShift v :: ts) s = runWrites ts { s with shiftst := v } := rfl

@[simp] theorem runWrites_nextChar (ts : List Task) (s : State) :
    runWrites (.nextChar :: ts) s = runWrites ts { s with idx := s.idx + 1 } := rfl

@[simp] theorem runWrites_act (a : Act) (ts : List Task) (s : State) :
    runWrites (.act a :: ts) s = ({ s with todo := ts }, some a) := rfl

/-- The register writes of a position touch SHIFTST, IDX and the position only. -/
theorem runWrites_frame (ts : List Task) (s : State) :
    (runWrites ts s).1 =
      { s with shiftst := (runWrites ts s).1.shiftst, idx := (runWrites ts s).1.idx,
               todo := (runWrites ts s).1.todo } := by
  induction ts generalizing s with
  | nil => rfl
  | cons t ts ih =>
    cases t with
    | act a => rfl
    | setShift v => rw [runWrites_setShift, ih]
    | nextChar => rw [runWrites_nextChar, ih]

/-- The register writes of a position, by the outcome. -/
theorem runWrites_eq_frame (ts : List Task) (s s' : State) (o : Option Act) (h : runWrites ts s = (s', o)) :
    s' = { s with shiftst := s'.shiftst, idx := s'.idx, todo := s'.todo } := by
  have hf := runWrites_frame ts s
  rwa [h] at hf

/-- What runWrites takes off: either the whole list was register writes, or the first act and the tasks after it. -/
theorem runWrites_cases (ts : List Task) (s : State) :
    ((runWrites ts s).2 = none ∧ (runWrites ts s).1.todo = [] ∧ ∀ a, Task.act a ∉ ts) ∨
    (∃ a front, (runWrites ts s).2 = some a ∧ ts = front ++ .act a :: (runWrites ts s).1.todo) := by
  induction ts generalizing s with
  | nil => simp
  | cons t ts ih =>
    cases t with
    | act a => exact .inr ⟨a, [], rfl, rfl⟩
    | setShift v =>
      rw [runWrites_setShift]
      rcases ih { s with shiftst := v } with ⟨h1, h2, h3⟩ | ⟨a, front, h1, h2⟩
      · exact .inl ⟨h1, h2, fun a h => h3 a (by simpa using h)⟩
      · exact .inr ⟨a, .setShift v :: front, h1, congrArg (Task.setShift v :: ·) h2⟩
    | nextChar =>
      rw [runWrites_nextChar]
      rcases ih { s with idx := s.idx + 1 } with ⟨h1, h2, h3⟩ | ⟨a, front, h1, h2⟩
      · exact .inl ⟨h1, h2, fun a h => h3 a (by simpa using h)⟩
      · exact .inr ⟨a, .nextChar :: front, h1, congrArg (Task.nextChar :: ·) h2⟩

/-! ## fire -/

/-- An act touches TONE, PHASE and the position only. -/
theorem fire_frame (a : Act) (s : State) :
    (fire a s).2 = { s with tone := (fire a s).2.tone, phase := (fire a s).2.phase, todo := (fire a s).2.todo } := by
  cases a with
  | rttyCarrier => rfl
  | pskCarrier => rfl
  | hold d => rfl
  | elem tone t => simp only [fire]; split <;> rfl
  | slot bit => simp only [fire]; split <;> rfl

/-! ## runLoop -/

@[simp] theorem runLoop_zero (s : State) : runLoop 0 s = .ok (s, none) := rfl

/-- The loop touches SHIFTST, IDX and the position only. -/
theorem runLoop_frame (n : Nat) (s s' : State) (o : Option Act) (h : runLoop n s = .ok (s', o)) :
    s' = { s with shiftst := s'.shiftst, idx := s'.idx, todo := s'.todo } := by
  induction n generalizing s with
  | zero => cases h; rfl
  | succ n ih =>
    simp only [runLoop] at h
    split at h
    · cases h
    · rename_i ch _
      split at h
      · rename_i s1 a hr
        cases h
        exact runWrites_eq_frame _ _ _ _ hr
      · rename_i s1 hr
        exact (ih s1 h).trans (congrArg
          (fun x : State => { x with shiftst := s'.shiftst, idx := s'.idx, todo := s'.todo })
          (runWrites_eq_frame _ _ _ _ hr))

/-! ## encoderNext -/

@[simp] theorem encoderNext_idle (s : State) (h : s.mode = .idle) : encoderNext s = .ok none := by
  simp [encoderNext, h]

/-- What the encoder agent's next step is, if it has one: an act's record from the position left after the register
writes of the loop, or DISO with `MODE <- IDLE`. -/
theorem encoderNext_cases (s t : State) (i : Instr) (h : encoderNext s = .ok (some (i, t))) :
    s.mode ≠ .idle ∧ ∃ s', s' = { s with shiftst := s'.shiftst, idx := s'.idx, todo := s'.todo } ∧
      ((∃ a, fire a s' = (i, t)) ∨ (i = .diso ∧ t = { s' with mode := .idle })) := by
  unfold encoderNext at h
  split at h
  · cases h
  · rename_i hm
    refine ⟨hm, ?_⟩
    split at h
    · rename_i s1 a hr
      have hf := runWrites_eq_frame _ _ _ _ hr
      simp only [Except.ok.injEq, Option.some.injEq] at h
      exact ⟨s1, hf, .inl ⟨a, h⟩⟩
    · rename_i s1 hr
      have hf := runWrites_eq_frame _ _ _ _ hr
      split at h
      · cases h
      · rename_i s2 a hl
        have hg := runLoop_frame _ _ _ _ hl
        simp only [Except.ok.injEq, Option.some.injEq] at h
        exact ⟨s2, by refine hg.trans ?_; rw [hf], .inl ⟨a, h⟩⟩
      · rename_i s2 hl
        have hg := runLoop_frame _ _ _ _ hl
        simp only [Except.ok.injEq, Option.some.injEq, Prod.mk.injEq] at h
        exact ⟨s2, by refine hg.trans ?_; rw [hf], .inr ⟨h.1.symm, h.2.symm⟩⟩

/-- The encoder agent writes only its own registers (60_exceptions.md R310). -/
theorem encoderNext_frame (s t : State) (i : Instr) (h : encoderNext s = .ok (some (i, t))) :
    t = { s with shiftst := t.shiftst, idx := t.idx, todo := t.todo, tone := t.tone, phase := t.phase, mode := t.mode } := by
  obtain ⟨_, s', hs, ⟨a, ha⟩ | ⟨_, ht⟩⟩ := encoderNext_cases s t i h
  · have hf : t = { s' with tone := t.tone, phase := t.phase, todo := t.todo } := by
      have := fire_frame a s'
      rwa [ha] at this
    cases s; cases s'; cases t
    simp_all
  · cases s; cases s'; cases t
    simp_all

/-! ## The input side -/

/-- The state with another input side: HIST, BTN, EVFLAGS and what has yet to arrive. -/
def withInputSide (s : State) (h : BitVec 4) (bs : List Button) (e : Word32) (ins : List Input) : State :=
  { s with hist := h, btn := bs, evflags := e, inputs := ins }

variable (h : BitVec 4) (bs : List Button) (e : Word32) (ins : List Input)

theorem runWrites_withInputSide (ts : List Task) (s : State) :
    runWrites ts (withInputSide s h bs e ins) =
      (withInputSide (runWrites ts s).1 h bs e ins, (runWrites ts s).2) := by
  induction ts generalizing s with
  | nil => rfl
  | cons t ts ih =>
    cases t with
    | act a => rfl
    | setShift v => exact ih { s with shiftst := v }
    | nextChar => exact ih { s with idx := s.idx + 1 }

theorem fire_withInputSide (a : Act) (s : State) :
    fire a (withInputSide s h bs e ins) = ((fire a s).1, withInputSide (fire a s).2 h bs e ins) := by
  cases a with
  | rttyCarrier => rfl
  | pskCarrier => rfl
  | hold d => rfl
  | elem tone t =>
    by_cases ht : tone = s.tone <;> simp [fire, withInputSide, ht]
  | slot bit => cases bit <;> rfl

theorem runLoop_withInputSide (n : Nat) (s : State) :
    runLoop n (withInputSide s h bs e ins) =
      (runLoop n s).map (fun r => (withInputSide r.1 h bs e ins, r.2)) := by
  induction n generalizing s with
  | zero => rfl
  | succ n ih =>
    have hr : readText (withInputSide s h bs e ins) (withInputSide s h bs e ins).idx = readText s s.idx := rfl
    simp only [runLoop, hr]
    cases readText s s.idx with
    | error f => rfl
    | ok ch =>
      have hc : charTasks (withInputSide s h bs e ins) ch = charTasks s ch := rfl
      simp only [hc, runWrites_withInputSide]
      generalize runWrites (charTasks s ch ++ [.nextChar]) s = r
      obtain ⟨s1, o⟩ := r
      cases o with
      | none => exact ih s1
      | some a => rfl

/-- The encoder agent reads none of the input side (40_quadrature.md R131). -/
theorem encoderNext_withInputSide (s : State) :
    encoderNext (withInputSide s h bs e ins) =
      (encoderNext s).map (Option.map (fun r => (r.1, withInputSide r.2 h bs e ins))) := by
  unfold encoderNext
  have hm : (withInputSide s h bs e ins).mode = s.mode := rfl
  have ht : (withInputSide s h bs e ins).todo = s.todo := rfl
  rw [hm, ht]
  split
  · rfl
  · rw [runWrites_withInputSide]
    generalize runWrites s.todo s = r
    obtain ⟨s1, o⟩ := r
    cases o with
    | some a => exact congrArg (fun x => Except.ok (some x)) (fire_withInputSide h bs e ins a s1)
    | none =>
      have hk : (withInputSide s1 h bs e ins).nlen - (withInputSide s1 h bs e ins).idx = s1.nlen - s1.idx := rfl
      simp only [hk, runLoop_withInputSide]
      generalize runLoop (s1.nlen - s1.idx) s1 = l
      cases l with
      | error f => rfl
      | ok r =>
        obtain ⟨s2, o⟩ := r
        cases o with
        | none => rfl
        | some a => exact congrArg (fun x => Except.ok (some x)) (fire_withInputSide h bs e ins a s2)

end Sys2Proof.Laws
end

