-- ==== Sys2Proof/Laws/Flags.lean ====
section
/-! SUPPORT. The flag computations, bit by bit (10_state.md R29). -/

namespace Sys2Proof.Laws

open Sys2Proof.Machine

/-- The bits of the register are those below 2 + 2 x NB. -/
theorem getLsbD_flagMask (nb n : Nat) :
    (flagMask nb).getLsbD n = (decide (n < 32) && decide (n < 2 + 2 * nb)) := by
  simp [flagMask, BitVec.getLsbD_ofNat, Nat.testBit_two_pow_sub_one]

/-- A flag FRD and FXCHG return (42_event_flags.md R174). -/
theorem getLsbD_readFlags (nb : Nat) (ev : Word32) (n : Nat) :
    (readFlags nb ev).getLsbD n = (ev.getLsbD n && decide (n < 2 + 2 * nb)) := by
  by_cases h : n < 32
  · simp only [readFlags, BitVec.getLsbD_and, getLsbD_flagMask, h, decide_true, Bool.true_and]
  · simp only [readFlags, BitVec.getLsbD_and, BitVec.getLsbD_of_ge ev n (by omega), Bool.false_and]

/-- A flag FCLR and FXCHG leave (42_event_flags.md R175, R176). -/
theorem getLsbD_clearFlags (nb : Nat) (ev mask : Word32) (n : Nat) :
    (clearFlags nb ev mask).getLsbD n = (ev.getLsbD n && !(mask.getLsbD n && decide (n < 2 + 2 * nb))) := by
  by_cases h : n < 32
  · simp only [clearFlags, BitVec.getLsbD_and, BitVec.getLsbD_not, getLsbD_flagMask, h, decide_true, Bool.true_and]
  · simp only [clearFlags, BitVec.getLsbD_and, BitVec.getLsbD_of_ge ev n (by omega), Bool.false_and]

/-- One flag of the word. -/
theorem getLsbD_flagBit (k n : Nat) : (flagBit k).getLsbD n = (decide (n < 32) && decide (n = k)) := by
  simp only [flagBit, BitVec.getLsbD_twoPow]
  by_cases h : n = k
  · subst h; simp
  · simp [h, Ne.symm h]

/-- The flags a rotation sets (42_event_flags.md R172). -/
theorem getLsbD_rotationFlags (d : Delta) (n : Nat) :
    (rotationFlags d).getLsbD n = true ↔ (n = 0 ∧ d = .cw) ∨ (n = 1 ∧ d = .ccw) := by
  cases d <;> simp [rotationFlags, getLsbD_flagBit, rotCwBit, rotCcwBit] <;> omega

/-- The flags a button's result sets, for a button of the word (42_event_flags.md R172). -/
theorem getLsbD_pressFlags (b : Nat) (p : Press) (n : Nat) (h : b < 15) :
    (pressFlags b p).getLsbD n = true ↔ (n = 2 + 2 * b ∧ p.pressed = true) ∨ (n = 3 + 2 * b ∧ p.lpr = true) := by
  obtain ⟨pr, l⟩ := p
  cases pr <;> cases l <;> simp [pressFlags, getLsbD_flagBit, pushedBit, lprBit] <;> omega

end Sys2Proof.Laws
end

