-- ==== Sys2Proof/Laws/PerInstr.lean ====
section
/-! SUPPORT. Laws over all instructions, one lemma per constructor. -/

namespace Sys2Proof.Laws

/-- The port an instruction passes and the code of its row of spec/opcode_table.json (30_encoding.md R96, R100); none for
the operations that no code selects (R106). -/
def tableCode : Instr → Option (Port × BitVec 4)
  | .tick _ => none
  | .qpoll _ => none
  | .bpoll _ _ => none
  | .ben _ => some (.host, 0x1)
  | .bdis _ => some (.host, 0x2)
  | .frd => some (.host, 0x3)
  | .fclr _ => some (.host, 0x4)
  | .fxchg _ => some (.host, 0x5)
  | .blkup _ _ => some (.host, 0x6)
  | .brev _ _ => some (.host, 0x7)
  | .sendr _ _ => some (.host, 0x8)
  | .vlkup _ => some (.host, 0x9)
  | .vrev _ => some (.host, 0xA)
  | .sendp _ _ => some (.host, 0xB)
  | .txwr _ _ => some (.host, 0xC)
  | .init => some (.host, 0xD)
  | .setf _ _ _ _ => some (.synth, 0x1)
  | .invp _ _ => some (.synth, 0x2)
  | .diso => some (.synth, 0x3)
  | .wait _ => some (.synth, 0x4)

/-- The encoder puts the code of the instruction's row in bits 47:44, on the row's port; an instruction without a code is
no 48-bit word. -/
def OpcodeField.Statement (i : Instr) : Prop :=
  (∀ port code, tableCode i = some (port, code) → ∃ w, encode i = some (port, w) ∧ codeField w = code) ∧
  (tableCode i = none → ∀ port w, encode i = some (port, w) → port = .pins)

/-- A word of a row with a code. -/
theorem opcodeField_of_word (i : Instr) (port : Port) (code : BitVec 4) (w : Word48) (ht : tableCode i = some (port, code))
    (he : encode i = some (port, w)) (hc : codeField w = code) : OpcodeField.Statement i := by
  refine ⟨fun p k h => ?_, fun h => ?_⟩
  · rw [ht] at h
    cases h
    exact ⟨w, he, hc⟩
  · rw [ht] at h
    cases h

theorem OpcodeField.tick (pin : Pin) : OpcodeField.Statement (.tick pin) :=
  ⟨fun _ _ h => (by cases h), fun _ _ _ h => (by cases h; rfl)⟩

theorem OpcodeField.qpoll (ab : BitVec 2) : OpcodeField.Statement (.qpoll ab) :=
  ⟨fun _ _ h => (by cases h), fun _ _ _ h => (by cases h)⟩

theorem OpcodeField.bpoll (b : BitVec 4) (raw : Bool) : OpcodeField.Statement (.bpoll b raw) :=
  ⟨fun _ _ h => (by cases h), fun _ _ _ h => (by cases h)⟩

theorem OpcodeField.ben (b : BitVec 4) : OpcodeField.Statement (.ben b) :=
  opcodeField_of_word _ _ _ _ rfl rfl (codeField_cmdWord _ _ _)

theorem OpcodeField.bdis (b : BitVec 4) : OpcodeField.Statement (.bdis b) :=
  opcodeField_of_word _ _ _ _ rfl rfl (codeField_cmdWord _ _ _)

theorem OpcodeField.frd : OpcodeField.Statement .frd :=
  opcodeField_of_word _ _ _ _ rfl rfl (codeField_cmdWord _ _ _)

theorem OpcodeField.fclr (mask : Word32) : OpcodeField.Statement (.fclr mask) :=
  opcodeField_of_word _ _ _ _ rfl rfl (codeField_cmdWord _ _ _)

theorem OpcodeField.fxchg (mask : Word32) : OpcodeField.Statement (.fxchg mask) :=
  opcodeField_of_word _ _ _ _ rfl rfl (codeField_cmdWord _ _ _)

theorem OpcodeField.blkup (sel : Shift) (ch : Byte) : OpcodeField.Statement (.blkup sel ch) :=
  opcodeField_of_word _ _ _ _ rfl rfl (codeField_cmdWord _ _ _)

theorem OpcodeField.brev (sel : Shift) (code : BitVec 5) : OpcodeField.Statement (.brev sel code) :=
  opcodeField_of_word _ _ _ _ rfl rfl (codeField_cmdWord _ _ _)

theorem OpcodeField.sendr (len : BitVec 12) (base : Word32) : OpcodeField.Statement (.sendr len base) :=
  opcodeField_of_word _ _ _ _ rfl rfl (codeField_cmdWord _ _ _)

theorem OpcodeField.vlkup (ch : Byte) : OpcodeField.Statement (.vlkup ch) :=
  opcodeField_of_word _ _ _ _ rfl rfl (codeField_cmdWord _ _ _)

theorem OpcodeField.vrev (word : VWord) : OpcodeField.Statement (.vrev word) :=
  opcodeField_of_word _ _ _ _ rfl rfl (codeField_cmdWord _ _ _)

theorem OpcodeField.sendp (len : BitVec 12) (base : Word32) : OpcodeField.Statement (.sendp len base) :=
  opcodeField_of_word _ _ _ _ rfl rfl (codeField_cmdWord _ _ _)

theorem OpcodeField.txwr (addr : BitVec 12) (byte : Byte) : OpcodeField.Statement (.txwr addr byte) :=
  opcodeField_of_word _ _ _ _ rfl rfl (codeField_cmdWord _ _ _)

theorem OpcodeField.init : OpcodeField.Statement .init :=
  opcodeField_of_word _ _ _ _ rfl rfl (codeField_cmdWord _ _ _)

theorem OpcodeField.setf (ch : BitVec 4) (pll : BitVec 2) (f : Nat) (drv : BitVec 6) : OpcodeField.Statement (.setf ch pll f drv) :=
  opcodeField_of_word _ _ _ _ rfl rfl (codeField_outWord _ _ _)

theorem OpcodeField.invp (ch : BitVec 4) (inv : Bool) : OpcodeField.Statement (.invp ch inv) :=
  opcodeField_of_word _ _ _ _ rfl rfl (codeField_outWord _ _ _)

theorem OpcodeField.diso : OpcodeField.Statement .diso :=
  opcodeField_of_word _ _ _ _ rfl rfl (codeField_outWord _ _ _)

theorem OpcodeField.wait (d : Nat) : OpcodeField.Statement (.wait d) :=
  opcodeField_of_word _ _ _ _ rfl rfl (codeField_outWord _ _ _)

end Sys2Proof.Laws
end

