-- ==== Sys2Proof/Laws/Position.lean ====
section
/-! SUPPORT. The encoder agent's next event, by what stands first in its position: a call of encoderNext is turned into one
of a shorter position, or into the event itself. -/

namespace Sys2Proof.Laws

open Sys2Proof.Machine Sys2Proof.Safety

theorem charsEnding_append (ts us : List Machine.Task) : charsEnding (ts ++ us) = charsEnding ts + charsEnding us := by
  induction ts with
  | nil => simp [charsEnding]
  | cons t ts ih =>
    cases t with
    | act a => simpa [charsEnding] using ih
    | setShift v => simpa [charsEnding] using ih
    | nextChar => simp [charsEnding, ih]; omega

/-- Acts finish no character. -/
theorem charsEnding_acts (ts : List Machine.Task) (h : ∀ t ∈ ts, ∃ a, t = .act a) : charsEnding ts = 0 := by
  induction ts with
  | nil => rfl
  | cons t ts ih =>
    obtain ⟨a, rfl⟩ := h t List.mem_cons_self
    exact ih fun u hu => h u (List.mem_cons_of_mem _ hu)

/-- A frame is seven elements (43_baudot_rtty.md R209). -/
theorem frame_eq_map (c : Config) (code : BitVec 5) :
    frame c code = (frameElems c code).map (fun p => Task.act (.elem p.1 p.2)) := by
  simp [frame, frameElems, List.range_succ]

@[simp] theorem charsEnding_frame (c : Config) (code : BitVec 5) : charsEnding (frame c code) = 0 := by
  refine charsEnding_acts _ fun t ht => ?_
  rw [frame_eq_map] at ht
  obtain ⟨p, _, rfl⟩ := List.mem_map.1 ht
  exact ⟨_, rfl⟩

@[simp] theorem charsEnding_slots (bits : List Bool) : charsEnding (slots bits) = 0 := by
  refine charsEnding_acts _ fun t ht => ?_
  obtain ⟨b, _, rfl⟩ := List.mem_map.1 ht
  exact ⟨_, rfl⟩

/-- What a character's body does finishes no character: `IDX <- IDX + 1` comes after it. -/
@[simp] theorem charsEnding_charTasks (s : State) (ch : Byte) : charsEnding (charTasks s ch) = 0 := by
  unfold charTasks
  split
  · rfl
  · simp only [charStep]
    split
    · split <;> simp [charsEnding_append, charsEnding]
    · simp [charsEnding_append, charsEnding]
  · split <;> simp [charsEnding]

/-- The register writes do not depend on the position they are taken from. -/
theorem runWrites_position (ts us : List Machine.Task) (s : State) :
    runWrites ts { s with todo := us } = runWrites ts s := by
  induction ts generalizing s with
  | nil => rfl
  | cons t ts ih =>
    cases t with
    | act a => rfl
    | setShift v => exact ih { s with shiftst := v }
    | nextChar => exact ih { s with idx := s.idx + 1 }

/-- IDX after register writes with no act among them. -/
theorem runWrites_idx (ts : List Machine.Task) (s s' : State) (h : runWrites ts s = (s', none)) :
    s'.idx = s.idx + charsEnding ts := by
  induction ts generalizing s with
  | nil => cases h; rfl
  | cons t ts ih =>
    cases t with
    | act a => cases h
    | setShift v => exact ih { s with shiftst := v } h
    | nextChar =>
      have := ih { s with idx := s.idx + 1 } h
      simp only [charsEnding]
      rw [this]
      exact (Nat.add_assoc _ _ _).trans (congrArg _ (Nat.add_comm _ _))

/-- An act first: its event. -/
theorem encoderNext_act (s : State) (a : Act) (ts : List Machine.Task) (hm : s.mode ≠ .idle) (ht : s.todo = .act a :: ts) :
    encoderNext s = .ok (some (fire a { s with todo := ts })) := by
  simp [encoderNext, hm, ht]

/-- A shift-state write first. -/
theorem encoderNext_setShift (s : State) (v : Shift) (ts : List Machine.Task) (hm : s.mode ≠ .idle)
    (ht : s.todo = .setShift v :: ts) : encoderNext s = encoderNext { s with todo := ts, shiftst := v } := by
  simp only [encoderNext, hm, if_false, ht, runWrites_setShift]
  rw [← runWrites_position ts ts { s with shiftst := v, todo := .setShift v :: ts }]

/-- The end of a character first. -/
theorem encoderNext_nextChar (s : State) (ts : List Machine.Task) (hm : s.mode ≠ .idle) (ht : s.todo = .nextChar :: ts) :
    encoderNext s = encoderNext { s with todo := ts, idx := s.idx + 1 } := by
  simp only [encoderNext, hm, if_false, ht, runWrites_nextChar]
  rw [← runWrites_position ts ts { s with idx := s.idx + 1, todo := .nextChar :: ts }]

/-- Between two characters: the tasks of the next one. -/
theorem encoderNext_char (s : State) (hm : s.mode ≠ .idle) (ht : s.todo = []) (hi : s.idx < s.nlen)
    (hl : s.nlen ≤ s.cfg.maxLen) :
    encoderNext s = encoderNext { s with todo := charTasks s (s.textAt s.idx) ++ [.nextChar] } := by
  have hs : ({ s with todo := ([] : List Machine.Task) } : State) = s := by rw [← ht]
  obtain ⟨n, hn⟩ : ∃ n, s.nlen - s.idx = n + 1 := ⟨s.nlen - s.idx - 1, by omega⟩
  simp only [encoderNext, hm, if_false, ht, runWrites_nil, hs, hn, runLoop, readText_inside s s.idx (by omega)]
  have hw := runWrites_position (charTasks s (s.textAt s.idx) ++ [.nextChar]) (charTasks s (s.textAt s.idx) ++ [.nextChar]) s
  rw [hw]
  cases hr : runWrites (charTasks s (s.textAt s.idx) ++ [.nextChar]) s with
  | mk s1 o =>
    cases o with
    | some a => rfl
    | none =>
      have h1 := runWrites_idx _ _ _ hr
      have h2 := congrArg State.nlen (runWrites_eq_frame _ _ _ _ hr)
      simp only [charsEnding_append, charsEnding_charTasks, charsEnding] at h1 h2
      simp only [show s1.nlen - s1.idx = n by omega]

/-- After the last character: DISO (43_baudot_rtty.md R213, 44_varicode_psk31.md R250). -/
theorem encoderNext_done (s : State) (hm : s.mode ≠ .idle) (ht : s.todo = []) (hi : s.nlen ≤ s.idx) :
    encoderNext s = .ok (some (.diso, { s with mode := .idle })) := by
  have hs : ({ s with todo := ([] : List Machine.Task) } : State) = s := by rw [← ht]
  simp only [encoderNext, hm, if_false, ht, runWrites_nil, hs, show s.nlen - s.idx = 0 by omega, runLoop_zero]

end Sys2Proof.Laws
end

