-- ==== Sys2Proof/Laws/Step.lean ====
section
/-! SUPPORT. What one step can do, said once: the turn it takes and what that turn leaves. -/

namespace Sys2Proof.Laws

open Sys2Proof.Machine

/-- The record of pins a tick brings decodes to TICK (30_encoding.md R91). -/
@[simp] theorem decode_pins (pin : BitVec 17) : decode .pins (pin.setWidth 48) = .ok (.tick (decodePin pin)) := by
  have : (pin.setWidth 48).setWidth 17 = pin := by
    apply BitVec.eq_of_toNat_eq
    simp
  simp [decode, this]

/-- A word the host port refuses has a reserved code (30_encoding.md R107). -/
theorem decode_host_error (w : Word48) (e : DecodeError) (h : decode .host w = .error e) :
    e = .reservedOp (codeField w) := by
  simp only [decode, decodeCmd] at h
  split at h <;> cases h
  rfl

/-! ## The next input -/

@[simp] theorem takeInput_nil (m : Mode) : takeInput m [] = none := by cases m <;> rfl

@[simp] theorem takeInput_idle (x : Input) (rest : List Input) : takeInput .idle (x :: rest) = some (x, rest) := rfl

/-- The first input behind commands that wait is next, in every MODE if none waits. -/
theorem takeInput_behind (m : Mode) (waiting rest : List Input) (x : Input) (hx : isHost x = false)
    (hw : waiting = [] ∨ m ≠ .idle ∧ ∀ y ∈ waiting, isHost y = true) :
    takeInput m (waiting ++ x :: rest) = some (x, waiting ++ rest) := by
  rcases hw with rfl | ⟨hm, hw⟩
  · cases m <;> simp [takeInput, nextArrival, hx]
  · simp only [takeInput, hm, if_false]
    induction waiting with
    | nil => simp [nextArrival, hx]
    | cons y ys ih =>
      simp only [List.cons_append, nextArrival, hw y (by simp), if_true, ih (fun z hz => hw z (by simp [hz]))]
      rfl

@[simp] theorem takeInput_tick (m : Mode) (pin : BitVec 17) (rest : List Input) :
    takeInput m (.tick pin :: rest) = some (.tick pin, rest) := takeInput_behind m [] rest _ rfl (.inl rfl)

@[simp] theorem takeInput_encoder (m : Mode) (rest : List Input) :
    takeInput m (.encoder :: rest) = some (.encoder, rest) := takeInput_behind m [] rest _ rfl (.inl rfl)

@[simp] theorem takeInput_reset (m : Mode) (rest : List Input) :
    takeInput m (.reset :: rest) = some (.reset, rest) := takeInput_behind m [] rest _ rfl (.inl rfl)

/-- While MODE is not IDLE nothing is next exactly where only commands are listed. -/
theorem takeInput_waiting (m : Mode) (l : List Input) (hm : m ≠ .idle) (hl : ∀ y ∈ l, isHost y = true) :
    takeInput m l = none := by
  simp only [takeInput, hm, if_false]
  induction l with
  | nil => rfl
  | cons y ys ih =>
    simp only [nextArrival, hl y (by simp), if_true, ih (fun z hz => hl z (by simp [hz]))]
    rfl

/-- Everything the next input can be: it stands behind commands that wait, which there are none of while MODE is IDLE, and
a command is next only then. -/
theorem takeInput_cases (m : Mode) (l rest : List Input) (x : Input) (h : takeInput m l = some (x, rest)) :
    ∃ waiting back, l = waiting ++ x :: back ∧ rest = waiting ++ back ∧
      (waiting = [] ∨ m ≠ .idle ∧ ∀ y ∈ waiting, isHost y = true) ∧ (isHost x = true → m = .idle) := by
  by_cases hm : m = .idle
  · subst hm
    cases l with
    | nil => cases h
    | cons y ys =>
      cases h
      exact ⟨[], _, rfl, rfl, .inl rfl, fun _ => rfl⟩
  · simp only [takeInput, hm, if_false] at h
    induction l generalizing rest with
    | nil => cases h
    | cons y ys ih =>
      by_cases hy : isHost y = true
      · simp only [nextArrival, hy, if_true, Option.map_eq_some_iff] at h
        obtain ⟨⟨z, zs⟩, h1, h2⟩ := h
        cases h2
        obtain ⟨waiting, back, rfl, rfl, hw, hx⟩ := ih zs h1
        refine ⟨y :: waiting, back, rfl, rfl, .inr ⟨hm, ?_⟩, hx⟩
        intro z hz
        rcases List.mem_cons.1 hz with rfl | hz
        · exact hy
        · rcases hw with rfl | ⟨-, hw⟩
          · cases hz
          · exact hw z hz
      · simp only [nextArrival, hy] at h
        cases h
        exact ⟨[], _, rfl, rfl, .inl rfl, fun hx => absurd hx hy⟩

/-- A hardware reset or a command that is taken in an idle block is the first input. -/
theorem takeInput_of_idle (s : State) (x : Input) (rest : List Input) (hm : s.mode = .idle)
    (h : takeInput s.mode s.inputs = some (x, rest)) : s.inputs = x :: rest := by
  rw [hm] at h
  cases hl : s.inputs with
  | nil => rw [hl] at h; cases h
  | cons y ys => rw [hl] at h; cases h; rfl

/-! ## The step -/

/-- The inputs left when the encoder agent takes its turn: one is taken off, or none is next. -/
def encoderInputs (s : State) (ins : List Input) : Prop :=
  takeInput s.mode s.inputs = some (.encoder, ins) ∨ (ins = s.inputs ∧ takeInput s.mode s.inputs = none)

/-- Everything one step that answers a next state can do: a TICK, a host command, an event of the encoder agent, nothing
in an idle block, or a hardware reset. -/
theorem step_cases (s t : State) (h : step s = .next t) :
    s.cfg.valid = true ∧
    ((∃ pin rest, takeInput s.mode s.inputs = some (.tick pin, rest) ∧
        exec (.tick (decodePin pin)) { s with inputs := rest } = .next t) ∨
     (∃ w rest i, s.inputs = .host w :: rest ∧ s.mode = .idle ∧ decode .host w = .ok i ∧
        exec i { s with inputs := rest } = .next t) ∨
     (∃ ins i u, encoderInputs s ins ∧ encoderNext { s with inputs := ins } = .ok (some (i, u)) ∧ exec i u = .next t) ∨
     (∃ ins, encoderInputs s ins ∧ encoderNext { s with inputs := ins } = .ok none ∧ t = { s with inputs := ins }) ∨
     (∃ rest, s.inputs = .reset :: rest ∧ s.mode = .idle ∧
        t = { State.afterReset s.cfg (s.powerUps + 1) with inputs := rest })) := by
  unfold step at h
  split at h
  swap; · cases h
  rename_i hv
  refine ⟨hv, ?_⟩
  have turn (ins : List Input) (hi : encoderInputs s ins)
      (h : (match encoderTurn { s with inputs := ins } with
        | .run i s' => exec i s'
        | .done o => o) = .next t) :
      (∃ ins i u, encoderInputs s ins ∧ encoderNext { s with inputs := ins } = .ok (some (i, u)) ∧ exec i u = .next t) ∨
      (∃ ins, encoderInputs s ins ∧ encoderNext { s with inputs := ins } = .ok none ∧ t = { s with inputs := ins }) := by
    unfold encoderTurn at h
    cases hn : encoderNext { s with inputs := ins } with
    | error f => rw [hn] at h; cases h
    | ok r =>
      rw [hn] at h
      cases r with
      | none => cases h; exact .inr ⟨ins, hi, hn, rfl⟩
      | some r => exact .inl ⟨ins, r.1, r.2, hi, hn, h⟩
  unfold fetch at h
  cases hl : takeInput s.mode s.inputs with
  | none =>
    rw [hl] at h
    rcases turn s.inputs (.inr ⟨rfl, hl⟩) h with h | h
    · exact .inr (.inr (.inl h))
    · exact .inr (.inr (.inr (.inl h)))
  | some r =>
    obtain ⟨x, rest⟩ := r
    rw [hl] at h
    cases x with
    | tick pin =>
      simp only [tickTurn, decode_pins] at h
      exact .inl ⟨pin, rest, rfl, h⟩
    | host w =>
      obtain ⟨_, _, _, _, _, hm⟩ := takeInput_cases _ _ _ _ hl
      replace hm := hm rfl
      simp only [hostTurn] at h
      cases hd : decode .host w with
      | ok i =>
        rw [hd] at h
        exact .inr (.inl ⟨w, rest, i, takeInput_of_idle s _ _ hm hl, hm, hd, h⟩)
      | error e => rw [hd, decode_host_error w e hd] at h; cases h
    | encoder =>
      rcases turn rest (.inl hl) h with h | h
      · exact .inr (.inr (.inl h))
      · exact .inr (.inr (.inr (.inl h)))
    | reset =>
      simp only [hardReset] at h
      split at h
      · rename_i hm
        cases h
        exact .inr (.inr (.inr (.inr ⟨rest, takeInput_of_idle s _ _ hm hl, hm, rfl⟩)))
      · cases h

/-- The encoder agent has no event exactly while MODE is IDLE. -/
theorem encoderNext_none (s : State) (h : encoderNext s = .ok none) : s.mode = .idle := by
  by_contra hm
  simp only [encoderNext, hm, if_false] at h
  split at h
  · cases h
  · split at h <;> cases h

/-- The record of an act appends one event and changes nothing else. -/
theorem exec_fire (a : Act) (s : State) : ∃ e, ∀ u, exec (fire a s).1 u = .next (emit u e) := by
  cases a with
  | rttyCarrier => exact ⟨_, fun _ => rfl⟩
  | pskCarrier => exact ⟨_, fun _ => rfl⟩
  | hold d => exact ⟨_, fun _ => rfl⟩
  | elem tone t =>
    by_cases ht : tone = s.tone
    · exact ⟨.wait t, by simp [fire, ht, exec, execWait]⟩
    · exact ⟨.setf s.cfg.txCh s.cfg.txPll (if tone then s.fmark else s.fspace) s.cfg.txDrive, fun u => by
        simp only [fire, ht, ne_eq, not_false_eq_true, if_true, carrierRecord, exec, execSetf]⟩
  | slot bit => cases bit <;> exact ⟨_, fun _ => rfl⟩

/-- What the encoder agent emits appends one event and changes nothing else. -/
theorem exec_encoderNext (s t : State) (i : Instr) (h : encoderNext s = .ok (some (i, t))) :
    ∃ e, ∀ u, exec i u = .next (emit u e) := by
  obtain ⟨_, s', _, ⟨a, ha⟩ | ⟨rfl, _⟩⟩ := encoderNext_cases s t i h
  · obtain rfl : (fire a s').1 = i := congrArg Prod.fst ha
    exact exec_fire a s'
  · exact ⟨_, fun _ => rfl⟩

/-- A run begins with one step. -/
theorem run_succ (k : Nat) (s t : State) (h : step s = .next t) :
    Host.Core.run Sys2Proof.core (k + 1) s = Host.Core.run Sys2Proof.core k t := by
  have : Sys2Proof.core.step s = .next t := h
  simp only [Host.Core.run, this]

/-- With nothing arriving the step runs the encoder agent's next event. -/
theorem step_of_encoderNext (s t : State) (i : Instr) (hv : s.cfg.valid = true) (hin : s.inputs = [])
    (h : encoderNext s = .ok (some (i, t))) : step s = exec i t := by
  simp [step, hv, fetch, hin, encoderTurn, h]

end Sys2Proof.Laws
end

