-- ==== Sys2Proof/Laws/Tables.lean ====
section
/-! SUPPORT. What the lookups give in an admissible configuration (40_quadrature.md R126, 43_baudot_rtty.md R196,
44_varicode_psk31.md R237). -/

namespace Sys2Proof.Laws

open Sys2Proof.Machine

/-- The history index as a number: only the previous sample of HIST counts (30_encoding.md R101). -/
theorem toNat_historyIndex (h : BitVec 4) (q : BitVec 2) : (historyIndex h q).toNat = 4 * (h.setWidth 2).toNat + q.toNat := by
  revert h q
  decide

/-- The history index keeps the sample in its low half. -/
@[simp] theorem setWidth_historyIndex (h : BitVec 4) (q : BitVec 2) : (historyIndex h q).setWidth 2 = q := by
  revert h q
  decide

/-- A non-zero byte stands at one index of an admissible Baudot table. -/
theorem index_unique (t : List Byte) (h : (t.filter (· != 0)).Nodup) (i j : Nat) (v : Byte) (hv : v ≠ 0)
    (h1 : t[i]? = some v) (h2 : t[j]? = some v) : i = j := by
  induction t generalizing i j with
  | nil => simp at h1
  | cons x t ih =>
    have mem (k : Nat) (hk : t[k]? = some v) : v ∈ t.filter (· != 0) :=
      List.mem_filter.2 ⟨List.mem_of_getElem? hk, by simpa using hv⟩
    rw [List.filter_cons] at h
    cases i with
    | zero =>
      obtain rfl : x = v := by simpa using h1
      cases j with
      | zero => rfl
      | succ j =>
        rw [if_pos (by simpa using hv), List.nodup_cons] at h
        exact absurd (mem j (by simpa using h2)) h.1
    | succ i =>
      cases j with
      | zero =>
        obtain rfl : x = v := by simpa using h2
        rw [if_pos (by simpa using hv), List.nodup_cons] at h
        exact absurd (mem i (by simpa using h1)) h.1
      | succ j =>
        have hn : (t.filter (· != 0)).Nodup := by
          split at h
          · exact h.of_cons
          · exact h
        rw [ih hn i j (by simpa using h1) (by simpa using h2)]

/-- The code of a non-zero byte that stands in an admissible table is the index it stands at. -/
theorem blookup_of_getElem? (c : Config) (sel : Shift) (T : TableFacts c (c.baudot sel)) (k : Nat) (ch : Byte)
    (h0 : ch ≠ 0) (hk : (c.baudot sel)[k]? = some ch) : (blookup c sel ch).toNat = k ∧ k ≤ 31 := by
  have hlt := (List.getElem?_eq_some_iff.1 hk).1
  have hlen := T.length
  have h32 : k ≠ 32 := by
    rintro rfl
    rw [T.last] at hk
    exact h0 (Option.some.inj hk).symm
  simp only [blookup]
  cases hf : (c.baudot sel).findIdx? (fun e => e == ch) with
  | none =>
    rw [List.findIdx?_eq_none_iff] at hf
    have := hf _ (List.mem_of_getElem? hk)
    simp at this
  | some i =>
    rw [List.findIdx?_eq_some_iff_getElem] at hf
    obtain ⟨hi, h1, -⟩ := hf
    obtain rfl := index_unique _ T.nodup i k ch h0 (by rw [List.getElem?_eq_getElem hi]; simpa using h1) hk
    have h31 : i ≤ 31 := by omega
    simp only [h31, if_true, and_true]
    simp
    omega

/-- A byte that stands in no entry has the code 0. -/
theorem blookup_of_not_mem (c : Config) (sel : Shift) (ch : Byte) (h : ch ∉ c.baudot sel) : blookup c sel ch = 0 := by
  simp only [blookup]
  rw [List.findIdx?_eq_none_iff.2]
  intro x hx
  simp only [beq_eq_false_iff_ne, ne_eq]
  rintro rfl
  exact h hx

/-- A non-zero byte that stands in an admissible table has a non-zero code. -/
theorem blookup_ne_zero (c : Config) (sel : Shift) (T : TableFacts c (c.baudot sel)) (ch : Byte) (h0 : ch ≠ 0)
    (h : ch ∈ c.baudot sel) : blookup c sel ch ≠ 0 := by
  obtain ⟨k, hk⟩ := List.mem_iff_getElem?.1 h
  have := (blookup_of_getElem? c sel T k ch h0 hk).1
  intro hz
  rw [hz] at this
  obtain rfl : k = 0 := by simpa using this.symm
  rw [T.zero] at hk
  exact h0 (Option.some.inj hk).symm

/-- The character of a stored Varicode word (44_varicode_psk31.md R232 (e)). -/
theorem vreverse_of_getElem? (c : Config) (V : VaricodeFacts c) (w : VWord) (ch : Nat) (h : c.varicode[ch]? = some w) :
    vreverse c w = BitVec.ofNat 8 ch := by
  have htake : c.varicode.take 128 = c.varicode := by rw [← V.length, List.take_length]
  simp only [vreverse, htake]
  cases hf : c.varicode.findIdx? (fun e => e == w) with
  | none =>
    rw [List.findIdx?_eq_none_iff] at hf
    have := hf _ (List.mem_of_getElem? h)
    simp at this
  | some i =>
    rw [List.findIdx?_eq_some_iff_getElem] at hf
    obtain ⟨hi, h1, -⟩ := hf
    have h3 : c.varicode[i]? = c.varicode[ch]? := by
      rw [List.getElem?_eq_getElem hi, h]
      simpa using h1
    rw [(List.getElem?_inj hi V.nodup).1 h3]

/-- A word that no entry holds has no character (44_varicode_psk31.md R237). -/
theorem vreverse_of_not_mem (c : Config) (w : VWord) (h : w ∉ c.varicode) : vreverse c w = 0xFF := by
  simp only [vreverse]
  rw [List.findIdx?_eq_none_iff.2]
  intro x hx
  simp only [beq_eq_false_iff_ne, ne_eq]
  rintro rfl
  exact h (List.mem_of_mem_take hx)

end Sys2Proof.Laws
end

