-- ==== Sys2Proof/Laws/Tracker.lean ====
section
/-! SUPPORT. What BPOLL does on a held and on a released tick, and what the loop of TICK does over all buttons
(41_button.md R146, 40_quadrature.md R130). -/

namespace Sys2Proof.Laws

open Sys2Proof.Machine Sys2Proof.Safety

/-- The long-press counter and result of a held tick (41_button.md R150). -/
theorem bpoll_held_lpr (c : Config) (b : Nat) (B : Button) :
    (bpoll c b (c.heldLevel.getLsbD b) B).2.lpr = decide (c.pushButtonReset ≤ B.lpc + 1) ∧
    (bpoll c b (c.heldLevel.getLsbD b) B).1.lpc = if c.pushButtonReset ≤ B.lpc + 1 then 0 else B.lpc + 1 := by
  simp only [bpoll, if_true]
  split <;> [skip; split <;> [split; skip]] <;> simp

/-- A released tick (41_button.md R149). -/
theorem bpoll_released (c : Config) (b : Nat) (B : Button) :
    bpoll c b (!c.heldLevel.getLsbD b) B =
      ({ lvl := !c.heldLevel.getLsbD b, dbc := 0, pushed := B.pushed && decide (1 < B.rlx), en := B.en, lpc := 0,
         rlx := if B.pushed then B.rlx - 1 else B.rlx }, ⟨false, false⟩) := by
  obtain ⟨lvl, dbc, pushed, en, lpc, rlx⟩ := B
  cases pushed
  · simp [bpoll]
  · by_cases h : rlx ≤ 1
    · simp [bpoll, h, show rlx - 1 = 0 by omega]
    · simp [bpoll, h, show 1 < rlx by omega]

/-- BPOLL keeps the tracker's invariant (10_state.md R42). -/
theorem trackerInv_bpoll (c : Config) (b : Nat) (raw : Bool) (B : Button) (h1 : 1 ≤ c.pbDebounce)
    (h2 : 1 ≤ c.pushButtonReset) (h3 : 1 ≤ c.pbRelax) (h : TrackerInv c B) : TrackerInv c (bpoll c b raw B).1 := by
  obtain ⟨a1, a2, a3, a4, a5⟩ := h
  have key : (if decide (c.pushButtonReset ≤ B.lpc + 1) then 0 else B.lpc + 1) ≤ c.pushButtonReset - 1 := by
    split
    · omega
    · simp_all
      omega
  unfold bpoll
  split
  · dsimp only
    split
    · constructor <;> simp_all
    · split
      · split
        · constructor <;> simp_all
        · constructor <;> simp_all
          omega
      · constructor <;> simp_all
  · split
    · split
      · constructor <;> simp_all
      · constructor <;> simp_all <;> omega
    · constructor <;> simp_all

@[simp] theorem pollButtons_length (c : Config) (p : Pin) (n b : Nat) (bs : List Button) :
    (pollButtons c p n b bs).1.length = bs.length := by
  induction n generalizing b bs with
  | zero => rfl
  | succ n ih => cases bs <;> simp [pollButtons, ih]

/-- Every record after the loop of TICK is what BPOLL leaves of the record before it. -/
theorem pollButtons_getElem? (c : Config) (p : Pin) (b : Nat) (bs : List Button) (i : Nat) :
    (pollButtons c p bs.length b bs).1[i]? =
      (bs[i]?).map (fun B => (bpoll c (b + i) (p.btn.getLsbD (b + i)) B).1) := by
  induction bs generalizing b i with
  | nil => simp [pollButtons]
  | cons B bs ih =>
    cases i with
    | zero => simp [pollButtons]
    | succ i =>
      simp only [List.length_cons, pollButtons, List.getElem?_cons_succ, ih]
      rw [show b + 1 + i = b + (i + 1) by omega]

/-- The flags the loop of TICK sets: those of every button's result (42_event_flags.md R172). -/
theorem getLsbD_pollButtons (c : Config) (p : Pin) (b : Nat) (bs : List Button) (hb : b + bs.length ≤ 15) (k : Nat) :
    (pollButtons c p bs.length b bs).2.getLsbD k = true ↔
      ∃ i B, bs[i]? = some B ∧
        ((k = 2 + 2 * (b + i) ∧ (bpoll c (b + i) (p.btn.getLsbD (b + i)) B).2.pressed = true) ∨
         (k = 3 + 2 * (b + i) ∧ (bpoll c (b + i) (p.btn.getLsbD (b + i)) B).2.lpr = true)) := by
  induction bs generalizing b with
  | nil => simp [pollButtons]
  | cons A bs ih =>
    simp only [List.length_cons] at hb
    simp only [List.length_cons, pollButtons, BitVec.getLsbD_or, Bool.or_eq_true]
    rw [getLsbD_pressFlags _ _ _ (by omega), ih (b + 1) (by omega)]
    constructor
    · rintro (h | ⟨i, B, h, h2⟩)
      · exact ⟨0, A, rfl, h⟩
      · exact ⟨i + 1, B, h, by rwa [show b + (i + 1) = b + 1 + i by omega]⟩
    · rintro ⟨i, B, h, h2⟩
      cases i with
      | zero => obtain rfl : A = B := by simpa using h
                exact .inl h2
      | succ i => exact .inr ⟨i, B, by simpa using h, by rwa [show b + 1 + i = b + (i + 1) by omega]⟩

end Sys2Proof.Laws
end

