-- ==== Sys2Proof/Tests/Slice0.lean ====
section
/-! SUPPORT. The model's own tests: the words of 95_test_vectors.md, one or two small steps per instruction with the
results that file gives, and for every statement of Certificates/Slice0/Obligations.lean that has hypotheses a state and
operands that meet them. -/

namespace Sys2Proof.Tests

open Sys2Proof.Machine Sys2Proof.Safety

/-- The next state of an outcome, if it is one. -/
def nextOf (o : Host.Outcome State Fault Refusal) : Option State :=
  match o with
  | .next s => some s
  | _ => none

/-- The record of button 0 as 95_test_vectors.md 2.2 writes it: LVL DBC PUSHED EN LPC RLX. -/
def button (lvl : Bool) (dbc : Nat) (pushed en : Bool) (lpc rlx : Nat) : Button :=
  { lvl := lvl, dbc := dbc, pushed := pushed, en := en, lpc := lpc, rlx := rlx }

/-- What an RES-returning operation returned. -/
def resOf (o : Host.Outcome State Fault Refusal) : Option Word32 := (nextOf o).bind (fun s => s.res)

/-- The test configuration meets every constraint (00_scope.md R6). -/
theorem cfgT_valid : Config.cfgT.valid = true := by decide +kernel

/-- CFG-T with 15 buttons, the most there can be. -/
def cfg15 : Config := { Config.cfgT with nb := 15 }

theorem cfg15_valid : cfg15.valid = true := by decide +kernel

/-! ## Ill-formed terms -/

theorem smoke_tick_pin_of_absent_button : (Instr.tick ⟨false, false, 0b10⟩).wellFormed 1 = false := by decide
theorem smoke_bpoll_of_absent_button : (Instr.bpoll 1 true).wellFormed 1 = false := by decide
theorem smoke_setf_frequency_too_wide : (Instr.setf 2 0 (2 ^ 32) 3).wellFormed 1 = false := by decide
theorem smoke_wait_duration_too_wide : (Instr.wait (2 ^ 32)).wellFormed 1 = false := by decide
theorem smoke_ill_formed_setf_loses_a_bit :
    encode (.setf 2 0 (2 ^ 32) 3) = encode (.setf 2 0 0 3) := by decide

/-! ## Decoding: words written out from 30_encoding.md R91, R95, R96, R100 and 95_test_vectors.md V-C1, V-C2 -/

/-- Bit 1 is ENC_A, bit 0 ENC_B, bit 2 + b button b. -/
theorem decode_tick : decode .pins 0b0110 = .ok (.tick ⟨true, false, 0b1⟩) := by rfl
theorem decode_tick_button14 : decode .pins 0b1_00000000_00000001 = .ok (.tick ⟨false, true, 0x4000⟩) := by rfl
theorem decode_ben : decode .host 0x10000000_0000 = .ok (.ben 0) := by rfl
theorem decode_ben_ignores_the_rest : decode .host 0x1FF5DEADBEEF = .ok (.ben 5) := by rfl
theorem decode_bdis : decode .host 0x200E00000000 = .ok (.bdis 14) := by rfl
theorem decode_frd : decode .host 0x3ABC12345678 = .ok .frd := by rfl
theorem decode_fclr : decode .host 0x400000000003 = .ok (.fclr 3) := by rfl
theorem decode_fxchg : decode .host 0x5000FFFFFFFF = .ok (.fxchg 0xFFFFFFFF) := by rfl
theorem decode_blkup : decode .host 0x604500000000 = .ok (.blkup .letters 0x45) := by rfl
theorem decode_blkup_figures : decode .host 0x613000000000 = .ok (.blkup .figures 0x30) := by rfl
theorem decode_brev : decode .host 0x711600000000 = .ok (.brev .figures 22) := by rfl
theorem decode_sendr : decode .host 0x8003006C5660 = .ok (.sendr 3 7100000) := by rfl
theorem decode_vlkup : decode .host 0x906500000000 = .ok (.vlkup 0x65) := by rfl
theorem decode_vrev : decode .host 0xA00000010003 = .ok (.vrev 0x0003) := by rfl
theorem decode_sendp : decode .host 0xB001006C5660 = .ok (.sendp 1 7100000) := by rfl
theorem decode_txwr : decode .host 0xC00200000021 = .ok (.txwr 2 0x21) := by rfl
theorem decode_init : decode .host 0xD00000000000 = .ok .init := by rfl
theorem decode_reserved_codes :
    decode .host 0x000000000000 = .error (.reservedOp 0x0) ∧ decode .host 0xE00000000000 = .error (.reservedOp 0xE) ∧
    decode .host 0xF00000000000 = .error (.reservedOp 0xF) := by
  refine ⟨rfl, rfl, rfl⟩
theorem decode_setf : decode .synth 0x1203006C5A2F = .ok (.setf 2 0 7100975 3) := by rfl
/-- `pll` is bits 39:38 and `drv` bits 37:32 (R100). -/
theorem decode_setf_pll : decode .synth 0x12BF00000001 = .ok (.setf 2 2 1 63) := by rfl
theorem decode_invp : decode .synth 0x220000000001 = .ok (.invp 2 true) := by rfl
theorem decode_diso : decode .synth 0x300000000000 = .ok .diso := by rfl
theorem decode_wait : decode .synth 0x400000000014 = .ok (.wait 20) := by rfl
theorem decode_reserved_kinds :
    decode .synth 0x000000000000 = .error (.reservedKind 0x0) ∧ decode .synth 0x500000000000 = .error (.reservedKind 0x5) := by
  refine ⟨rfl, rfl⟩

/-- QPOLL and BPOLL have no word of their own (30_encoding.md R96). -/
theorem encode_of_the_sub_operations (ab : BitVec 2) (b : BitVec 4) (raw : Bool) :
    encode (.qpoll ab) = none ∧ encode (.bpoll b raw) = none := ⟨rfl, rfl⟩

/-- The encoder writes the words of V-C1 and V-C2. -/
theorem encode_words :
    encode (.sendr 1 7100000) = some (.host, 0x8001006C5660) ∧ encode (.blkup .figures 0x30) = some (.host, 0x613000000000) ∧
    encode (.setf 2 0 7100805 3) = some (.synth, 0x1203006C5985) ∧ encode (.invp 2 true) = some (.synth, 0x220000000001) := by
  refine ⟨rfl, rfl, rfl, rfl⟩

theorem decodeTableWord_reads : decodeTableWord 48 0xC00200000021 = some (.txwr 2 0x21) ∧
    decodeTableWord 8 0b110 = some (.tick ⟨true, false, 1⟩) := by
  refine ⟨rfl, rfl⟩

/-! ## One step of each instruction, results from 95_test_vectors.md -/

/-- V-Q1, V-Q2: from 0b0100 the sample 01 gives index 1 and +1. -/
theorem test_qpoll : (nextOf (exec (.qpoll 0b01) { State.reset with hist := 0b0100 })).map (fun s => (s.hist, s.sub)) =
    some (0b0001, some (.delta .cw)) := by decide

/-- V-Q3: from 0b0010 the sample 11 gives -1. -/
theorem test_qpoll_ccw : (nextOf (exec (.qpoll 0b11) { State.reset with hist := 0b0010 })).map (fun s => (s.hist, s.sub)) =
    some (0b1011, some (.delta .ccw)) := by decide

/-- V-Q8, first tick. -/
theorem test_tick : (nextOf (exec (.tick ⟨true, false, 1⟩) { State.reset with hist := 0b0111 })).map
    (fun s => (s.hist, s.evflags)) = some (0b1110, 0b0001) := by decide

/-- V-B8, the tick with both button events. -/
theorem test_tick_both_events :
    (nextOf (exec (.tick ⟨false, false, 0⟩) { State.reset with btn := [button false 2 false true 7 0] })).map
      (fun s => (s.btn, s.evflags)) = some ([button false 0 true false 0 2], 0b1100) := by decide

/-- V-B2, tick 3: the press. -/
theorem test_bpoll_press :
    (nextOf (exec (.bpoll 0 false) { State.reset with btn := [button false 2 false true 2 0] })).map
      (fun s => (s.btn, s.sub)) = some ([button false 0 true false 3 2], some (.press ⟨true, false⟩)) := by decide

/-- V-B4, tick 7: the relaxation ends, EN stays 0. -/
theorem test_bpoll_relaxed :
    (nextOf (exec (.bpoll 0 true) { State.reset with btn := [button true 0 true false 0 1] })).map
      (fun s => (s.btn, s.sub)) = some ([button true 0 false false 0 0], some (.press ⟨false, false⟩)) := by decide

/-- V-B6: only EN changes. -/
theorem test_ben :
    (nextOf (exec (.ben 0) { State.reset with btn := [button false 0 true false 3 2] })).map (fun s => s.btn) =
      some [button false 0 true true 3 2] := by decide

/-- V-B7: on a button never pushed nothing changes. -/
theorem test_ben_never_pushed : nextOf (exec (.ben 0) State.reset) = some State.reset := by decide +kernel

/-- V-B5. -/
theorem test_bdis : (nextOf (exec (.bdis 0) State.reset)).map (fun s => s.btn) = some [button true 0 false false 0 0] := by
  decide

/-- V-F1. -/
theorem test_frd : resOf (exec .frd { State.reset with evflags := 0b0101 }) = some 5 := by decide

/-- V-F2. -/
theorem test_fclr : (nextOf (exec (.fclr 0x1) { State.reset with evflags := 0b0111 })).map (fun s => (s.evflags, s.res)) =
    some (0b0110, none) := by decide

/-- V-F6: mask bits above the register. -/
theorem test_fclr_high_mask :
    (nextOf (exec (.fclr 0xFFFFFFF0) { State.reset with evflags := 0b0011 })).map (fun s => s.evflags) = some 0b0011 := by
  decide

/-- V-F3. -/
theorem test_fxchg : (nextOf (exec (.fxchg 0x3) { State.reset with evflags := 0b0110 })).map (fun s => (s.evflags, s.res)) =
    some (0b0100, some 6) := by decide

/-- V-F5. -/
theorem test_fxchg_zero_mask :
    (nextOf (exec (.fxchg 0) { State.reset with evflags := 0b1010 })).map (fun s => (s.evflags, s.res)) =
      some (0b1010, some 0xA) := by decide

/-- V-L1: 'Z', and the digit that is in Figures only. -/
theorem test_blkup : resOf (exec (.blkup .letters 0x5A) State.reset) = some 17 ∧
    resOf (exec (.blkup .figures 0x30) State.reset) = some 22 := by decide

/-- V-L1: no match, and the sentinel byte itself. -/
theorem test_blkup_no_match : resOf (exec (.blkup .letters 0x30) State.reset) = some 0 ∧
    resOf (exec (.blkup .figures 0x00) State.reset) = some 0 := by decide

/-- V-L2. -/
theorem test_brev : resOf (exec (.brev .letters 22) State.reset) = some 0x50 ∧
    resOf (exec (.brev .figures 22) State.reset) = some 0x30 := by decide

/-- V-L2: the sentinel entries. -/
theorem test_brev_sentinel : resOf (exec (.brev .letters 31) State.reset) = some 0 ∧
    resOf (exec (.brev .figures 27) State.reset) = some 0 := by decide

/-- V-V1. -/
theorem test_vlkup : resOf (exec (.vlkup 0x65) State.reset) = some 0x0003 ∧
    resOf (exec (.vlkup 0x7F) State.reset) = some 0x02B7 := by decide

/-- V-V1: no entry. -/
theorem test_vlkup_no_entry : resOf (exec (.vlkup 0x80) State.reset) = some 0 := by decide

/-- V-V2. -/
theorem test_vrev : resOf (exec (.vrev 0x02B7) State.reset) = some 0x7F := by decide +kernel

/-- V-V2: absent. -/
theorem test_vrev_absent : resOf (exec (.vrev 0x0002) State.reset) = some 0xFF := by decide +kernel

/-- Program P2, after step 5. -/
theorem test_sendr : (nextOf (exec (.sendr 3 7100000) State.reset)).map
    (fun s => (s.nlen, s.fmark, s.fspace, s.idx, s.mode)) = some (3, 7100975, 7100805, 0, .rtty) := by decide

/-- V-R14: refused. -/
theorem test_sendr_refused : exec (.sendr 1 0xFFFFFFFF) State.reset = .refused (.freqOutOfRange 4294968270) := by rfl

/-- V-P1, the issue: FSPACE is not written (44_varicode_psk31.md R243); a length above MAXLEN is truncated (R103). -/
theorem test_sendp : (nextOf (exec (.sendp 19 7100000) State.reset)).map
    (fun s => (s.nlen, s.fmark, s.fspace, s.idx, s.mode)) = some (16, 7100975, 0, 0, .psk) := by decide

/-- V-H2: the last address. -/
theorem test_txwr : (nextOf (exec (.txwr 15 0xFF) State.reset)).map (fun s => s.textAt 15) = some 0xFF := by rfl

/-- V-H3: at MAXLEN nothing is written. -/
theorem test_txwr_outside : (nextOf (exec (.txwr 16 0x58) { State.reset with text := [(3, 1)] })).map (fun s => s.text) =
    some [(3, 1)] := by decide

/-- V-H5. -/
theorem test_init :
    (nextOf (exec .init { State.reset with hist := 0b1000, btn := [button false 0 true false 3 2], evflags := 0b0101 })).map
      (fun s => (s.hist, s.btn, s.evflags)) = some (0b0000, [button true 0 false true 0 0], 0) := by decide

/-- INIT keeps TEXT and leaves TONE at mark (46_host_port.md R282). -/
theorem test_init_text :
    (nextOf (exec .init { State.reset with text := [(0, 0x45)], tone := false, trace := [.diso] })).map
      (fun s => (s.text, s.tone, s.trace)) = some ([(0, 0x45)], true, []) := by decide

/-- 45_synth_port.md R261. -/
theorem test_setf : (nextOf (exec (.setf 2 0 7100975 3) { State.reset with trace := [.wait 1] })).map (fun s => s.trace) =
    some [.wait 1, .setf 2 0 7100975 3] := by decide

/-- 45_synth_port.md R262. -/
theorem test_invp : (nextOf (exec (.invp 2 true) State.reset)).map (fun s => s.trace) = some [.invp 2 true] := by decide

/-- 45_synth_port.md R263. -/
theorem test_diso : (nextOf (exec .diso { State.reset with trace := [.wait 1] })).map (fun s => s.trace) =
    some [.wait 1, .diso] := by decide

/-- 45_synth_port.md R264. -/
theorem test_wait : (nextOf (exec (.wait 20) State.reset)).map (fun s => s.trace) = some [.wait 20] := by decide

/-- V-R1: the codes of "E"; V-R2: of "0"; V-R4: of "a 1", after the four Letters-shift codes. -/
theorem test_rtty_codes : (textCodes Config.cfgT .letters [0x45]).1 = [1] ∧
    (textCodes Config.cfgT .letters [0x30]).1 = [27, 22] ∧
    (textCodes Config.cfgT .letters [0x61, 0x20, 0x31]).1 = [3, 4, 31, 27, 23] := by decide

/-- The events of FRAME(5), 95_test_vectors.md 2.5. -/
theorem test_frame_events : frameEvents Config.cfgT 7100975 7100805 5 =
    [.setf 2 0 7100805 3, .wait 20, .setf 2 0 7100975 3, .wait 20, .setf 2 0 7100805 3, .wait 20,
     .setf 2 0 7100975 3, .wait 20, .setf 2 0 7100805 3, .wait 20, .wait 22, .setf 2 0 7100975 3, .wait 31] := by decide

/-- V-P3: the bits of 'a', 0x80, 't' after the preamble; 0x80 is skipped. -/
theorem test_psk_bits : (pskBits Config.cfgT [0x61, 0x80, 0x74]).drop 40 =
    [true, false, true, true, false, false, true, false, true, false, false] := by decide

/-- The tone change that begins a frame: SETF and the registers in one step, the wait left to do (43_baudot_rtty.md
R210). -/
theorem test_elem : (fire (.elem false 22) { State.reset with fmark := 7100975, fspace := 7100805 }).1 =
      .setf 2 0 7100805 3 ∧
    (fire (.elem false 22) { State.reset with fmark := 7100975, fspace := 7100805 }).2.todo = [.act (.hold 20)] := by decide

/-! ## Witnesses: states and operands that meet the hypotheses of the statements -/

/-- An RTTY message of one 'E' just issued. -/
def rttyState : State :=
  { State.reset with
    mode := .rtty, nlen := 1, fmark := 7100975, fspace := 7100805, todo := rttyPreamble Config.cfgT, text := [(0, 0x45)] }

/-- A PSK31 message of one 'e' just issued. -/
def pskState : State :=
  { State.reset with mode := .psk, nlen := 1, fmark := 7100975, todo := pskPreamble Config.cfgT, text := [(0, 0x65)] }

/-- An RTTY message whose characters are all sent. -/
def endingState : State := { rttyState with idx := 1, todo := [] }

/-- An idle block that has sent a message; a tick arrives. -/
def sentState : State :=
  { endingState with mode := .idle, evflags := 0b1111, trace := [.diso], inputs := [.tick 3] }

/-- An idle block with these inputs arriving. -/
def idleWith (inputs : List Input) : State := { State.reset with inputs := inputs }

/-- A block of 15 buttons. -/
def state15 : State := State.afterReset cfg15 0

/-- A configuration with no button, which 00_scope.md R6 does not allow. -/
def badCfg : Config := { Config.cfgT with nb := 0 }

/-- What the turn of a state gives. -/
def turnOutcome (s : State) : Host.Outcome State Fault Refusal :=
  match fetch s with
  | .run i s' => exec i s'
  | .done o => o

/-- A step of a machine with CFG-T is the turn that `fetch` gives. -/
theorem step_next (s t : State) (h : s.cfg = Config.cfgT) (ht : turnOutcome s = .next t) : step s = .next t := by
  unfold step
  rw [if_pos (by rw [h]; exact cfgT_valid)]
  revert ht
  unfold turnOutcome
  cases fetch s <;> exact id

/-- The trackers of a block with the trackers of reset. -/
theorem reset_trackers : ∀ B ∈ State.reset.btn, TrackerInv Config.cfgT B := by
  intro B hB
  have : B = button true 0 false true 0 0 := by
    revert hB
    show B ∈ [button true 0 false true 0 0] → _
    simp
  subst this
  exact ⟨by decide, by decide, by decide, by decide, by decide⟩

/-- The invariant holds in the middle of an RTTY message. -/
theorem rttyState_inv : MachineInv rttyState :=
  { cfg_valid := cfgT_valid
    btn_length := rfl
    trackers := reset_trackers
    flags_high := by decide
    text_wf := by decide
    text_range := by decide
    fmark_lt := by decide
    fspace_lt := by decide
    nlen_le := by decide
    idx_le := by decide
    todo_belongs := by decide
    idle_ended := fun h => by cases h }

/-- The invariant holds in the middle of a PSK31 message. -/
theorem pskState_inv : MachineInv pskState :=
  { cfg_valid := cfgT_valid
    btn_length := rfl
    trackers := reset_trackers
    flags_high := by decide
    text_wf := by decide
    text_range := by decide
    fmark_lt := by decide
    fspace_lt := by decide
    nlen_le := by decide
    idx_le := by decide
    todo_belongs := by decide
    idle_ended := fun h => by cases h }

/-- The invariant holds in an idle block that has sent a message, holds flags and text, and is about to get a tick. -/
theorem sentState_inv : MachineInv sentState :=
  { cfg_valid := cfgT_valid
    btn_length := rfl
    trackers := reset_trackers
    flags_high := by decide
    text_wf := by decide
    text_range := by decide
    fmark_lt := by decide
    fspace_lt := by decide
    nlen_le := by decide
    idx_le := by decide
    todo_belongs := by decide
    idle_ended := fun _ => Or.inr rfl }

/-- StepRunsTheDecodedOperation, the host's clause, for the first and the last code. -/
theorem witness_step_runs_host :
    (idleWith []).cfg.valid = true ∧ (idleWith [.host 0x1FF0DEADBEEF]).mode = .idle ∧
    decode .host 0x1FF0DEADBEEF = .ok (.ben 0) ∧ decode .host 0xD00000000000 = .ok .init :=
  ⟨cfgT_valid, rfl, rfl, rfl⟩

/-- StepRunsTheDecodedOperation, the tick's clause: in an idle block, and behind a command that waits. -/
theorem witness_step_runs_tick : (idleWith [.tick 0b111]).inputs = [] ++ .tick 0b111 :: [] ∧
    (idleWith [.tick 0b111]).cfg.valid = true ∧
    ({ rttyState with inputs := [.host 0xD00000000000, .tick 1] } : State).mode ≠ .idle ∧
    ∀ x ∈ [Input.host 0xD00000000000], isHost x = true := ⟨rfl, cfgT_valid, by decide, by decide⟩

/-- StepRunsTheDecodedOperation, the encoder agent's clause: its turn first, and behind a command that waits. -/
theorem witness_step_runs_encoder :
    ({ rttyState with inputs := [.encoder] } : State).cfg.valid = true ∧
    (∃ i t, encoderNext { rttyState with inputs := [] } = .ok (some (i, t))) ∧
    ∃ i t, encoderNext { rttyState with inputs := [.host 0xD00000000000] } = .ok (some (i, t)) :=
  ⟨cfgT_valid, ⟨_, _, rfl⟩, _, _, rfl⟩

/-- StepRunsTheDecodedOperation, the clause of a waiting command and of no input. -/
theorem witness_step_runs_waiting :
    ({ rttyState with inputs := [.host 0xD00000000000] } : State).mode ≠ .idle ∧ rttyState.inputs = [] ∧
    (∃ i t, encoderNext { rttyState with inputs := [.host 0xD00000000000] } = .ok (some (i, t))) ∧
    ∃ i t, encoderNext rttyState = .ok (some (i, t)) := ⟨by decide, rfl, ⟨_, _, rfl⟩, ⟨_, _, rfl⟩⟩

/-- StepRefusesWhatTheSpecLeavesOut, every clause. -/
theorem witness_step_refuses :
    ({ State.reset with cfg := badCfg } : State).cfg.valid = false ∧
    ((idleWith [.host 0x000000000000]).mode = .idle ∧ codeField 0x000000000000 = 0x0) ∧
    codeField 0xE00000000000 = 0xE ∧ codeField 0xF00000000000 = 0xF ∧
    (({ rttyState with inputs := [.host 0xD00000000000, .reset] } : State).mode ≠ .idle ∧ rttyState.cfg.valid = true ∧
      ∀ x ∈ [Input.host 0xD00000000000], isHost x = true) ∧
    (State.reset.cfg.valid = true ∧ State.reset.mode = .idle ∧ State.reset.inputs = []) :=
  ⟨by decide, ⟨rfl, rfl⟩, rfl, rfl, ⟨by decide, cfgT_valid, by decide⟩, cfgT_valid, rfl, rfl⟩

/-- HostOperationsWaitWhileSending. -/
theorem witness_host_operations_wait : decode .host 0x1FF0DEADBEEF = .ok (.ben 0) ∧ decode .host 0xD00000000000 = .ok .init ∧
    rttyState.mode ≠ .idle ∧ pskState.mode ≠ .idle := ⟨rfl, rfl, by decide, by decide⟩

/-- HostBlockedUntilDiso: a step in the message, a tick behind a command that waits, and the step of the DISO. -/
theorem witness_host_blocked :
    (∃ t, step { rttyState with inputs := [.host 0xD00000000000] } = .next t ∧ t.mode = .rtty) ∧
    (∃ t, step { rttyState with inputs := [.host 0xD00000000000, .tick 1] } = .next t ∧ t.hist = 0b0001 ∧
      t.inputs = [.host 0xD00000000000] ∧ t.trace = []) ∧
    ∃ t, step { endingState with inputs := [.host 0xD00000000000] } = .next t ∧ t.mode = .idle :=
  ⟨⟨_, step_next _ _ rfl rfl, rfl⟩, ⟨_, step_next _ _ rfl rfl, rfl, rfl, rfl⟩, ⟨_, step_next _ _ rfl rfl, rfl⟩⟩

/-- InvariantHoldsAfterReset, with one button and with 15. -/
theorem witness_invariant_after_reset : Config.cfgT.valid = true ∧ cfg15.valid = true := ⟨cfgT_valid, cfg15_valid⟩

/-- StepKeepsInvariant, in an idle block and in both messages. -/
theorem witness_step_keeps_invariant :
    (∃ s t, MachineInv s ∧ s.mode = .idle ∧ step s = .next t) ∧ (∃ s t, MachineInv s ∧ s.mode = .rtty ∧ step s = .next t) ∧
    ∃ s t, MachineInv s ∧ s.mode = .psk ∧ step s = .next t :=
  ⟨⟨_, _, sentState_inv, rfl, step_next _ _ rfl rfl⟩, ⟨_, _, rttyState_inv, rfl, step_next _ _ rfl rfl⟩,
    ⟨_, _, pskState_inv, rfl, step_next _ _ rfl rfl⟩⟩

/-- StepNeverFaults, CountersFitTheirWidths and EncoderEmitsOnlyItsRecords: the invariant, idle and in both messages. -/
theorem witness_invariant : (∃ s, MachineInv s ∧ s.mode = .idle) ∧ (∃ s, MachineInv s ∧ s.mode = .rtty) ∧
    (∃ s, MachineInv s ∧ s.mode = .psk) ∧ (∃ s B, MachineInv s ∧ B ∈ s.btn) :=
  ⟨⟨_, sentState_inv, rfl⟩, ⟨_, rttyState_inv, rfl⟩, ⟨_, pskState_inv, rfl⟩,
    ⟨_, button true 0 false true 0 0, sentState_inv, List.mem_cons_self ..⟩⟩

/-- EncoderEmitsOnlyItsRecords: a state whose next event is of each kind. -/
theorem witness_encoder_events :
    (∃ t, encoderNext rttyState = .ok (some (.setf 2 0 7100975 3, t))) ∧
    (∃ t, encoderNext { rttyState with todo := [.act (.elem false 22)] } = .ok (some (.setf 2 0 7100805 3, t))) ∧
    (∃ t, encoderNext { rttyState with todo := [.act (.hold 20)] } = .ok (some (.wait 20, t))) ∧
    (∃ t, encoderNext { pskState with todo := [.act (.slot false)] } = .ok (some (.invp 2 true, t))) ∧
    ∃ t, encoderNext endingState = .ok (some (.diso, t)) := ⟨⟨_, rfl⟩, ⟨_, rfl⟩, ⟨_, rfl⟩, ⟨_, rfl⟩, ⟨_, rfl⟩⟩

/-- ConfigurationNeverChanges: a step and an instruction that complete. -/
theorem witness_configuration_never_changes :
    (∃ t, step (idleWith [.tick 0]) = .next t) ∧ ∃ t, exec (.tick ⟨false, false, 0⟩) State.reset = .next t :=
  ⟨⟨_, step_next _ _ rfl rfl⟩, ⟨_, rfl⟩⟩

/-- TraceGrowsByOneEventAtMost: a tick, an event of the encoder agent, and an INIT after a message. -/
theorem witness_trace_grows :
    (∃ t, step (idleWith [.tick 0]) = .next t ∧ t.trace = []) ∧
    (∃ t e, step rttyState = .next t ∧ t.trace = [e]) ∧
    ∃ t, step { idleWith [.host 0xD00000000000] with trace := [.diso] } = .next t ∧ t.trace = [] :=
  ⟨⟨_, step_next _ _ rfl rfl, rfl⟩, ⟨_, _, step_next _ _ rfl rfl, rfl⟩, ⟨_, step_next _ _ rfl rfl, rfl⟩⟩

/-- OnlyTxwrWritesText: a TXWR that changes TEXT, and a hardware reset. -/
theorem witness_only_txwr :
    (∃ t, step (idleWith [.host 0xC00F000000FF]) = .next t ∧ t.text ≠ (idleWith [.host 0xC00F000000FF]).text) ∧
    ∃ t, step (idleWith [.reset]) = .next t ∧ t.powerUps ≠ (idleWith [.reset]).powerUps :=
  ⟨⟨_, step_next _ _ rfl rfl, by decide⟩, ⟨_, step_next _ _ rfl rfl, by decide⟩⟩

/-- OnlyTicksMoveHistoryAndRaiseFlags: a step that takes no tick, though one is listed, with a flag still 1 after it. -/
theorem witness_only_ticks :
    ∃ t, step { idleWith [.host 0x400000000001, .tick 0] with evflags := 3 } = .next t ∧
      t.inputs.countP isTick = 1 ∧ t.evflags.getLsbD 1 = true :=
  ⟨_, step_next _ _ rfl rfl, by decide, by decide⟩

/-- DecodeOfEncodeIsTheInstruction, at the last well-formed operands. -/
theorem witness_decode_of_encode :
    (Instr.tick ⟨true, true, 0x7FFF⟩).wellFormed 15 = true ∧ (Instr.tick ⟨true, true, 1⟩).wellFormed 1 = true ∧
    (Instr.bpoll 14 true).wellFormed 15 = true ∧ (Instr.setf 15 3 (2 ^ 32 - 1) 63).wellFormed 1 = true ∧
    (Instr.wait (2 ^ 32 - 1)).wellFormed 1 = true ∧ (Instr.txwr 4095 255).wellFormed 1 = true := by decide

/-- OperationCodeAloneSelects: words of the first and the last code, with unused bits set. -/
theorem witness_operation_code : decode .host 0x1FF0DEADBEEF = .ok (.ben 0) ∧ decode .host 0xDFFFFFFFFFFF = .ok .init ∧
    decode .synth 0x1203006C5A2F = .ok (.setf 2 0 7100975 3) ∧ decode .synth 0x400000000014 = .ok (.wait 20) :=
  ⟨rfl, rfl, rfl, rfl⟩

/-- DecodeTableIsAntisymmetricOneStep: an admissible table with a pair that counts. -/
theorem witness_decode_table : Config.cfgT.valid = true ∧ (qpoll Config.cfgT ((0 : BitVec 2).setWidth 4) 1).2 ≠ .zero :=
  ⟨cfgT_valid, by decide⟩

/-- ReversedSamplesNegateDeltas, on the samples of V-Q4. -/
theorem witness_reversed : Config.cfgT.valid = true ∧ (0b1100 : BitVec 4).setWidth 2 = (0 : BitVec 2) ∧
    (0b0100 : BitVec 4).setWidth 2 = ([0, 1, 3, 2, 0] : List (BitVec 2)).getLast (by simp) := ⟨cfgT_valid, rfl, rfl⟩

/-- TickPollsDecoderAndEveryButton: one button and 15. -/
theorem witness_tick : (State.reset.btn.length = State.reset.cfg.nb ∧ State.reset.cfg.nb ≤ 15) ∧
    state15.btn.length = state15.cfg.nb ∧ state15.cfg.nb ≤ 15 ∧ ∃ B, state15.btn[14]? = some B :=
  ⟨⟨rfl, by decide⟩, rfl, by decide, _, rfl⟩

/-- TickAndEncoderEventCommute. -/
theorem witness_commute :
    (∃ s1, step { rttyState with inputs := [.tick 5, .encoder] } = .next s1) ∧
    ∃ s2, step { rttyState with inputs := [.encoder, .tick 5] } = .next s2 :=
  ⟨⟨_, step_next _ _ rfl rfl⟩, ⟨_, step_next _ _ rfl rfl⟩⟩

/-- BpollUpdatesEachField: the first button, and the last of 15. -/
theorem witness_bpoll : ((0 : BitVec 4).toNat < State.reset.cfg.nb ∧ ∃ B, State.reset.btn[(0 : BitVec 4).toNat]? = some B) ∧
    (14 : BitVec 4).toNat < state15.cfg.nb ∧ ∃ B, state15.btn[(14 : BitVec 4).toNat]? = some B :=
  ⟨⟨by decide, _, rfl⟩, by decide, _, rfl⟩

/-- BpollOfNoButtonDoesNothing: the first index that is no button, and the last. -/
theorem witness_bpoll_of_no_button : State.reset.cfg.nb ≤ (1 : BitVec 4).toNat ∧ state15.cfg.nb ≤ (15 : BitVec 4).toNat := by
  decide

/-- HeldButtonPressesOnceOnTickPbdebounce: the tick PBDEBOUNCE of a run of that length, and the ticks before. -/
theorem witness_held : 1 ≤ Config.cfgT.pbDebounce ∧
    (pollResults Config.cfgT 0 (List.replicate 3 (Config.cfgT.heldLevel.getLsbD 0)) (Button.afterReset Config.cfgT 0)).map
      (fun p => p.pressed) = [false, false, true] := by decide

/-- LongPressRepeatsEveryThreshold: a tracker with LPC 0 and a run past the second threshold. -/
theorem witness_long_press : 1 ≤ Config.cfgT.pushButtonReset ∧ (Button.afterReset Config.cfgT 0).lpc = 0 ∧
    ∃ p, (pollResults Config.cfgT 0 (List.replicate 17 (Config.cfgT.heldLevel.getLsbD 0))
      (Button.afterReset Config.cfgT 0))[15]? = some p ∧ p.lpr = true := ⟨by decide, rfl, ⟨false, true⟩, by decide, rfl⟩

/-- PushedClearsAfterPbrelaxReleases: PUSHED after one released tick and after two. -/
theorem witness_pushed : 1 ≤ Config.cfgT.pbRelax ∧ (button false 0 true false 3 2).pushed = true ∧
    (button false 0 true false 3 2).rlx = Config.cfgT.pbRelax := by decide

/-- DisabledButtonNeverPresses: a disabled tracker, pushed or not, whose pin is held. -/
theorem witness_disabled : (button false 0 true false 3 2).en = false ∧ (button true 0 false false 0 0).en = false ∧
    (button true 0 false false 0 0).pushed = false ∧
    (⟨false, false⟩ : Press) ∈ pollResults Config.cfgT 0 [false, false, false] (button true 0 false false 0 0) := by decide

/-- PressOnlyWhenArmed: a press. -/
theorem witness_press : (bpoll Config.cfgT 0 false (button false 2 false true 2 0)).2.pressed = true ∧
    (button false 2 false true 2 0).pushed = false ∧
    (bpoll Config.cfgT 0 false (button false 2 false true 2 0)).1.pushed = true := by decide

/-- Every statement about a host operation of an idle block: State.reset is idle; the button of BEN and BDIS exists or
not. -/
theorem witness_idle : State.reset.mode = .idle ∧ (idleWith [.reset]).mode = .idle ∧ State.reset.cfg.valid = true ∧
    (0 = (0 : BitVec 4).toNat ∧ 0 < State.reset.cfg.nb) ∧ ¬ (1 : BitVec 4).toNat < State.reset.cfg.nb :=
  ⟨rfl, rfl, cfgT_valid, ⟨rfl, by decide⟩, by decide⟩

/-- FxchgReadsAndClearsAtOnce: a flag that the operation clears. -/
theorem witness_fxchg : (0b0110 : Word32).getLsbD 1 = true ∧
    (clearFlags State.reset.cfg.nb 0b0110 0x3).getLsbD 1 = false := by decide

/-- BlkupFindsTheFirstMatch: a character of the table at its last code, and one that is in no entry. -/
theorem witness_blkup : Config.cfgT.baudotLtrs[30]? = some (0x56 : Byte) ∧ Config.cfgT.baudotLtrs[0]? = some (0 : Byte) ∧
    ∀ j ≤ 32, Config.cfgT.baudotLtrs[j]? ≠ some (0x30 : Byte) := by decide

/-- BrevReadsTheEntry: the codes 0, LTRS_CODE and FIGS_CODE. -/
theorem witness_brev : (31 : BitVec 5) = State.reset.cfg.ltrsCode ∧ (27 : BitVec 5) = State.reset.cfg.figsCode := ⟨rfl, rfl⟩

/-- BaudotRoundTrip: a byte of a table, and a code with an entry. -/
theorem witness_baudot_round_trip : Config.cfgT.valid = true ∧ (0x45 : Byte) ≠ 0 ∧ (0x45 : Byte) ∈ Config.cfgT.baudot .letters ∧
    readBaudot Config.cfgT .letters (30 : BitVec 5).toNat ≠ 0 := ⟨cfgT_valid, by decide, by decide, by decide⟩

/-- VlkupReadsTheWord and VaricodeRoundTrip: the characters on both sides of 0x80. -/
theorem witness_vlkup : (0x7F : Byte).toNat < 0x80 ∧ (0x7F : Byte).toNat ≤ 127 ∧ 0x80 ≤ (0x80 : Byte).toNat := by decide

/-- VrevFindsTheCharacter: a word of the table, and one that is in no entry. -/
theorem witness_vrev : Config.cfgT.varicode[127]? = some (0x02B7 : VWord) ∧
    ∀ ch < 128, Config.cfgT.varicode[ch]? ≠ some (0x0002 : VWord) := by decide +kernel

/-- TxwrWritesOneByte: the last address, and the first that does not exist. -/
theorem witness_txwr : Memory.wf rttyState.text = true ∧ (15 : BitVec 12).toNat < State.reset.cfg.maxLen ∧
    State.reset.cfg.maxLen ≤ (16 : BitVec 12).toNat := by decide

/-- HardwareResetWhileIdle. -/
theorem witness_hardware_reset : (idleWith [.reset]).cfg.valid = true ∧ (idleWith [.reset]).mode = .idle ∧
    (idleWith [.reset]).inputs = .reset :: [] := ⟨cfgT_valid, rfl, rfl⟩

/-- SendrIssuesOrRefuses: the last base whose mark fits, the next one, and a base whose space frequency is negative in a
configuration without offset. -/
theorem witness_sendr :
    hertzFits Config.cfgT (markHertz Config.cfgT 0xFFFFFC30) = true ∧
    hertzFits Config.cfgT (spaceHertz Config.cfgT 0xFFFFFC30) = true ∧
    hertzFits Config.cfgT (markHertz Config.cfgT 0xFFFFFC31) = false ∧
    hertzFits Config.cfgT (spaceHertz Config.cfgT 0xFFFFFC31) = true ∧
    hertzFits { Config.cfgT with txOffset := 0 } (spaceHertz { Config.cfgT with txOffset := 0 } 0) = false := by decide

/-- SendpIssuesOrRefuses: the last base whose carrier fits, and the next one. -/
theorem witness_sendp : hertzFits Config.cfgT (markHertz Config.cfgT 0xFFFFFC30) = true ∧
    hertzFits Config.cfgT (markHertz Config.cfgT 0xFFFFFC31) = false := by decide

/-- SendrSendsTheWholeMessage and SendpSendsTheWholeMessage: an idle block that a message is issued to. -/
theorem witness_sends : State.reset.cfg.valid = true ∧ State.reset.mode = .idle ∧ State.reset.inputs = [] ∧
    (∃ t, exec (.sendr 1 7100000) State.reset = .next t) ∧ ∃ t, exec (.sendp 1 7100000) State.reset = .next t :=
  ⟨cfgT_valid, rfl, rfl, ⟨_, rfl⟩, ⟨_, rfl⟩⟩

/-- TicksDoNotChangeTheTrace: a message of each kind, with a tick before every event and one after the last. -/
theorem witness_ticks (n : Nat) :
    (∃ s t, MachineInv s ∧ s.mode = .idle ∧ exec (.sendr 1 7100000) s = .next t) ∧
    (∃ s t, MachineInv s ∧ s.mode = .idle ∧ exec (.sendp 1 7100000) s = .next t) ∧
    (∀ x ∈ (List.replicate n [Input.tick 1, .encoder]).flatten ++ [Input.tick 0], x = .encoder ∨ ∃ pin, x = .tick pin) ∧
    ((List.replicate n [Input.tick 1, .encoder]).flatten ++ [Input.tick 0]).count .encoder = n := by
  refine ⟨⟨_, _, sentState_inv, rfl, rfl⟩, ⟨_, _, sentState_inv, rfl, rfl⟩, ?_, ?_⟩
  · intro x hx
    simp only [List.mem_append, List.mem_flatten, List.mem_replicate, List.mem_cons, List.not_mem_nil, or_false] at hx
    rcases hx with ⟨l, ⟨-, rfl⟩, hl⟩ | rfl
    · simp only [List.mem_cons, List.not_mem_nil, or_false] at hl
      rcases hl with rfl | rfl
      · exact .inr ⟨_, rfl⟩
      · exact .inl rfl
    · exact .inr ⟨_, rfl⟩
  · induction n with
    | zero => rfl
    | succ n ih =>
      rw [List.replicate_succ, List.flatten_cons, List.append_assoc, List.count_append, ih]
      show 1 + n = n + 1
      omega

/-- FrameShape: a code of each kind of stop element. -/
theorem witness_frame_shape : (0 : BitVec 5).getLsbD 4 = false ∧ (16 : BitVec 5).getLsbD 4 = true := by decide

/-- InvpOperandsAlternate: the first two operands of the empty message. -/
theorem witness_invp_operands : (invpOperands (pskMessage Config.cfgT 7100975 []))[0]? = some true ∧
    (invpOperands (pskMessage Config.cfgT 7100975 []))[1]? = some false := by decide

/-- EveryOperationCompletes, both ways: a SENDR that completes, and one that is refused for a mark that does not fit
(V-R14). -/
theorem witness_every_operation_completes : (∃ t, exec (.sendr 1 7100000) State.reset = .next t) ∧
    exec (.sendr 1 0xFFFFFFFF) State.reset = .refused (.freqOutOfRange 4294968270) ∧ ¬ (4294968270 : Int) < 2 ^ 32 :=
  ⟨⟨_, rfl⟩, rfl, by decide⟩

/-- CharacterCodes: the first and last letter, the first and last digit, an unmapped character, a space and a NUL, with
the codes of 95_test_vectors.md V-L1 and V-R2 to V-R13. -/
theorem witness_character_codes : Config.cfgT.valid = true ∧
    charCodes Config.cfgT .letters 0x41 = ([3], .letters) ∧ charCodes Config.cfgT .figures 0x61 = ([31, 3], .letters) ∧
    charCodes Config.cfgT .letters 0x5A = ([17], .letters) ∧ charCodes Config.cfgT .figures 0x7A = ([31, 17], .letters) ∧
    rttyCodes Config.cfgT [0x30] = [31, 31, 31, 31, 27, 22] ∧ rttyCodes Config.cfgT [0x39] = [31, 31, 31, 31, 27, 24] ∧
    (classOf 0x39 = .other ∧ (0x39 : Byte) ∈ Config.cfgT.baudotFigs ∧ (0x39 : Byte) ≠ 0) ∧
    (classOf 0x7E = .other ∧ (0x7E : Byte) ∉ Config.cfgT.baudotFigs) ∧
    charCodes Config.cfgT .figures 0x20 = ([4, 31], .letters) ∧ charCodes Config.cfgT .letters 0x00 = ([4, 31], .letters) := by
  refine ⟨cfgT_valid, ?_⟩
  decide

/-- WaitSums and PskBitsDecodeBack: an admissible configuration, with a character that is sent and one that is not. -/
theorem witness_psk_bits : Config.cfgT.valid = true ∧
    ([0x61, 0x80] : List Byte).filter (fun ch => decide (ch.toNat < 128)) = [0x61] := ⟨cfgT_valid, by decide⟩

end Sys2Proof.Tests
end

section
/-! The family 10_state.md: the invariant of R42 holds after reset and every step keeps it, the registers held as numbers
fit their widths, TRACE grows by one event a step, and only ticks move HIST and raise flags. -/

namespace Sys2Proof.Proofs

open Sys2Proof.Machine Sys2Proof.Safety Sys2Proof.Laws

/-! ## The flags of the register -/

/-- The unused bits of EVFLAGS are 0 (10_state.md R29), read bit by bit. -/
theorem flags_high_iff (nb : Nat) (ev : Word32) :
    ev &&& ~~~flagMask nb = 0 ↔ ∀ n, ev.getLsbD n = true → n < 2 + 2 * nb := by
  constructor
  · intro h n hn
    have hlt : n < 32 := BitVec.lt_of_getLsbD hn
    have hbit : (ev &&& ~~~flagMask nb).getLsbD n = (0 : Word32).getLsbD n := by rw [h]
    rw [BitVec.getLsbD_and, BitVec.getLsbD_not, getLsbD_flagMask] at hbit
    simpa only [hn, hlt, decide_true, Bool.true_and, BitVec.ofNat_eq_ofNat, BitVec.getLsbD_zero, Bool.not_eq_false',
      decide_eq_true_eq] using hbit
  · intro h
    refine BitVec.eq_of_getLsbD_eq fun n hlt => ?_
    by_cases hn : ev.getLsbD n = true
    · simp [getLsbD_flagMask, hn, hlt, h n hn]
    · simp [hn]

/-- A flag that FCLR or FXCHG leaves was there before (42_event_flags.md R175, R176). -/
theorem getLsbD_of_clearFlags (nb : Nat) (ev mask : Word32) (n : Nat)
    (h : (clearFlags nb ev mask).getLsbD n = true) : ev.getLsbD n = true := by
  rw [getLsbD_clearFlags, Bool.and_eq_true] at h
  exact h.1

/-- The flags of a tick are bits of the register: those of the rotation and of the buttons below NB. -/
theorem flags_high_tick (c : Config) (pin : Pin) (ev : Word32) (d : Delta) (bs : List Button)
    (hlen : bs.length = c.nb) (hnb : c.nb ≤ 15) (h : ev &&& ~~~flagMask c.nb = 0) :
    (ev ||| rotationFlags d ||| (pollButtons c pin c.nb 0 bs).2) &&& ~~~flagMask c.nb = 0 := by
  rw [flags_high_iff] at h ⊢
  intro n hn
  simp only [BitVec.getLsbD_or, Bool.or_eq_true] at hn
  rcases hn with (hold | hrot) | hbtn
  · exact h n hold
  · have := (getLsbD_rotationFlags d n).1 hrot
    omega
  · rw [← hlen, getLsbD_pollButtons c pin 0 bs (by omega)] at hbtn
    obtain ⟨i, B, hi, hk⟩ := hbtn
    have hlt : i < bs.length := (List.getElem?_eq_some_iff.1 hi).1
    omega

/-! ## What a host operation leaves -/

/-- The states in which a host operation can leave an idle block: it returns a result only, or writes EN of one button,
clears flags, writes one byte of TEXT, issues a message whose frequencies fit, or is INIT (30_encoding.md R96). -/
inductive HostEffect (i : Instr) (s : State) : State → Prop
  | result (r : Option Word32) : HostEffect i s { s with res := r }
  | enable (b : Nat) (v : Bool) : HostEffect i s { onButton s b (fun B => { B with en := v }) with res := none }
  | clear (mask : Word32) (r : Option Word32) :
      HostEffect i s { s with evflags := clearFlags s.cfg.nb s.evflags mask, res := r }
  | write (addr : Nat) (v : Byte) : HostEffect i s { writeText s addr v with res := none }
  | rtty (len : BitVec 12) (mark space : Int) (hmark : hertzFits s.cfg mark = true)
      (hspace : hertzFits s.cfg space = true) :
      HostEffect i s { s with nlen := effectiveLength s.cfg len, fmark := mark.toNat, fspace := space.toNat, idx := 0,
                              mode := .rtty, todo := rttyPreamble s.cfg, res := none }
  | psk (len : BitVec 12) (carrier : Int) (hcar : hertzFits s.cfg carrier = true) :
      HostEffect i s { s with nlen := effectiveLength s.cfg len, fmark := carrier.toNat, idx := 0, mode := .psk,
                              todo := pskPreamble s.cfg, res := none }
  | init (hi : i = .init) :
      HostEffect i s { State.afterReset s.cfg s.powerUps with text := s.text, inputs := s.inputs }

/-- The host port decodes to the rows of the host table only (30_encoding.md R96, R106). -/
theorem tableCode_of_decode_host (w : Word48) (i : Instr) (h : decode .host w = .ok i) :
    ∃ code, tableCode i = some (.host, code) := by
  simp only [decode, decodeCmd] at h
  split at h <;> cases h <;> exact ⟨_, rfl⟩

/-- SENDR in an idle block issues the message, if it answers a next state (43_baudot_rtty.md R205). -/
theorem hostEffect_sendr (len : BitVec 12) (base : Word32) (s t : State) (hm : s.mode = .idle)
    (h : exec (.sendr len base) s = .next t) : HostEffect (.sendr len base) s t := by
  simp only [exec, execSendr, whenIdle_idle _ _ hm, Bool.not_eq_true'] at h
  split at h
  · cases h
  · split at h
    · cases h
    · rename_i hmark hspace
      cases h
      exact .rtty len _ _ (by simpa using hmark) (by simpa using hspace)

/-- SENDP in an idle block issues the message, if it answers a next state (44_varicode_psk31.md R243). -/
theorem hostEffect_sendp (len : BitVec 12) (base : Word32) (s t : State) (hm : s.mode = .idle)
    (h : exec (.sendp len base) s = .next t) : HostEffect (.sendp len base) s t := by
  simp only [exec, execSendp, whenIdle_idle _ _ hm, Bool.not_eq_true'] at h
  split at h
  · cases h
  · rename_i hcar
    cases h
    exact .psk len _ (by simpa using hcar)

/-- Everything a command of the host port can do to an idle block. -/
theorem hostEffect_of_exec (w : Word48) (i : Instr) (s t : State) (hd : decode .host w = .ok i) (hm : s.mode = .idle)
    (h : exec i s = .next t) : HostEffect i s t := by
  obtain ⟨code, hcode⟩ := tableCode_of_decode_host w i hd
  have answers (k : Host.Outcome State Fault Refusal) (hk : whenIdle s k = .next t) : k = .next t := by
    rwa [whenIdle_idle s k hm] at hk
  cases i with
  | ben b => cases answers _ h; exact .enable _ _
  | bdis b => cases answers _ h; exact .enable _ _
  | frd => cases answers _ h; exact .result _
  | fclr mask => cases answers _ h; exact .clear _ _
  | fxchg mask => cases answers _ h; exact .clear _ _
  | blkup sel ch => cases answers _ h; exact .result _
  | brev sel code => cases answers _ h; exact .result _
  | sendr len base => exact hostEffect_sendr len base s t hm h
  | vlkup ch => cases answers _ h; exact .result _
  | vrev word => cases answers _ h; exact .result _
  | sendp len base => exact hostEffect_sendp len base s t hm h
  | txwr addr byte => cases answers _ h; exact .write _ _
  | init => cases answers _ h; exact .init rfl
  | tick pin => cases hcode
  | qpoll ab => cases hcode
  | bpoll b raw => cases hcode
  | setf ch pll f drv => cases hcode
  | invp ch inv => cases hcode
  | diso => cases hcode
  | wait d => cases hcode

/-! ## The invariant at reset -/

/-- A tracker right after reset (70_reset_and_hazards.md R320). -/
theorem trackerInv_afterReset (c : Config) (b : Nat) : TrackerInv c (Button.afterReset c b) :=
  { dbc_le := Nat.zero_le _
    lpc_le := Nat.zero_le _
    rlx_le := Nat.zero_le _
    relaxed := fun _ => rfl
    relaxing := fun h => by cases h }

/-- The invariant after a hardware reset (10_state.md R42, 70_reset_and_hazards.md R320). -/
theorem machineInv_afterReset (c : Config) (n : Nat) (hv : c.valid = true) : MachineInv (State.afterReset c n) :=
  { cfg_valid := hv
    btn_length := by simp
    trackers := fun B hB => by
      obtain ⟨b, -, rfl⟩ := List.mem_map.1 hB
      exact trackerInv_afterReset c b
    flags_high := by simp
    text_wf := rfl
    text_range := fun x hx => by cases hx
    fmark_lt := Nat.two_pow_pos _
    fspace_lt := Nat.two_pow_pos _
    nlen_le := Nat.zero_le _
    idx_le := Nat.le_refl _
    todo_belongs := fun x hx => by cases hx
    idle_ended := fun _ => .inl rfl }

/-- The test configuration CFG-T is admissible (00_scope.md R6). -/
theorem cfgT_valid : Config.cfgT.valid = true := by decide +kernel

/-- Settles O6, field by field: every register the invariant bounds is 0 or empty after reset. -/
theorem invariantHoldsAfterReset : Obligations.InvariantHoldsAfterReset :=
  machineInv_afterReset

/-- Settles O5: State.reset is the reset state of CFG-T, which is admissible. -/
theorem invariantHoldsAtReset : Obligations.InvariantHoldsAtReset :=
  machineInv_afterReset Config.cfgT 0 cfgT_valid

/-! ## The invariant and the host's operations -/

/-- The invariant does not look at what has yet to arrive. -/
theorem machineInv_withInputs (s : State) (ins : List Input) (h : MachineInv s) : MachineInv { s with inputs := ins } :=
  { h with }

/-- The invariant does not look at the last result (30_encoding.md R97). -/
theorem machineInv_withRes (s : State) (r : Option Word32) (h : MachineInv s) : MachineInv { s with res := r } :=
  { h with }

/-- EN is in none of a tracker's bounds (10_state.md R42). -/
theorem trackerInv_withEn (c : Config) (B : Button) (v : Bool) (h : TrackerInv c B) :
    TrackerInv c { B with en := v } :=
  { h with }

/-- A change of one tracker's record changes BTN only. -/
theorem onButton_frame (s : State) (b : Nat) (f : Button → Button) :
    onButton s b f = { s with btn := (onButton s b f).btn } := by
  unfold onButton
  split <;> rfl

/-- BEN and BDIS keep the invariant (41_button.md R152, R153). -/
theorem machineInv_onButton_en (s : State) (b : Nat) (v : Bool) (h : MachineInv s) :
    MachineInv (onButton s b (fun B => { B with en := v })) := by
  rw [onButton_frame]
  refine { h with btn_length := (onButton_length s b _).trans h.btn_length, trackers := fun B hB => ?_ }
  rcases mem_onButton s b _ B hB with hB | ⟨B0, hB0, rfl⟩
  · exact h.trackers B hB
  · exact trackerInv_withEn s.cfg B0 v (h.trackers B0 hB0)

/-- The bits a clear leaves keep to the register. -/
theorem machineInv_clearFlags (s : State) (mask : Word32) (h : MachineInv s) :
    MachineInv { s with evflags := clearFlags s.cfg.nb s.evflags mask } :=
  { h with
    flags_high := (flags_high_iff _ _).2 fun n hn =>
      (flags_high_iff _ _).1 h.flags_high n (getLsbD_of_clearFlags _ _ _ n hn) }

/-- TXWR keeps the canonical form and the range of TEXT (20_memory.md R69). -/
theorem machineInv_writeText (s : State) (addr : Nat) (v : Byte) (h : MachineInv s) :
    MachineInv (writeText s addr v) := by
  by_cases hlt : addr < s.cfg.maxLen
  · rw [writeText, if_pos hlt]
    refine { h with text_wf := wf_write _ _ _ h.text_wf, text_range := fun x hx => ?_ }
    rcases mem_write _ _ _ _ hx with rfl | hx
    · exact hlt
    · exact h.text_range x hx
  · rwa [writeText_outside s addr v (by omega)]

/-- INIT keeps the invariant: what it leaves is the reset state with TEXT kept (46_host_port.md R282). -/
theorem machineInv_init (s : State) (h : MachineInv s) :
    MachineInv { State.afterReset s.cfg s.powerUps with text := s.text, inputs := s.inputs } :=
  { machineInv_afterReset s.cfg s.powerUps h.cfg_valid with text_wf := h.text_wf, text_range := h.text_range }

/-! ## Positions of the sequencer -/

/-- A frame consists of elements (43_baudot_rtty.md R209). -/
theorem belongs_of_mem_frame (c : Config) (code : BitVec 5) (t : Machine.Task) (h : t ∈ frame c code) :
    belongs .rtty t = true := by
  rw [frame_eq_map] at h
  obtain ⟨p, -, rfl⟩ := List.mem_map.1 h
  rfl

/-- Slots belong to PSK31 (44_varicode_psk31.md R246). -/
theorem belongs_of_mem_slots (bits : List Bool) (t : Machine.Task) (h : t ∈ slots bits) : belongs .psk t = true := by
  obtain ⟨b, -, rfl⟩ := List.mem_map.1 h
  rfl

/-- CHARSTEP consists of frames and shift-state writes (43_baudot_rtty.md R211). -/
theorem belongs_of_mem_charStep (c : Config) (sh : Shift) (ch : Byte) (t : Machine.Task) (h : t ∈ charStep c sh ch) :
    belongs .rtty t = true := by
  have of_frame (code : BitVec 5) : t ∈ frame c code → belongs .rtty t = true := belongs_of_mem_frame c code t
  have of_shift (v : Shift) : t ∈ [Machine.Task.setShift v] → belongs .rtty t = true := by
    intro ht
    rw [List.mem_singleton.1 ht]
    rfl
  simp only [charStep] at h
  split at h
  · rcases List.mem_append.1 h with h | h
    · split at h
      · exact (List.mem_append.1 h).elim (of_frame _) (of_shift _)
      · cases h
    · exact of_frame _ h
  · rcases List.mem_append.1 h with h | h
    · exact (List.mem_append.1 h).elim (of_frame _) (of_frame _)
    · exact of_shift _ h

/-- A character's body belongs to the procedure that runs. -/
theorem belongs_of_mem_charTasks (s : State) (ch : Byte) (t : Machine.Task) (h : t ∈ charTasks s ch) :
    belongs s.mode t = true := by
  unfold charTasks at h
  split at h
  · cases h
  · rename_i hm
    rw [hm]
    exact belongs_of_mem_charStep _ _ _ t h
  · rename_i hm
    rw [hm]
    split at h
    · exact belongs_of_mem_slots _ t h
    · cases h

/-- Both procedures end a character with `IDX <- IDX + 1` and can wait. -/
theorem belongs_of_busy (m : Mode) (hm : m ≠ .idle) (d : Nat) :
    belongs m .nextChar = true ∧ belongs m (.act (.hold d)) = true := by
  cases m with
  | idle => exact absurd rfl hm
  | rtty => exact ⟨rfl, rfl⟩
  | psk => exact ⟨rfl, rfl⟩

/-- The position a SENDR starts from: the idle preamble finishes no character (43_baudot_rtty.md R207, R208). -/
theorem rttyPreamble_position (c : Config) :
    charsEnding (rttyPreamble c) = 0 ∧ ∀ t ∈ rttyPreamble c, belongs .rtty t = true := by
  constructor
  · simp [rttyPreamble, Config.nSync, List.replicate_succ, charsEnding_append, charsEnding]
  · intro t ht
    simp only [rttyPreamble, List.mem_append, List.mem_cons, List.not_mem_nil, or_false, List.mem_flatten,
      List.mem_replicate] at ht
    rcases ht with ((rfl | rfl) | ⟨l, ⟨-, rfl⟩, ht⟩) | rfl
    · rfl
    · rfl
    · exact belongs_of_mem_frame _ _ t ht
    · rfl

/-- The position a SENDP starts from: the reversals and the NUL symbols finish no character (44_varicode_psk31.md
R248). -/
theorem pskPreamble_position (c : Config) :
    charsEnding (pskPreamble c) = 0 ∧ ∀ t ∈ pskPreamble c, belongs .psk t = true := by
  constructor
  · simp [pskPreamble, Config.nNul, List.replicate_succ, charsEnding_append, charsEnding]
  · intro t ht
    simp only [pskPreamble, List.mem_append, List.mem_singleton, List.mem_flatten, List.mem_replicate] at ht
    rcases ht with (rfl | ht) | ⟨l, ⟨-, rfl⟩, ht⟩
    · rfl
    · exact belongs_of_mem_slots _ t ht
    · exact belongs_of_mem_slots _ t ht

/-! ## The invariant and the issue of a message -/

/-- A frequency that fits FREQ_W is below its bound as a register (30_encoding.md R102). -/
theorem toNat_lt_of_hertzFits (c : Config) (f : Int) (h : hertzFits c f = true) : f.toNat < 2 ^ c.freqW := by
  obtain ⟨h0, hlt⟩ := (hertzFits_iff c f).1 h
  have : ((2 ^ c.freqW : Nat) : Int) = 2 ^ c.freqW := by push_cast; rfl
  omega

/-- A message is never longer than TEXT (30_encoding.md R103). -/
theorem effectiveLength_le (c : Config) (len : BitVec 12) : effectiveLength c len ≤ c.maxLen := Nat.min_le_right _ _

/-- Every host operation of an idle block keeps the invariant. -/
theorem HostEffect.machineInv {i : Instr} {s t : State} (he : HostEffect i s t) (h : MachineInv s) : MachineInv t := by
  cases he with
  | result r => exact machineInv_withRes s r h
  | enable b v => exact machineInv_withRes _ none (machineInv_onButton_en s b v h)
  | clear mask r => exact machineInv_withRes _ r (machineInv_clearFlags s mask h)
  | write addr v => exact machineInv_withRes _ none (machineInv_writeText s addr v h)
  | rtty len mark space hmark hspace =>
    obtain ⟨hnone, hbelongs⟩ := rttyPreamble_position s.cfg
    exact
      { h with
        fmark_lt := toNat_lt_of_hertzFits _ _ hmark
        fspace_lt := toNat_lt_of_hertzFits _ _ hspace
        nlen_le := effectiveLength_le _ _
        idx_le := by simp [hnone]
        todo_belongs := hbelongs
        idle_ended := fun hm => by cases hm }
  | psk len carrier hcar =>
    obtain ⟨hnone, hbelongs⟩ := pskPreamble_position s.cfg
    exact
      { h with
        fmark_lt := toNat_lt_of_hertzFits _ _ hcar
        nlen_le := effectiveLength_le _ _
        idx_le := by simp [hnone]
        todo_belongs := hbelongs
        idle_ended := fun hm => by cases hm }
  | init _ => exact machineInv_init s h

/-! ## The invariant and the tick -/

/-- TICK keeps the invariant (40_quadrature.md R130). -/
theorem machineInv_tick (pin : Pin) (s t : State) (h : MachineInv s) (ht : exec (.tick pin) s = .next t) :
    MachineInv t := by
  obtain ⟨-, hnb, hdeb, hlp, hrlx, -⟩ := bounds_of_valid s.cfg h.cfg_valid
  cases ht
  refine
    { h with
      btn_length := (pollButtons_length ..).trans h.btn_length
      trackers := fun B hB => ?_
      flags_high := flags_high_tick _ _ _ _ _ h.btn_length hnb h.flags_high }
  obtain ⟨i, hi⟩ := List.mem_iff_getElem?.1 hB
  rw [← h.btn_length, pollButtons_getElem?, Option.map_eq_some_iff] at hi
  obtain ⟨B0, hB0, rfl⟩ := hi
  exact trackerInv_bpoll _ _ _ _ hdeb hlp hrlx (h.trackers B0 (List.mem_of_getElem? hB0))

/-! ## The invariant and the encoder agent -/

/-- The register writes and the passed-over characters before the next event keep the invariant, and they end at an act or
at the end of the message (43_baudot_rtty.md R215, 44_varicode_psk31.md R249). -/
theorem encoderNext_reaches (s : State) (h : MachineInv s) (hm : s.mode ≠ .idle) :
    ∃ s', MachineInv s' ∧ s'.mode = s.mode ∧ encoderNext s = encoderNext s' ∧
      ((∃ a ts, s'.todo = .act a :: ts) ∨ (s'.todo = [] ∧ s'.nlen ≤ s'.idx)) := by
  have hidx := h.idx_le
  have hbel := h.todo_belongs
  cases ht : s.todo with
  | nil =>
    rw [ht] at hidx
    simp only [charsEnding] at hidx
    by_cases hlt : s.idx < s.nlen
    · have hbody : MachineInv { s with todo := charTasks s (s.textAt s.idx) ++ [.nextChar] } :=
        { h with
          idx_le := by simp [charsEnding_append, charsEnding]; omega
          todo_belongs := fun t htm => by
            rcases List.mem_append.1 htm with htm | htm
            · exact belongs_of_mem_charTasks s _ t htm
            · rw [List.mem_singleton.1 htm]
              exact (belongs_of_busy s.mode hm 0).1 }
      rw [encoderNext_char s hm ht hlt h.nlen_le]
      exact encoderNext_reaches _ hbody hm
    · exact ⟨s, h, rfl, rfl, .inr ⟨ht, by omega⟩⟩
  | cons x ts =>
    rw [ht] at hidx hbel
    have hts : ∀ t ∈ ts, belongs s.mode t = true := fun t htm => hbel t (List.mem_cons_of_mem _ htm)
    cases x with
    | act a => exact ⟨s, h, rfl, rfl, .inl ⟨a, ts, ht⟩⟩
    | setShift v =>
      have hnext : MachineInv { s with todo := ts, shiftst := v } := { h with idx_le := hidx, todo_belongs := hts }
      rw [encoderNext_setShift s v ts hm ht]
      exact encoderNext_reaches _ hnext hm
    | nextChar =>
      simp only [charsEnding] at hidx
      have hnext : MachineInv { s with todo := ts, idx := s.idx + 1 } :=
        { h with idx_le := by simp only; omega, todo_belongs := hts }
      rw [encoderNext_nextChar s ts hm ht]
      exact encoderNext_reaches _ hnext hm
termination_by (s.nlen - (s.idx + charsEnding s.todo), s.todo.length)
decreasing_by
  · simp [Prod.lex_def, ht, charsEnding, charsEnding_append]; omega
  · simp [Prod.lex_def, ht, charsEnding]
  · simp [Prod.lex_def, ht, charsEnding]; omega

/-- An act that is taken off the position leaves the rest of it in place. -/
theorem machineInv_popAct (s : State) (a : Act) (ts : List Machine.Task) (h : MachineInv s)
    (ht : s.todo = .act a :: ts) : MachineInv { s with todo := ts } := by
  have hidx := h.idx_le
  have hbel := h.todo_belongs
  rw [ht] at hidx hbel
  exact { h with idx_le := hidx, todo_belongs := fun t htm => hbel t (List.mem_cons_of_mem _ htm) }

/-- The wait that follows a tone change or a phase inversion fits the position (43_baudot_rtty.md R210,
44_varicode_psk31.md R246). -/
theorem machineInv_hold (s : State) (d : Nat) (h : MachineInv s) (hm : s.mode ≠ .idle) :
    MachineInv { s with todo := .act (.hold d) :: s.todo } :=
  { h with
    idx_le := h.idx_le
    todo_belongs := fun t ht => by
      rcases List.mem_cons.1 ht with rfl | ht
      · exact (belongs_of_busy s.mode hm d).2
      · exact h.todo_belongs t ht }

/-- The register writes of an act keep the invariant. -/
theorem machineInv_fire (a : Act) (s : State) (h : MachineInv s) (hm : s.mode ≠ .idle) : MachineInv (fire a s).2 := by
  cases a with
  | rttyCarrier => exact { h with }
  | pskCarrier => exact { h with }
  | hold d => exact h
  | elem tone t =>
    simp only [fire]
    split
    · exact { machineInv_hold s (t - s.cfg.tSwitch) h hm with }
    · exact h
  | slot bit =>
    simp only [fire]
    split
    · exact h
    · exact { machineInv_hold s (s.cfg.tPbit - s.cfg.tPswitch) h hm with }

/-- An event in the middle of a message keeps the invariant. -/
theorem machineInv_emit (s : State) (e : Event) (h : MachineInv s) (hm : s.mode ≠ .idle) : MachineInv (emit s e) :=
  { h with idle_ended := fun hi => absurd hi hm }

/-- The DISO after the last character keeps the invariant: the block is idle and TRACE ends in DISO (10_state.md R42). -/
theorem machineInv_diso (s : State) (h : MachineInv s) (ht : s.todo = []) :
    MachineInv (emit { s with mode := .idle } .diso) :=
  { h with
    todo_belongs := fun t htm => by
      rw [emit_todo, ht] at htm
      cases htm
    idle_ended := fun _ => .inr (by simp) }

/-- Every event of the encoder agent keeps the invariant. -/
theorem machineInv_encoder (s u t : State) (i : Instr) (h : MachineInv s) (hn : encoderNext s = .ok (some (i, u)))
    (he : exec i u = .next t) : MachineInv t := by
  obtain ⟨hm, -⟩ := encoderNext_cases s u i hn
  obtain ⟨s', h', hmode, hreach, ⟨a, ts, ht⟩ | ⟨ht, hend⟩⟩ := encoderNext_reaches s h hm
  · have hm' : s'.mode ≠ .idle := hmode ▸ hm
    obtain ⟨e, hexec⟩ := exec_encoderNext s u i hn
    rw [hreach, encoderNext_act s' a ts hm' ht] at hn
    obtain rfl : (fire a { s' with todo := ts }).2 = u := congrArg Prod.snd (Option.some.inj (Except.ok.inj hn))
    obtain rfl : emit _ e = t := by simpa [hexec] using he
    exact machineInv_emit _ e (machineInv_fire a _ (machineInv_popAct s' a ts h' ht) hm') (by rw [fire_frame]; exact hm')
  · rw [hreach, encoderNext_done s' (hmode ▸ hm) ht hend] at hn
    cases hn
    cases he
    exact machineInv_diso s' h' ht

/-- Settles O7: each of the things a step can do keeps the invariant. -/
theorem stepKeepsInvariant : Obligations.StepKeepsInvariant := by
  intro s t h hstep
  obtain ⟨hv, htick | hhost | hevent | hidle | hreset⟩ := step_cases s t hstep
  · obtain ⟨pin, rest, -, he⟩ := htick
    exact machineInv_tick _ _ t (machineInv_withInputs s rest h) he
  · obtain ⟨w, rest, i, -, hm, hd, he⟩ := hhost
    have heff := hostEffect_of_exec w i { s with inputs := rest } t hd hm he
    exact heff.machineInv (machineInv_withInputs s rest h)
  · obtain ⟨ins, i, u, -, hn, he⟩ := hevent
    exact machineInv_encoder _ u t i (machineInv_withInputs s ins h) hn he
  · obtain ⟨ins, -, -, rfl⟩ := hidle
    exact machineInv_withInputs s ins h
  · obtain ⟨rest, -, -, rfl⟩ := hreset
    exact machineInv_withInputs _ rest (machineInv_afterReset s.cfg _ hv)

/-! ## Widths -/

/-- A number up to m fits the smallest width that holds m (00_scope.md R9). -/
theorem lt_two_pow_bitlen (n m : Nat) (h : n ≤ m) : n < 2 ^ bitlen m := by
  unfold bitlen
  split
  · omega
  · exact Nat.lt_of_le_of_lt h Nat.lt_log2_self

/-- DBC_W, LPC_W and RLX_W hold the bounds of a tracker's counters (10_state.md R24, R27, R28). -/
theorem trackerInv_fits (c : Config) (B : Button) (h : TrackerInv c B) :
    B.dbc < 2 ^ c.dbcW ∧ B.lpc < 2 ^ c.lpcW ∧ B.rlx < 2 ^ c.rlxW := by
  have widen (n w : Nat) (hn : n < 2 ^ w) : n < 2 ^ max 1 w :=
    Nat.lt_of_lt_of_le hn (Nat.pow_le_pow_right (by decide) (Nat.le_max_right 1 w))
  exact ⟨widen _ _ (lt_two_pow_bitlen _ _ h.dbc_le), widen _ _ (lt_two_pow_bitlen _ _ h.lpc_le),
    lt_two_pow_bitlen _ _ h.rlx_le⟩

/-- Settles O10: IDX and NLEN stay at or below MAXLEN, which is at most 4095. -/
theorem countersFitTheirWidths : Obligations.CountersFitTheirWidths := by
  intro s h
  obtain ⟨-, -, -, -, -, -, hmax, -⟩ := bounds_of_valid s.cfg h.cfg_valid
  have hnlen := h.nlen_le
  have hidx := h.idx_le
  exact ⟨fun B hB => trackerInv_fits s.cfg B (h.trackers B hB), by omega, by omega⟩

/-! ## TRACE, HIST and the flags -/

/-- A host operation of an idle block leaves TRACE as it is, unless it is INIT, which empties it. -/
theorem HostEffect.trace {i : Instr} {s t : State} (he : HostEffect i s t) :
    t.trace = s.trace ∨ (t.trace = [] ∧ i = .init) := by
  cases he with
  | result r => exact .inl rfl
  | enable b v => exact .inl (onButton_trace ..)
  | clear mask r => exact .inl rfl
  | write addr v => exact .inl (writeText_trace ..)
  | rtty len mark space hmark hspace => exact .inl rfl
  | psk len carrier hcar => exact .inl rfl
  | init hi => exact .inr ⟨rfl, hi⟩

/-- A host operation of an idle block leaves HIST or sets it to HIST_RESET (INIT), and raises no flag. -/
theorem HostEffect.hist_evflags {i : Instr} {s t : State} (he : HostEffect i s t) :
    (t.hist = s.hist ∨ t.hist = s.cfg.histReset) ∧
    ∀ n, t.evflags.getLsbD n = true → s.evflags.getLsbD n = true := by
  cases he with
  | result r => exact ⟨.inl rfl, fun _ => id⟩
  | enable b v => simp
  | clear mask r => exact ⟨.inl rfl, getLsbD_of_clearFlags _ _ _⟩
  | write addr v => simp
  | rtty len mark space hmark hspace => exact ⟨.inl rfl, fun _ => id⟩
  | psk len carrier hcar => exact ⟨.inl rfl, fun _ => id⟩
  | init hi => simp

/-- An event of the encoder agent is appended to TRACE, and HIST and the flags stay (60_exceptions.md R310). -/
theorem encoder_event_frame (s u t : State) (i : Instr) (hn : encoderNext s = .ok (some (i, u)))
    (he : exec i u = .next t) :
    (∃ e, t.trace = s.trace ++ [e]) ∧ t.hist = s.hist ∧ t.evflags = s.evflags := by
  obtain ⟨e, hexec⟩ := exec_encoderNext s u i hn
  obtain rfl : emit u e = t := by simpa [hexec] using he
  rw [encoderNext_frame s u i hn]
  exact ⟨⟨e, rfl⟩, rfl, rfl⟩

/-- Settles O12: only the encoder agent emits, and only INIT and a hardware reset empty TRACE. -/
theorem traceGrowsByOneEventAtMost : Obligations.TraceGrowsByOneEventAtMost := by
  intro s t hstep
  obtain ⟨-, htick | hhost | hevent | hidle | hreset⟩ := step_cases s t hstep
  · obtain ⟨pin, rest, -, he⟩ := htick
    cases he
    exact .inl rfl
  · obtain ⟨w, rest, i, hin, hm, hd, he⟩ := hhost
    have heff := hostEffect_of_exec w i { s with inputs := rest } t hd hm he
    rcases heff.trace with hsame | ⟨hnil, rfl⟩
    · exact .inl hsame
    · exact .inr (.inr ⟨hm, hnil, .inl ⟨w, rest, hin, hd⟩⟩)
  · obtain ⟨ins, i, u, -, hn, he⟩ := hevent
    exact .inr (.inl (encoder_event_frame _ u t i hn he).1)
  · obtain ⟨ins, -, -, rfl⟩ := hidle
    exact .inl rfl
  · obtain ⟨rest, hin, hm, rfl⟩ := hreset
    exact .inr (.inr ⟨hm, rfl, .inr ⟨rest, hin⟩⟩)

/-- A tick that is taken goes off the list of inputs. -/
theorem countP_isTick_of_takeInput_tick (m : Mode) (l rest : List Input) (pin : BitVec 17)
    (h : takeInput m l = some (.tick pin, rest)) : l.countP isTick = rest.countP isTick + 1 := by
  obtain ⟨waiting, back, rfl, rfl, -⟩ := takeInput_cases m l rest _ h
  have hpin : isTick (.tick pin) = true := rfl
  rw [List.countP_append, List.countP_append, List.countP_cons_of_pos hpin, Nat.add_assoc]

/-- Settles O14: of what a step can do, a TICK is ruled out by the ticks that stay listed. -/
theorem onlyTicksMoveHistoryAndRaiseFlags : Obligations.OnlyTicksMoveHistoryAndRaiseFlags := by
  intro s t hstep hcount
  obtain ⟨-, htick | hhost | hevent | hidle | hreset⟩ := step_cases s t hstep
  · obtain ⟨pin, rest, htake, he⟩ := htick
    have hone := countP_isTick_of_takeInput_tick _ _ _ _ htake
    cases he
    exact absurd hcount (by simp only; omega)
  · obtain ⟨w, rest, i, -, hm, hd, he⟩ := hhost
    have heff := hostEffect_of_exec w i { s with inputs := rest } t hd hm he
    obtain ⟨hhist, hflags⟩ := heff.hist_evflags
    exact ⟨hhist.imp_right fun hreset => ⟨hreset, hm⟩, hflags⟩
  · obtain ⟨ins, i, u, -, hn, he⟩ := hevent
    obtain ⟨-, hhist, hflags⟩ := encoder_event_frame _ u t i hn he
    exact ⟨.inl hhist, fun n hn => hflags ▸ hn⟩
  · obtain ⟨ins, -, -, rfl⟩ := hidle
    exact ⟨.inl rfl, fun _ => id⟩
  · obtain ⟨rest, -, hm, rfl⟩ := hreset
    exact ⟨.inr ⟨rfl, hm⟩, fun n hn => by simp at hn⟩

end Sys2Proof.Proofs
end

section
/-! The family 20_memory.md: the spaces no operation writes (R62) and the one that TXWR alone writes (R60, R64), and a
message with ticks among its events (R71). -/

namespace Sys2Proof.Proofs

open Sys2Proof.Machine Sys2Proof.Safety Sys2Proof.Laws

/-! ## Who writes the configuration and TEXT -/

/-- What every instruction leaves of the address spaces: the configuration and the power-on contents of TEXT, and the
written bytes of TEXT unless it is a TXWR (20_memory.md R62, R64). -/
structure MemoryFrame (i : Instr) (s t : State) : Prop where
  cfg : t.cfg = s.cfg
  powerUps : t.powerUps = s.powerUps
  text : t.text = s.text ∨ ∃ addr byte, i = .txwr addr byte

/-- The frame of a host operation is that of its work in an idle block: waiting leaves everything (46_host_port.md
R283). -/
theorem memoryFrame_whenIdle (i : Instr) (s t : State) (k : Host.Outcome State Fault Refusal)
    (h : whenIdle s k = .next t) (hk : k = .next t → MemoryFrame i s t) : MemoryFrame i s t := by
  rcases whenIdle_next s t k h with ⟨-, hnext⟩ | ⟨-, rfl⟩
  · exact hk hnext
  · exact ⟨rfl, rfl, .inl rfl⟩

/-- The frame of BEN and BDIS. -/
theorem memoryFrame_onButton (i : Instr) (s t : State) (b : Nat) (f : Button → Button)
    (h : whenIdle s (finish (onButton s b f) none) = .next t) : MemoryFrame i s t := by
  refine memoryFrame_whenIdle i s t _ h fun hk => ?_
  cases hk
  exact ⟨onButton_cfg .., onButton_powerUps .., .inl (onButton_text ..)⟩

/-- The frame of the lookups and of FRD, which return a result only. -/
theorem memoryFrame_result (i : Instr) (s t : State) (r : Option Word32)
    (h : whenIdle s (finish s r) = .next t) : MemoryFrame i s t := by
  refine memoryFrame_whenIdle i s t _ h fun hk => ?_
  cases hk
  exact ⟨rfl, rfl, .inl rfl⟩

/-- Every instruction has the frame, in every state. -/
theorem memoryFrame_of_exec (i : Instr) (s t : State) (h : exec i s = .next t) : MemoryFrame i s t := by
  cases i with
  | tick pin => cases h; exact ⟨rfl, rfl, .inl rfl⟩
  | qpoll ab => cases h; exact ⟨rfl, rfl, .inl rfl⟩
  | bpoll b raw =>
    simp only [exec, execBpoll] at h
    split at h <;> cases h <;> exact ⟨rfl, rfl, .inl rfl⟩
  | ben b => exact memoryFrame_onButton _ s t _ _ h
  | bdis b => exact memoryFrame_onButton _ s t _ _ h
  | frd => exact memoryFrame_result _ s t _ h
  | fclr mask => exact memoryFrame_whenIdle _ s t _ h fun hk => by cases hk; exact ⟨rfl, rfl, .inl rfl⟩
  | fxchg mask => exact memoryFrame_whenIdle _ s t _ h fun hk => by cases hk; exact ⟨rfl, rfl, .inl rfl⟩
  | blkup sel ch => exact memoryFrame_result _ s t _ h
  | brev sel code => exact memoryFrame_result _ s t _ h
  | sendr len base =>
    refine memoryFrame_whenIdle _ s t _ h fun hk => ?_
    split at hk
    · cases hk
    · split at hk <;> cases hk
      exact ⟨rfl, rfl, .inl rfl⟩
  | vlkup ch => exact memoryFrame_result _ s t _ h
  | vrev word => exact memoryFrame_result _ s t _ h
  | sendp len base =>
    refine memoryFrame_whenIdle _ s t _ h fun hk => ?_
    split at hk <;> cases hk
    exact ⟨rfl, rfl, .inl rfl⟩
  | txwr addr byte =>
    refine memoryFrame_whenIdle _ s t _ h fun hk => ?_
    cases hk
    exact ⟨writeText_cfg .., writeText_powerUps .., .inr ⟨addr, byte, rfl⟩⟩
  | init => exact memoryFrame_whenIdle _ s t _ h fun hk => by cases hk; exact ⟨rfl, rfl, .inl rfl⟩
  | setf ch pll f drv => cases h; exact ⟨rfl, rfl, .inl rfl⟩
  | invp ch inv => cases h; exact ⟨rfl, rfl, .inl rfl⟩
  | diso => cases h; exact ⟨rfl, rfl, .inl rfl⟩
  | wait d => cases h; exact ⟨rfl, rfl, .inl rfl⟩

/-- An event of the encoder agent leaves the configuration and TEXT (60_exceptions.md R310). -/
theorem encoder_event_memory (s u t : State) (i : Instr) (hn : encoderNext s = .ok (some (i, u)))
    (he : exec i u = .next t) : t.cfg = s.cfg ∧ t.text = s.text ∧ t.powerUps = s.powerUps := by
  obtain ⟨e, hexec⟩ := exec_encoderNext s u i hn
  obtain rfl : emit u e = t := by simpa [hexec] using he
  rw [encoderNext_frame s u i hn]
  exact ⟨rfl, rfl, rfl⟩

/-- The steps that may change TEXT: an idle block takes a TXWR or a hardware reset (20_memory.md R60, 46_host_port.md
R281). -/
def WritesText (s : State) : Prop :=
  s.mode = .idle ∧
    ((∃ w rest addr byte, s.inputs = .host w :: rest ∧ decode .host w = .ok (.txwr addr byte)) ∨
      ∃ rest, s.inputs = .reset :: rest)

/-- What a step leaves of the address spaces. -/
theorem step_memory (s t : State) (h : step s = .next t) :
    t.cfg = s.cfg ∧ ((t.text = s.text ∧ t.powerUps = s.powerUps) ∨ WritesText s) := by
  obtain ⟨-, htick | hhost | hevent | hidle | hreset⟩ := step_cases s t h
  · obtain ⟨pin, rest, -, he⟩ := htick
    cases he
    exact ⟨rfl, .inl ⟨rfl, rfl⟩⟩
  · obtain ⟨w, rest, i, hin, hm, hd, he⟩ := hhost
    obtain ⟨hcfg, hpower, htext | ⟨addr, byte, rfl⟩⟩ := memoryFrame_of_exec i _ t he
    · exact ⟨hcfg, .inl ⟨htext, hpower⟩⟩
    · exact ⟨hcfg, .inr ⟨hm, .inl ⟨w, rest, addr, byte, hin, hd⟩⟩⟩
  · obtain ⟨ins, i, u, -, hn, he⟩ := hevent
    obtain ⟨hcfg, hkeep⟩ := encoder_event_memory _ u t i hn he
    exact ⟨hcfg, .inl hkeep⟩
  · obtain ⟨ins, -, -, rfl⟩ := hidle
    exact ⟨rfl, .inl ⟨rfl, rfl⟩⟩
  · obtain ⟨rest, hin, hm, rfl⟩ := hreset
    exact ⟨rfl, .inr ⟨hm, .inr ⟨rest, hin⟩⟩⟩

/-- Settles O11: neither a step nor an instruction run on its own writes the configuration. -/
theorem configurationNeverChanges : Obligations.ConfigurationNeverChanges :=
  ⟨fun s t h => (step_memory s t h).1, fun i s t h => (memoryFrame_of_exec i s t h).cfg⟩

/-- Settles O13: a step keeps both TEXT and its power-on contents, or it is one of those that may write TEXT. -/
theorem onlyTxwrWritesText : Obligations.OnlyTxwrWritesText := by
  intro s t h hchanged
  obtain ⟨-, ⟨htext, hpower⟩ | hwrites⟩ := step_memory s t h
  · exact absurd hchanged (by simp [htext, hpower])
  · exact hwrites

/-! ## What the encoder agent sends on its own -/

/-- Left to itself the encoder agent goes from one state to another and sends these events: one an atomic step, with the
register writes between two events done silently (43_baudot_rtty.md R215, 44_varicode_psk31.md R249). -/
inductive Sends : State → List Event → State → Prop
  | refl (s : State) : Sends s [] s
  | silent {s s' t : State} {es : List Event} (hm : s.mode ≠ .idle) (hn : encoderNext s = encoderNext s')
      (h : Sends s' es t) : Sends s es t
  | event {s u t : State} {i : Instr} {e : Event} {es : List Event} (hn : encoderNext s = .ok (some (i, u)))
      (he : ∀ v, exec i v = .next (emit v e)) (h : Sends (emit u e) es t) : Sends s (e :: es) t

/-- What is sent up to a state and from it on is sent in one. -/
theorem Sends.trans {s s' t : State} {es fs : List Event} (h : Sends s es s') (h' : Sends s' fs t) :
    Sends s (es ++ fs) t := by
  induction h with
  | refl s => exact h'
  | silent hm hn _ ih => exact .silent hm hn (ih h')
  | event hn he _ ih => exact .event hn he (ih h')

/-- Where an event is to be sent, the agent's next step sends it. -/
theorem Sends.next_event {s t : State} {e : Event} {es : List Event} (h : Sends s (e :: es) t) :
    ∃ i u, encoderNext s = .ok (some (i, u)) ∧ (∀ v, exec i v = .next (emit v e)) ∧ Sends (emit u e) es t := by
  generalize hl : e :: es = l at h
  induction h with
  | refl s => cases hl
  | silent _ hn _ ih =>
    obtain ⟨i, u, hn', hrest⟩ := ih hl
    exact ⟨i, u, hn.trans hn', hrest⟩
  | event hn he h _ =>
    cases hl
    exact ⟨_, _, hn, he, h⟩

/-- An idle state that is reached without an event is where the agent already was: only an event leads to IDLE. -/
theorem Sends.eq_of_idle {s t : State} (h : Sends s [] t) (ht : t.mode = .idle) : s = t := by
  generalize hl : ([] : List Event) = l at h
  induction h with
  | refl s => rfl
  | silent hm hn _ ih =>
    obtain rfl := ih ht hl
    exact absurd (encoderNext_none _ (hn.trans (encoderNext_idle _ ht))) hm
  | event => cases hl

/-- An act first in the position sends its event. -/
theorem sends_act (s u : State) (a : Act) (i : Instr) (e : Event) (ts : List Machine.Task) (hm : s.mode ≠ .idle)
    (ht : s.todo = .act a :: ts) (hf : fire a { s with todo := ts } = (i, u)) (he : ∀ v, exec i v = .next (emit v e)) :
    Sends s [e] (emit u e) :=
  .event ((encoderNext_act s a ts hm ht).trans (by rw [hf])) he (.refl _)

/-- A wait first in the position sends its WAIT. -/
theorem sends_hold (s : State) (d : Nat) (ts : List Machine.Task) (hm : s.mode ≠ .idle)
    (ht : s.todo = .act (.hold d) :: ts) : Sends s [.wait d] { s with todo := ts, trace := s.trace ++ [.wait d] } :=
  sends_act s _ (.hold d) _ _ ts hm ht rfl fun _ => rfl

/-- A change of tone or phase first in the position sends its event and then the WAIT that follows it (43_baudot_rtty.md
R210, 44_varicode_psk31.md R246). -/
theorem sends_change (s u : State) (a : Act) (i : Instr) (e : Event) (d : Nat) (ts : List Machine.Task)
    (hm : s.mode ≠ .idle) (hu : u.mode ≠ .idle) (ht : s.todo = .act a :: ts)
    (hf : fire a { s with todo := ts } = (i, { u with todo := .act (.hold d) :: ts }))
    (he : ∀ v, exec i v = .next (emit v e)) :
    Sends s [e, .wait d] { u with todo := ts, trace := u.trace ++ [e, .wait d] } := by
  simpa [emit] using (sends_act s _ a i e ts hm ht hf he).trans (sends_hold (emit _ e) d ts hu rfl)

/-! ## RTTY: elements, frames, characters -/

/-- TONE after a sequence of elements. -/
def toneAfter (now : Bool) (ps : List (Bool × Nat)) : Bool := ps.foldl (fun _ p => p.1) now

/-- ELEM(tone, T) sends the events of its closed form (43_baudot_rtty.md R210). -/
theorem sends_elem (s : State) (tone : Bool) (d : Nat) (ts : List Machine.Task) (hm : s.mode ≠ .idle)
    (ht : s.todo = .act (.elem tone d) :: ts) :
    Sends s (elemEvents s.cfg s.fmark s.fspace s.tone tone d)
      { s with todo := ts, tone := tone, trace := s.trace ++ elemEvents s.cfg s.fmark s.fspace s.tone tone d } := by
  by_cases hsame : tone = s.tone
  · have hsend := sends_act s { s with todo := ts } (.elem tone d) (.wait d) _ ts hm ht (by simp [fire, hsame])
      fun _ => rfl
    simpa [hsame, elemEvents, emit] using hsend
  · have hsend := sends_change s { s with tone := tone } (.elem tone d)
      (carrierRecord s.cfg (if tone then s.fmark else s.fspace)) _ (d - s.cfg.tSwitch) ts hm hm ht
      (by simp [fire, hsame]) fun _ => rfl
    simpa [hsame, elemEvents, setf] using hsend

/-- A sequence of elements sends the events of its closed form. -/
theorem sends_elems (ps : List (Bool × Nat)) (s : State) (ts : List Machine.Task) (hm : s.mode ≠ .idle)
    (ht : s.todo = ps.map (fun p => .act (.elem p.1 p.2)) ++ ts) :
    Sends s (elemsEvents s.cfg s.fmark s.fspace s.tone ps)
      { s with todo := ts, tone := toneAfter s.tone ps,
               trace := s.trace ++ elemsEvents s.cfg s.fmark s.fspace s.tone ps } := by
  induction ps generalizing s with
  | nil =>
    obtain rfl : s.todo = ts := ht
    simpa [elemsEvents, toneAfter] using Sends.refl s
  | cons p ps ih =>
    have hfirst := sends_elem s p.1 p.2 _ hm ht
    simpa [elemsEvents, toneAfter] using hfirst.trans (ih _ hm rfl)

/-- FRAME(code), from TONE at mark back to it, sends the events of its closed form (43_baudot_rtty.md R209, R214). -/
theorem sends_frame (s : State) (code : BitVec 5) (ts : List Machine.Task) (hm : s.mode ≠ .idle)
    (hmark : s.tone = true) (ht : s.todo = frame s.cfg code ++ ts) :
    Sends s (frameEvents s.cfg s.fmark s.fspace code)
      { s with todo := ts, trace := s.trace ++ frameEvents s.cfg s.fmark s.fspace code } := by
  have hsend := sends_elems (frameElems s.cfg code) s ts hm (by rw [ht, frame_eq_map])
  rw [hmark] at hsend
  have htone : toneAfter true (frameElems s.cfg code) = s.tone := by rw [hmark]; rfl
  rwa [htone] at hsend

/-- The events of a sequence of codes (43_baudot_rtty.md R214). -/
def codeEvents (c : Config) (mark space : Nat) (codes : List (BitVec 5)) : List Event :=
  codes.flatMap (frameEvents c mark space)

/-- A sequence of frames sends the events of its codes. -/
theorem sends_codes (codes : List (BitVec 5)) (s : State) (ts : List Machine.Task) (hm : s.mode ≠ .idle)
    (hmark : s.tone = true) (ht : s.todo = codes.flatMap (frame s.cfg) ++ ts) :
    Sends s (codeEvents s.cfg s.fmark s.fspace codes)
      { s with todo := ts, trace := s.trace ++ codeEvents s.cfg s.fmark s.fspace codes } := by
  induction codes generalizing s with
  | nil =>
    obtain rfl : s.todo = ts := ht
    simpa [codeEvents] using Sends.refl s
  | cons code codes ih =>
    have hfirst := sends_frame s code (codes.flatMap (frame s.cfg) ++ ts) hm hmark (by simp [ht])
    simpa [codeEvents] using hfirst.trans (ih _ hm hmark rfl)

/-- A shift-state write first in the position is done silently. -/
theorem sends_setShift (s : State) (v : Shift) (ts : List Machine.Task) (hm : s.mode ≠ .idle)
    (ht : s.todo = .setShift v :: ts) : Sends s [] { s with todo := ts, shiftst := v } :=
  .silent hm (encoderNext_setShift s v ts hm ht) (.refl _)

/-- The end of a character is silent. -/
theorem sends_nextChar (s : State) (ts : List Machine.Task) (hm : s.mode ≠ .idle) (ht : s.todo = .nextChar :: ts) :
    Sends s [] { s with todo := ts, idx := s.idx + 1 } :=
  .silent hm (encoderNext_nextChar s ts hm ht) (.refl _)

/-- Frames followed by a shift-state write. -/
theorem sends_codes_setShift (codes : List (BitVec 5)) (v : Shift) (s : State) (ts : List Machine.Task)
    (hm : s.mode ≠ .idle) (hmark : s.tone = true) (ht : s.todo = codes.flatMap (frame s.cfg) ++ .setShift v :: ts) :
    Sends s (codeEvents s.cfg s.fmark s.fspace codes)
      { s with todo := ts, shiftst := v, trace := s.trace ++ codeEvents s.cfg s.fmark s.fspace codes } := by
  simpa using (sends_codes codes s _ hm hmark ht).trans (sends_setShift _ v ts hm rfl)

/-- CHARSTEP and the closed form look the same code up (43_baudot_rtty.md R211). -/
theorem charCodes_eq (c : Config) (sh : Shift) (ch : Byte) :
    charCodes c sh ch =
      if (lookupChar c ch).2 = 0 then ([c.spaceCode, c.ltrsCode], .letters)
      else ((if sh = (lookupChar c ch).1 then [] else [shiftCode c (lookupChar c ch).1]) ++ [(lookupChar c ch).2],
        (lookupChar c ch).1) := by
  unfold charCodes lookupChar
  cases classOf ch with
  | alpha =>
    by_cases h0 : blookup c .letters (upperCase ch) = 0
    · simp [h0]
    · by_cases hsh : sh = .letters <;> simp [hsh, shiftCode]
  | space => simp
  | other =>
    by_cases h0 : blookup c .figures ch = 0
    · simp [h0]
    · by_cases hsh : sh = .figures <;> simp [hsh, shiftCode]

/-- CHARSTEP sends the events of its closed form and leaves its shift state (43_baudot_rtty.md R211, R212). -/
theorem sends_charStep (s : State) (ch : Byte) (ts : List Machine.Task) (hm : s.mode ≠ .idle) (hmark : s.tone = true)
    (ht : s.todo = charStep s.cfg s.shiftst ch ++ ts) :
    Sends s (codeEvents s.cfg s.fmark s.fspace (charCodes s.cfg s.shiftst ch).1)
      { s with todo := ts, shiftst := (charCodes s.cfg s.shiftst ch).2,
               trace := s.trace ++ codeEvents s.cfg s.fmark s.fspace (charCodes s.cfg s.shiftst ch).1 } := by
  simp only [charStep] at ht
  rw [charCodes_eq]
  generalize lookupChar s.cfg ch = r at ht ⊢
  obtain ⟨sel, code⟩ := r
  by_cases h0 : code = 0#5
  · simp only [h0]
    exact sends_codes_setShift _ .letters s ts hm hmark (by simpa [h0] using ht)
  · by_cases hsh : s.shiftst = sel
    · simpa [h0, hsh] using sends_codes [code] s ts hm hmark (by simpa [h0, hsh] using ht)
    · have hshift := sends_codes_setShift [shiftCode s.cfg sel] sel s (frame s.cfg code ++ ts) hm hmark
        (by simpa [h0, hsh] using ht)
      simpa [h0, hsh, codeEvents] using hshift.trans (sends_codes [code] _ ts hm hmark (by simp))

/-! ## PSK31: slots -/

/-- PHASE after one more slot. -/
theorem phaseAfter_cons (bit : Bool) (bits : List Bool) : phaseAfter (bit :: bits) = (phaseAfter bits ^^ !bit) := by
  cases bit
  · rcases Nat.mod_two_eq_zero_or_one (bits.count false) with h | h <;> simp [phaseAfter, h, Nat.add_mod]
  · simp [phaseAfter]

/-- PBIT(b) for each bit sends the events of the closed form (44_varicode_psk31.md R246). -/
theorem sends_slots (bits : List Bool) (s : State) (ts : List Machine.Task) (hm : s.mode ≠ .idle)
    (ht : s.todo = slots bits ++ ts) :
    Sends s (slotEvents s.cfg s.phase bits)
      { s with todo := ts, phase := s.phase ^^ phaseAfter bits, trace := s.trace ++ slotEvents s.cfg s.phase bits } := by
  induction bits generalizing s with
  | nil =>
    obtain rfl : s.todo = ts := ht
    simpa [slotEvents, phaseAfter] using Sends.refl s
  | cons bit bits ih =>
    cases bit with
    | true =>
      have hwait := sends_act s { s with todo := slots bits ++ ts } (.slot true) _ _ _ hm ht rfl fun _ => rfl
      simpa [slotEvents, phaseAfter_cons, emit] using hwait.trans (ih _ hm rfl)
    | false =>
      have hinvert := sends_change s { s with phase := !s.phase } (.slot false) _ _ _ _ hm hm ht rfl fun _ => rfl
      simpa [slotEvents, phaseAfter_cons] using hinvert.trans (ih _ hm rfl)

/-- PHASE after the slots of two bit sequences. -/
theorem phaseAfter_append (bits bits' : List Bool) :
    phaseAfter (bits ++ bits') = (phaseAfter bits ^^ phaseAfter bits') := by
  induction bits with
  | nil => simp [phaseAfter]
  | cons bit bits ih => simp only [List.cons_append, phaseAfter_cons, ih, Bool.xor_right_comm]

/-- The closed form of two bit sequences: the second starts with the PHASE the first leaves. -/
theorem slotEvents_append (c : Config) (phase : Bool) (bits bits' : List Bool) :
    slotEvents c phase (bits ++ bits') = slotEvents c phase bits ++ slotEvents c (phase ^^ phaseAfter bits) bits' := by
  induction bits generalizing phase with
  | nil => simp [slotEvents, phaseAfter]
  | cons bit bits ih => cases bit <;> simp [slotEvents, ih, phaseAfter_cons]

/-- The slots of two bit sequences. -/
theorem slots_append (bits bits' : List Bool) : slots (bits ++ bits') = slots bits ++ slots bits' := List.map_append

/-- CHAR sends the bits of its closed form (44_varicode_psk31.md R247). -/
theorem charBits_eq (c : Config) (ch : Nat) : charBits c ch = symbolBits c ch := rfl

/-! ## The characters of a message -/

/-- Between two characters the next one is opened silently. -/
theorem sends_openChar (s : State) (hm : s.mode ≠ .idle) (ht : s.todo = []) (hi : s.idx < s.nlen)
    (hl : s.nlen ≤ s.cfg.maxLen) : Sends s [] { s with todo := charTasks s (s.textAt s.idx) ++ [.nextChar] } :=
  .silent hm (encoderNext_char s hm ht hi hl) (.refl _)

/-- What is left of a message after IDX begins with the byte TEXT[IDX] and goes on from IDX + 1. -/
theorem textFrom_cons (s : State) (ch : Byte) (text : List Byte)
    (h : (List.range' s.idx (text.length + 1)).map s.textAt = ch :: text) :
    s.textAt s.idx = ch ∧ (List.range' (s.idx + 1) text.length).map s.textAt = text := by
  simpa [List.range'_succ] using h

/-- What is left of a message at its start is the whole message. -/
theorem message_from_start (s : State) (text : List Byte) (hi : s.idx = 0) (htext : message s s.nlen = text) :
    text.length = s.nlen ∧ (List.range' s.idx text.length).map s.textAt = text := by
  have hlen : text.length = s.nlen := by simp [← htext, message]
  refine ⟨hlen, ?_⟩
  rw [hi, ← List.range_eq_range', hlen]
  exact htext

/-- The characters of an RTTY message from IDX on send the events of their codes (43_baudot_rtty.md R205, R214). -/
theorem sends_rttyText (text : List Byte) (s : State) (hm : s.mode = .rtty) (hmark : s.tone = true) (ht : s.todo = [])
    (hn : s.idx + text.length = s.nlen) (hl : s.nlen ≤ s.cfg.maxLen)
    (htext : (List.range' s.idx text.length).map s.textAt = text) :
    Sends s (codeEvents s.cfg s.fmark s.fspace (textCodes s.cfg s.shiftst text).1)
      { s with idx := s.idx + text.length, shiftst := (textCodes s.cfg s.shiftst text).2,
               trace := s.trace ++ codeEvents s.cfg s.fmark s.fspace (textCodes s.cfg s.shiftst text).1 } := by
  have hbusy : s.mode ≠ .idle := by simp [hm]
  induction text generalizing s with
  | nil => simpa [textCodes, codeEvents] using Sends.refl s
  | cons ch text ih =>
    rw [List.length_cons] at hn htext
    obtain ⟨hch, hrest⟩ := textFrom_cons s ch text htext
    have hopen := sends_openChar s hbusy ht (by omega) hl
    rw [hch] at hopen
    have hstep := sends_charStep { s with todo := charTasks s ch ++ [.nextChar] } ch [.nextChar] hbusy hmark
      (by simp [charTasks, hm])
    have hnext := (hopen.trans hstep).trans (sends_nextChar _ [] hbusy rfl)
    simpa [textCodes, codeEvents, ht, Nat.add_assoc, Nat.add_comm 1] using
      hnext.trans (ih _ hm hmark rfl (by simp only; omega) hl hrest hbusy)

/-- The bits of a text in PSK31: a character at or above 128 sends none (44_varicode_psk31.md R245, R251). -/
def textBits (c : Config) (text : List Byte) : List Bool :=
  text.flatMap (fun ch => if ch.toNat < 128 then symbolBits c ch.toNat else [])

/-- The characters of a PSK31 message from IDX on send the slots of their bits (44_varicode_psk31.md R243, R251). -/
theorem sends_pskText (text : List Byte) (s : State) (hm : s.mode = .psk) (ht : s.todo = [])
    (hn : s.idx + text.length = s.nlen) (hl : s.nlen ≤ s.cfg.maxLen)
    (htext : (List.range' s.idx text.length).map s.textAt = text) :
    Sends s (slotEvents s.cfg s.phase (textBits s.cfg text))
      { s with idx := s.idx + text.length, phase := s.phase ^^ phaseAfter (textBits s.cfg text),
               trace := s.trace ++ slotEvents s.cfg s.phase (textBits s.cfg text) } := by
  have hbusy : s.mode ≠ .idle := by simp [hm]
  induction text generalizing s with
  | nil => simpa [textBits, slotEvents, phaseAfter] using Sends.refl s
  | cons ch text ih =>
    rw [List.length_cons] at hn htext
    obtain ⟨hch, hrest⟩ := textFrom_cons s ch text htext
    have hopen := sends_openChar s hbusy ht (by omega) hl
    have htasks : charTasks s ch = slots (textBits s.cfg [ch]) := by
      simp only [charTasks, hm, textBits, List.flatMap_singleton]
      split
      · rw [charBits_eq]
      · rfl
    rw [hch, htasks] at hopen
    have hstep := hopen.trans (sends_slots (textBits s.cfg [ch]) _ [.nextChar] hbusy rfl)
    have hnext := hstep.trans (sends_nextChar _ [] hbusy rfl)
    have hbits : textBits s.cfg (ch :: text) = textBits s.cfg [ch] ++ textBits s.cfg text := by
      simp [textBits]
    simpa [hbits, slotEvents_append, phaseAfter_append, ht, Nat.add_assoc, Nat.add_comm 1] using
      hnext.trans (ih _ hm rfl (by simp only; omega) hl hrest hbusy)

/-! ## Whole messages -/

/-- After the last character the agent sends DISO and the block is idle (43_baudot_rtty.md R213, 44_varicode_psk31.md
R250). -/
theorem sends_end (s : State) (hm : s.mode ≠ .idle) (ht : s.todo = []) (hi : s.nlen ≤ s.idx) :
    Sends s [.diso] { s with mode := .idle, trace := s.trace ++ [.diso] } :=
  .event (encoderNext_done s hm ht hi) (fun _ => rfl) (.refl _)

/-- From the start of an RTTY message the agent sends the closed form (43_baudot_rtty.md R205, R214). -/
theorem sends_rttyMessage (s : State) (text : List Byte) (hm : s.mode = .rtty) (ht : s.todo = rttyPreamble s.cfg)
    (hi : s.idx = 0) (hl : s.nlen ≤ s.cfg.maxLen) (htext : message s s.nlen = text) :
    Sends s (rttyMessage s.cfg s.fmark s.fspace text)
      { s with mode := .idle, todo := [], idx := text.length, tone := true,
               trace := s.trace ++ rttyMessage s.cfg s.fmark s.fspace text,
               shiftst := (textCodes s.cfg .letters text).2 } := by
  have hbusy : s.mode ≠ .idle := by simp [hm]
  obtain ⟨hlen, hrange⟩ := message_from_start s text hi htext
  have hcarrier := sends_act s _ .rttyCarrier _ _ _ hbusy ht rfl fun _ => rfl
  have hsettle := hcarrier.trans (sends_hold _ s.cfg.tRsettle _ hbusy rfl)
  have hsync := hsettle.trans (sends_codes_setShift (List.replicate 4 s.cfg.ltrsCode) .letters _ [] hbusy rfl rfl)
  have hchars := hsync.trans (sends_rttyText text _ hm rfl rfl (by simp [hi, hlen]) hl hrange)
  have hend := hchars.trans (sends_end _ hbusy rfl (by simp [hi, hlen]))
  simpa [rttyMessage, rttyCodes, codeEvents, emit, setf, hi] using hend

/-- From the start of a PSK31 message the agent sends the closed form (44_varicode_psk31.md R243, R251). -/
theorem sends_pskMessage (s : State) (text : List Byte) (hm : s.mode = .psk) (ht : s.todo = pskPreamble s.cfg)
    (hi : s.idx = 0) (hl : s.nlen ≤ s.cfg.maxLen) (htext : message s s.nlen = text) :
    Sends s (pskMessage s.cfg s.fmark text)
      { s with mode := .idle, todo := [], idx := text.length, phase := phaseAfter (pskBits s.cfg text),
               trace := s.trace ++ pskMessage s.cfg s.fmark text } := by
  have hbusy : s.mode ≠ .idle := by simp [hm]
  obtain ⟨hlen, hrange⟩ := message_from_start s text hi htext
  have hpreamble : s.todo = .act .pskCarrier :: (slots (pskBits s.cfg []) ++ []) := by
    simp [ht, pskPreamble, pskBits, Config.nNul, List.replicate_succ, slots_append, charBits_eq]
  have hcarrier := sends_act s _ .pskCarrier _ _ _ hbusy hpreamble rfl fun _ => rfl
  have hsync := hcarrier.trans (sends_slots (pskBits s.cfg []) _ [] hbusy rfl)
  have hchars := hsync.trans (sends_pskText text _ hm rfl (by simp [hi, hlen]) hl hrange)
  have hend := hchars.trans (sends_end _ hbusy rfl (by simp [hi, hlen]))
  have hbits : pskBits s.cfg text = pskBits s.cfg [] ++ textBits s.cfg text := by simp [pskBits, textBits]
  simpa [pskMessage, hbits, slotEvents_append, phaseAfter_append, emit, setf, hi] using hend

/-- A SENDR that an idle block completes starts the RTTY message of its operands, and the agent sends the closed form
(43_baudot_rtty.md R205, R214). -/
theorem sends_of_sendr (s t : State) (len : BitVec 12) (base : Word32) (hm : s.mode = .idle)
    (h : exec (.sendr len base) s = .next t) :
    t.trace = s.trace ∧ t.evflags = s.evflags ∧
    let text := message s (min len.toNat s.cfg.maxLen)
    Sends t (rttyMessage s.cfg t.fmark t.fspace text)
      { t with mode := .idle, todo := [], idx := text.length, tone := true,
               trace := t.trace ++ rttyMessage s.cfg t.fmark t.fspace text,
               shiftst := (textCodes s.cfg .letters text).2 } := by
  simp only [exec, execSendr, whenIdle_idle _ _ hm] at h
  split at h
  · cases h
  · split at h <;> cases h
    exact ⟨rfl, rfl, sends_rttyMessage _ _ rfl rfl rfl (effectiveLength_le s.cfg len) rfl⟩

/-- A SENDP that an idle block completes starts the PSK31 message of its operands, and the agent sends the closed form
(44_varicode_psk31.md R243, R251). -/
theorem sends_of_sendp (s t : State) (len : BitVec 12) (base : Word32) (hm : s.mode = .idle)
    (h : exec (.sendp len base) s = .next t) :
    t.trace = s.trace ∧ t.evflags = s.evflags ∧
    let text := message s (min len.toNat s.cfg.maxLen)
    Sends t (pskMessage s.cfg t.fmark text)
      { t with mode := .idle, todo := [], idx := text.length, phase := phaseAfter (pskBits s.cfg text),
               trace := t.trace ++ pskMessage s.cfg t.fmark text } := by
  simp only [exec, execSendp, whenIdle_idle _ _ hm] at h
  split at h <;> cases h
  exact ⟨rfl, rfl, sends_pskMessage _ _ rfl rfl rfl (effectiveLength_le s.cfg len) rfl⟩

/-! ## Ticks among the events -/

/-- A tick that is next moves the input side of the block only, and lowers no flag (40_quadrature.md R130,
42_event_flags.md R172). -/
theorem step_tick (s : State) (hist : BitVec 4) (btn : List Button) (flags : Word32) (pin : BitVec 17)
    (ins : List Input) (hv : s.cfg.valid = true) :
    ∃ hist' btn' flags', step (withInputSide s hist btn flags (.tick pin :: ins)) =
        .next (withInputSide s hist' btn' flags' ins) ∧
      ∀ n, flags.getLsbD n = true → flags'.getLsbD n = true := by
  have hstep : step (withInputSide s hist btn flags (.tick pin :: ins)) =
      exec (.tick (decodePin pin)) (withInputSide s hist btn flags ins) := by
    simp [step, hv, fetch, tickTurn, withInputSide]
  refine ⟨_, _, _, hstep, fun n hn => ?_⟩
  simp [BitVec.getLsbD_or, withInputSide, hn]

/-- An encoder turn that is next sends the event the agent would send with nothing arriving (40_quadrature.md R131). -/
theorem step_encoder (s u : State) (i : Instr) (ev : Event) (hist : BitVec 4) (btn : List Button) (flags : Word32)
    (ins : List Input) (hv : s.cfg.valid = true) (hn : encoderNext s = .ok (some (i, u)))
    (he : ∀ v, exec i v = .next (emit v ev)) :
    step (withInputSide s hist btn flags (.encoder :: ins)) = .next (withInputSide (emit u ev) hist btn flags ins) := by
  have hturn : encoderNext (withInputSide s hist btn flags ins) =
      .ok (some (i, withInputSide u hist btn flags ins)) := by
    rw [encoderNext_withInputSide, hn]
    rfl
  have hstep : step (withInputSide s hist btn flags (.encoder :: ins)) =
      exec i (withInputSide u hist btn flags ins) := by
    have htake : fetch (withInputSide s hist btn flags (.encoder :: ins)) =
        encoderTurn (withInputSide s hist btn flags ins) := by
      simp [fetch, withInputSide]
    have hvalid : (withInputSide s hist btn flags (.encoder :: ins)).cfg.valid = true := hv
    simp only [step, hvalid, if_true, htake, encoderTurn, hturn]
  rw [hstep, he]
  rfl

/-- What the agent sends up to an idle state it sends with ticks anywhere among its turns, as many turns as events; the
ticks move the input side only and lower no flag (20_memory.md R71 (c), 60_exceptions.md R296). -/
theorem Sends.run_with_ticks {s t : State} {es : List Event} (hs : Sends s es t) (ht : t.mode = .idle)
    (hv : s.cfg.valid = true) (inputs : List Input) (hin : ∀ x ∈ inputs, x = .encoder ∨ ∃ pin, x = .tick pin)
    (hcount : inputs.count .encoder = es.length) (hist : BitVec 4) (btn : List Button) (flags : Word32) :
    ∃ hist' btn' flags', Host.Core.run Sys2Proof.core inputs.length (withInputSide s hist btn flags inputs) =
        .next (withInputSide t hist' btn' flags' []) ∧ ∀ n, flags.getLsbD n = true → flags'.getLsbD n = true := by
  induction inputs generalizing s es hist btn flags with
  | nil =>
    obtain rfl : es = [] := List.length_eq_zero_iff.1 hcount.symm
    obtain rfl := hs.eq_of_idle ht
    exact ⟨hist, btn, flags, rfl, fun _ => id⟩
  | cons x ins ih =>
    have hins : ∀ y ∈ ins, y = .encoder ∨ ∃ pin, y = .tick pin := fun y hy => hin y (List.mem_cons_of_mem _ hy)
    rcases hin x List.mem_cons_self with rfl | ⟨pin, rfl⟩
    · rw [List.count_cons_self] at hcount
      obtain ⟨ev, es, rfl⟩ := List.exists_cons_of_length_eq_add_one hcount.symm
      obtain ⟨i, u, hn, he, hrest⟩ := hs.next_event
      have hvalid : (emit u ev).cfg.valid = true := by
        rw [emit_cfg, encoderNext_frame s u i hn]
        exact hv
      rw [List.length_cons, run_succ _ _ _ (step_encoder s u i ev hist btn flags ins hv hn he)]
      exact ih hrest hvalid hins (Nat.succ.inj hcount) hist btn flags
    · rw [List.count_cons_of_ne (by simp)] at hcount
      obtain ⟨hist1, btn1, flags1, hstep, hkeep⟩ := step_tick s hist btn flags pin ins hv
      obtain ⟨hist2, btn2, flags2, hrun, hkeep'⟩ := ih hs hv hins hcount hist1 btn1 flags1
      rw [List.length_cons, run_succ _ _ _ hstep]
      exact ⟨hist2, btn2, flags2, hrun, fun n hn => hkeep' n (hkeep n hn)⟩

/-- The issue of a SENDR or a SENDP leaves TRACE, TEXT and the flags, and then the agent sends the closed form up to an
idle state. -/
theorem sends_of_issue (s t : State) (len : BitVec 12) (base : Word32) (events : List Event) (hm : s.mode = .idle)
    (h : exec (.sendr len base) s = .next t ∧
        events = rttyMessage s.cfg t.fmark t.fspace (message s (min len.toNat s.cfg.maxLen)) ∨
      exec (.sendp len base) s = .next t ∧
        events = pskMessage s.cfg t.fmark (message s (min len.toNat s.cfg.maxLen))) :
    t.cfg = s.cfg ∧ t.evflags = s.evflags ∧
      ∃ u, Sends t events u ∧ u.mode = .idle ∧ u.trace = s.trace ++ events ∧ u.text = s.text := by
  rcases h with ⟨h, rfl⟩ | ⟨h, rfl⟩
  · have hframe := memoryFrame_of_exec _ s t h
    obtain ⟨htrace, hflags, hsends⟩ := sends_of_sendr s t len base hm h
    exact ⟨hframe.cfg, hflags, _, hsends, rfl, by rw [htrace], hframe.text.resolve_right (by simp)⟩
  · have hframe := memoryFrame_of_exec _ s t h
    obtain ⟨htrace, hflags, hsends⟩ := sends_of_sendp s t len base hm h
    exact ⟨hframe.cfg, hflags, _, hsends, rfl, by rw [htrace], hframe.text.resolve_right (by simp)⟩

/-- Settles O51: what the agent sends after the issue it also sends with ticks among its turns. -/
theorem ticksDoNotChangeTheTrace : Obligations.TicksDoNotChangeTheTrace := by
  intro s t len base inputs events hinv hm hissue hin hcount
  obtain ⟨hcfg, hflags, u, hsends, hidle, htrace, htext⟩ := sends_of_issue s t len base events hm hissue
  have hv : t.cfg.valid = true := hcfg ▸ hinv.cfg_valid
  obtain ⟨hist, btn, flags, hrun, hkeep⟩ := hsends.run_with_ticks hidle hv inputs hin hcount t.hist t.btn t.evflags
  exact ⟨withInputSide u hist btn flags [], hrun, hidle, htrace, htext, hflags ▸ hkeep⟩

end Sys2Proof.Proofs
end

section
/-! The family 30_encoding.md: decode and encode agree (R91, R95, R96, R100), the code of a word alone selects its row
(R106, R107), and where a step is refused. -/

namespace Sys2Proof.Proofs

open Sys2Proof.Machine Sys2Proof.Laws

/-! ## The operand fields of a word that was put together -/

/-- An operand that was widened reads back from the low bits of its field. -/
@[simp] theorem extractLsb'_setWidth_self {n m : Nat} (x : BitVec n) (h : n ≤ m) :
    (x.setWidth m).extractLsb' 0 n = x := by
  rw [BitVec.extractLsb'_setWidth_of_le (by omega), BitVec.extractLsb'_eq_self]

@[simp] theorem ofBit_bit (sel : Shift) : Shift.ofBit sel.bit = sel := by cases sel <;> rfl

@[simp] theorem bit_ofBit (b : Bool) : (Shift.ofBit b).bit = b := by cases b <;> rfl

/-- The table selector of a Baudot lookup is bit 8 (30_encoding.md R96). -/
@[simp] theorem getElem_selOperand (sel : Shift) (low : Byte) : (selOperand sel low)[8] = sel.bit := by
  rw [← BitVec.getLsbD_eq_getElem, getLsbD_selOperand]
  simp

/-- The character or the code of a Baudot lookup is in bits 7:0 (30_encoding.md R96). -/
@[simp] theorem extractLsb'_selOperand (sel : Shift) (low : Byte) (n : Nat) (h : n ≤ 8) :
    (selOperand sel low).extractLsb' 0 n = low.extractLsb' 0 n :=
  BitVec.extractLsb'_append_eq_of_add_le (by omega)

/-- A field of bits 43:32 of an OUT record (30_encoding.md R100). -/
theorem extractLsb'_outWord_high (kind : BitVec 4) (hi : BitVec 12) (lo : Word32) (start k n : Nat)
    (hs : start = 32 + k) (h : k + n ≤ 12) : (outWord kind hi lo).extractLsb' start n = hi.extractLsb' k n := by
  subst hs
  calc (outWord kind hi lo).extractLsb' (32 + k) n
      = (kind ++ hi).extractLsb' (32 + k - 32) n := BitVec.extractLsb'_append_eq_of_le (by omega)
    _ = hi.extractLsb' k n := by rw [Nat.add_sub_cancel_left, BitVec.extractLsb'_append_eq_of_add_le h]

/-- Bits 31:0 of an OUT record (30_encoding.md R100). -/
theorem extractLsb'_outWord_low (kind : BitVec 4) (hi : BitVec 12) (lo : Word32) :
    (outWord kind hi lo).extractLsb' 0 32 = lo := dField_cmdWord kind hi lo

/-- A SETF record: `ch`, `pll` and `drv` in bits 43:32, the frequency in bits 31:0 (30_encoding.md R100). -/
theorem decode_outWord_setf (hi : BitVec 12) (lo : Word32) :
    decode .synth (outWord 0x1 hi lo) =
      .ok (.setf (hi.extractLsb' 8 4) (hi.extractLsb' 6 2) lo.toNat (hi.extractLsb' 0 6)) := by
  have hch := extractLsb'_outWord_high 0x1 hi lo 40 8 4 rfl (by omega)
  have hpll := extractLsb'_outWord_high 0x1 hi lo 38 6 2 rfl (by omega)
  have hdrv := extractLsb'_outWord_high 0x1 hi lo 32 0 6 rfl (by omega)
  simp only [decode, decodeOut, codeField_outWord, extractLsb'_outWord_low, hch, hpll, hdrv]
  rfl

/-- An INVP record: `ch` in bits 43:40, the phase in bit 0 (30_encoding.md R100). -/
theorem decode_outWord_invp (hi : BitVec 12) (lo : Word32) :
    decode .synth (outWord 0x2 hi lo) = .ok (.invp (hi.extractLsb' 8 4) (lo.getLsbD 0)) := by
  have hch := extractLsb'_outWord_high 0x2 hi lo 40 8 4 rfl (by omega)
  have hinv : (outWord 0x2 hi lo).getLsbD 0 = lo.getLsbD 0 := getLsbD_cmdWord 0x2 hi lo 0
  simp only [decode, decodeOut, codeField_outWord, hch, hinv]
  rfl

/-- A WAIT record: the duration in bits 31:0 (30_encoding.md R100). -/
theorem decode_outWord_wait (hi : BitVec 12) (lo : Word32) :
    decode .synth (outWord 0x4 hi lo) = .ok (.wait lo.toNat) := by
  simp only [decode, decodeOut, codeField_outWord, extractLsb'_outWord_low]
  rfl

/-- Bits 43:32 of a SETF record take apart again (30_encoding.md R100). -/
theorem setf_fields (ch : BitVec 4) (pll : BitVec 2) (drv : BitVec 6) :
    (ch ++ pll ++ drv).extractLsb' 8 4 = ch ∧ (ch ++ pll ++ drv).extractLsb' 6 2 = pll ∧
      (ch ++ pll ++ drv).extractLsb' 0 6 = drv := by
  refine ⟨?_, ?_, BitVec.extractLsb'_append_eq_right⟩
  · rw [BitVec.extractLsb'_append_eq_of_le (by omega)]
    exact BitVec.extractLsb'_append_eq_left
  · rw [BitVec.extractLsb'_append_eq_of_le (by omega)]
    exact BitVec.extractLsb'_append_eq_right

/-- The channel of an INVP record reads back (30_encoding.md R100). -/
theorem extractLsb'_channel (ch : BitVec 4) : (ch.setWidth 12 <<< 8).extractLsb' 8 4 = ch := by
  ext i hi
  rw [BitVec.getElem_extractLsb', BitVec.getLsbD_shiftLeft]
  simp [show 8 + i < 12 by omega, show i < 12 by omega, hi]

/-! ## Decode of encode -/

/-- Only the two parts of a TICK have no word (30_encoding.md R96). -/
theorem encode_eq_none (i : Instr) (h : encode i = none) : (∃ ab, i = .qpoll ab) ∨ ∃ b raw, i = .bpoll b raw := by
  cases i with
  | qpoll ab => exact .inl ⟨ab, rfl⟩
  | bpoll b raw => exact .inr ⟨b, raw, rfl⟩
  | _ => cases h

/-- The word of a well-formed instruction decodes to it on its port. -/
theorem decode_of_encode (nb : Nat) (i : Instr) (p : Port) (w : Word48) (hwf : i.wellFormed nb = true)
    (h : encode i = some (p, w)) : decode p w = .ok i := by
  cases i with
  | qpoll ab => cases h
  | bpoll b raw => cases h
  | tick pin => cases h; rw [decode_pins, decodePin_encodePin]
  | ben b => cases h; simp [decode, decodeCmd]
  | bdis b => cases h; simp [decode, decodeCmd]
  | frd => cases h; simp [decode, decodeCmd]
  | fclr mask => cases h; simp [decode, decodeCmd]
  | fxchg mask => cases h; simp [decode, decodeCmd]
  | blkup sel ch => cases h; simp [decode, decodeCmd]
  | brev sel code => cases h; simp [decode, decodeCmd]
  | sendr len base => cases h; simp [decode, decodeCmd]
  | vlkup ch => cases h; simp [decode, decodeCmd]
  | vrev word => cases h; simp [decode, decodeCmd]
  | sendp len base => cases h; simp [decode, decodeCmd]
  | txwr addr byte => cases h; simp [decode, decodeCmd]
  | init => cases h; simp [decode, decodeCmd]
  | setf ch pll f drv =>
    cases h
    have hf : f < 2 ^ 32 := of_decide_eq_true hwf
    obtain ⟨hch, hpll, hdrv⟩ := setf_fields ch pll drv
    rw [decode_outWord_setf, hch, hpll, hdrv, BitVec.toNat_ofNat, Nat.mod_eq_of_lt hf]
  | invp ch inv => cases h; rw [decode_outWord_invp, extractLsb'_channel]; simp
  | diso => cases h; simp [decode, decodeOut]
  | wait d =>
    cases h
    have hd : d < 2 ^ 32 := of_decide_eq_true hwf
    rw [decode_outWord_wait, BitVec.toNat_ofNat, Nat.mod_eq_of_lt hd]

/-- Settles O15: an instruction has a word, which decodes to it, or is one of the two parts of a TICK. -/
theorem decodeOfEncodeIsTheInstruction : Obligations.DecodeOfEncodeIsTheInstruction := by
  intro nb i hwf
  cases he : encode i with
  | none => exact .inr (encode_eq_none i he)
  | some pw => exact .inl ⟨pw.1, pw.2, rfl, decode_of_encode nb i pw.1 pw.2 hwf he⟩

/-! ## The code selects the row -/

/-- The host port by the code alone: a code of the table has a row, and every other is refused by its name
(30_encoding.md R96, R106, R107). -/
theorem decode_host_cases (w : Word48) :
    (∃ i, decode .host w = .ok i) ∧ 0x1 ≤ (codeField w).toNat ∧ (codeField w).toNat ≤ 0xD ∨
      decode .host w = .error (.reservedOp (codeField w)) ∧
        ¬ (0x1 ≤ (codeField w).toNat ∧ (codeField w).toNat ≤ 0xD) := by
  simp only [decode, decodeCmd]
  split
  case h_14 => exact .inr ⟨rfl, by simp only [imp_false] at *; omega⟩
  all_goals
    rename_i hcode
    exact .inl ⟨⟨_, rfl⟩, by rw [hcode]; decide⟩

/-- The synthesizer port by the kind alone: one of the four records, or a kind that is never emitted (30_encoding.md
R100, R106). -/
theorem decode_synth_cases (w : Word48) :
    (∃ i, decode .synth w = .ok i) ∧ 0x1 ≤ (codeField w).toNat ∧ (codeField w).toNat ≤ 0x4 ∨
      decode .synth w = .error (.reservedKind (codeField w)) ∧
        ¬ (0x1 ≤ (codeField w).toNat ∧ (codeField w).toNat ≤ 0x4) := by
  simp only [decode, decodeOut]
  split
  case h_5 => exact .inr ⟨rfl, by simp only [imp_false] at *; omega⟩
  all_goals
    rename_i hcode
    exact .inl ⟨⟨_, rfl⟩, by rw [hcode]; decide⟩

/-- What the host port decodes is well formed on a block with any number of buttons (30_encoding.md R95, R108). -/
theorem wellFormed_of_decode_host (nb : Nat) (w : Word48) (i : Instr) (h : decode .host w = .ok i) :
    i.wellFormed nb = true := by
  simp only [decode, decodeCmd] at h
  split at h <;> cases h <;> rfl

/-! ## The bits a row uses -/

/-- The low bits of a field, cut out and widened again, are bits of the field. -/
theorem setWidth_extractLsb'_and {m : Nat} (x : BitVec m) (n : Nat) :
    (x.extractLsb' 0 n).setWidth m &&& x = (x.extractLsb' 0 n).setWidth m := by
  ext k hk
  simp +contextual [BitVec.getLsbD_eq_getElem, hk]

/-- The operand of a Baudot lookup that was read from a field, with its character or code from the low bits, is made of
bits of the field. -/
theorem selOperand_and (a : BitVec 12) (low : Byte) (h : ∀ k, low.getLsbD k = true → a.getLsbD k = true) :
    selOperand (Shift.ofBit (a.getLsbD 8)) low &&& a = selOperand (Shift.ofBit (a.getLsbD 8)) low := by
  refine BitVec.eq_of_getLsbD_eq fun k _ => ?_
  rw [BitVec.getLsbD_and, Bool.and_eq_left_iff_imp, getLsbD_selOperand]
  split
  · exact h k
  · simp only [Bool.and_eq_true, decide_eq_true_eq, bit_ofBit, and_imp]
    rintro rfl
    exact id

/-- A CMD word is its three fields (30_encoding.md R95). -/
theorem cmdWord_fields (w : Word48) : cmdWord (codeField w) (aField w) (dField w) = w :=
  calc cmdWord (codeField w) (aField w) (dField w)
      = w.extractLsb' 32 (4 + 12) ++ w.extractLsb' 0 32 :=
        congrArg (· ++ dField w) (BitVec.extractLsb'_append_extractLsb'_eq_extractLsb' rfl)
    _ = w.extractLsb' 0 (4 + 12 + 32) := BitVec.extractLsb'_append_extractLsb'_eq_extractLsb' rfl
    _ = w := BitVec.extractLsb'_eq_self

/-- The words of one code are compared field by field. -/
theorem cmdWord_and (w : Word48) (a : BitVec 12) (d : Word32) (ha : a &&& aField w = a) (hd : d &&& dField w = d) :
    cmdWord (codeField w) a d &&& w = cmdWord (codeField w) a d :=
  calc cmdWord (codeField w) a d &&& w
      = cmdWord (codeField w) a d &&& cmdWord (codeField w) (aField w) (dField w) := by rw [cmdWord_fields]
    _ = cmdWord (codeField w &&& codeField w) (a &&& aField w) (d &&& dField w) :=
        BitVec.and_append.trans (congrArg (· ++ (d &&& dField w)) BitVec.and_append)
    _ = cmdWord (codeField w) a d := by rw [BitVec.and_self, ha, hd]

/-- The encoder's word of an instruction has the code of a given word and is made of its bits (30_encoding.md R95). -/
def EncodedWithin (i : Instr) (w : Word48) : Prop :=
  ∃ v, encode i = some (.host, v) ∧ codeField v = codeField w ∧ v &&& w = v

/-- A row by its code and the operand fields the encoder writes. -/
theorem encodedWithin_of_fields (i : Instr) (w : Word48) (op : BitVec 4) (a : BitVec 12) (d : Word32)
    (hop : (codeField w).toNat = op.toNat) (he : encode i = some (.host, cmdWord op a d)) (ha : a &&& aField w = a)
    (hd : d &&& dField w = d) : EncodedWithin i w := by
  obtain rfl : codeField w = op := BitVec.eq_of_toNat_eq hop
  exact ⟨_, he, codeField_cmdWord _ _ _, cmdWord_and w a d ha hd⟩

/-- Every command's row writes the bits it reads, and no others (30_encoding.md R95, R96). -/
theorem encodedWithin_of_decode_host (w : Word48) (i : Instr) (h : decode .host w = .ok i) : EncodedWithin i w := by
  have low (n : Nat) := setWidth_extractLsb'_and (aField w) n
  have noBits {n : Nat} (x : BitVec n) : 0#n &&& x = 0#n := BitVec.zero_and
  simp only [decode, decodeCmd] at h
  split at h <;> rename_i hop <;> cases h
  · exact encodedWithin_of_fields _ w 0x1 _ _ hop rfl (low 4) (noBits _)
  · exact encodedWithin_of_fields _ w 0x2 _ _ hop rfl (low 4) (noBits _)
  · exact encodedWithin_of_fields _ w 0x3 _ _ hop rfl (noBits _) (noBits _)
  · exact encodedWithin_of_fields _ w 0x4 _ _ hop rfl (noBits _) BitVec.and_self
  · exact encodedWithin_of_fields _ w 0x5 _ _ hop rfl (noBits _) BitVec.and_self
  · exact encodedWithin_of_fields _ w 0x6 _ _ hop rfl (selOperand_and _ _ fun k => by simp) (noBits _)
  · exact encodedWithin_of_fields _ w 0x7 _ _ hop rfl (selOperand_and _ _ fun k => by simp) (noBits _)
  · exact encodedWithin_of_fields _ w 0x8 _ _ hop rfl BitVec.and_self BitVec.and_self
  · exact encodedWithin_of_fields _ w 0x9 _ _ hop rfl (low 8) (noBits _)
  · exact encodedWithin_of_fields _ w 0xA _ _ hop rfl (noBits _) (setWidth_extractLsb'_and _ 16)
  · exact encodedWithin_of_fields _ w 0xB _ _ hop rfl BitVec.and_self BitVec.and_self
  · exact encodedWithin_of_fields _ w 0xC _ _ hop rfl BitVec.and_self (setWidth_extractLsb'_and _ 8)
  · exact encodedWithin_of_fields _ w 0xD _ _ hop rfl (noBits _) (noBits _)

/-- Settles O16: the codes by the cases of the two decoders, and for a command that decodes its own word, which O15's
lemma decodes again. -/
theorem operationCodeAloneSelects : Obligations.OperationCodeAloneSelects := by
  intro w
  refine ⟨?_, ?_, fun i h => ?_⟩
  · rcases decode_host_cases w with ⟨hrow, hcode⟩ | ⟨herr, hcode⟩
    · exact iff_of_true hrow hcode
    · exact iff_of_false (by simp [herr]) hcode
  · rcases decode_synth_cases w with ⟨hrow, hkind⟩ | ⟨herr, hkind⟩
    · exact iff_of_true hrow hkind
    · exact iff_of_false (by simp [herr]) hkind
  · obtain ⟨v, he, hcode, hbits⟩ := encodedWithin_of_decode_host w i h
    exact ⟨v, he, decode_of_encode 0 i .host v (wellFormed_of_decode_host 0 w i h) he, hcode, hbits⟩

/-! ## Sample words -/

/-- Settles O17, word by word. -/
theorem sampleWordsDecode : Obligations.SampleWordsDecode :=
  ⟨rfl, rfl, rfl, rfl, rfl, rfl, rfl, rfl, rfl, rfl, rfl, rfl, rfl, rfl, rfl, rfl⟩

/-! ## Where a step is refused -/

/-- A configuration that breaks a constraint has no step (00_scope.md R7). -/
theorem step_badConfig (s : State) (hv : s.cfg.valid = false) : step s = .refused .badConfig := by
  simp [step, hv]

/-- A command of a code that has no row is refused by its code (30_encoding.md R107). -/
theorem step_reservedOp (s : State) (w : Word48) (rest : List Input) (hv : s.cfg.valid = true) (hm : s.mode = .idle)
    (hin : s.inputs = .host w :: rest) (hd : decode .host w = .error (.reservedOp (codeField w))) :
    step s = .refused (.reservedOp (codeField w)) := by
  have hturn : fetch s = hostTurn w { s with inputs := rest } := by simp only [fetch, hm, hin, takeInput_idle]
  simp only [step, hv, if_true, hturn, hostTurn, hd]

/-- A hardware reset behind commands that wait is refused (70_reset_and_hazards.md R323). -/
theorem step_resetWhileSending (s : State) (waiting rest : List Input) (hv : s.cfg.valid = true) (hm : s.mode ≠ .idle)
    (hw : ∀ x ∈ waiting, isHost x = true) (hin : s.inputs = waiting ++ .reset :: rest) :
    step s = .refused .resetWhileSending := by
  have htake := takeInput_behind s.mode waiting rest .reset rfl (.inr ⟨hm, hw⟩)
  have hturn : fetch s = .done (hardReset { s with inputs := waiting ++ rest }) := by simp only [fetch, hin, htake]
  simp only [step, hv, if_true, hturn, hardReset, hm, if_false]

/-- An idle block with nothing arriving stays as it is (70_reset_and_hazards.md R321). -/
theorem step_nothingArriving (s : State) (hv : s.cfg.valid = true) (hm : s.mode = .idle) (hin : s.inputs = []) :
    step s = .next s := by
  have hturn : fetch s = encoderTurn s := by simp only [fetch, hin, takeInput_nil]
  simp only [step, hv, if_true, hturn, encoderTurn, encoderNext_idle s hm]

/-- Settles O2, clause by clause: the codes 0, E and F are those without a row. -/
theorem stepRefusesWhatTheSpecLeavesOut : Obligations.StepRefusesWhatTheSpecLeavesOut := by
  intro s
  refine ⟨step_badConfig s, fun w rest hv hm hin hcode => ?_, step_resetWhileSending s, step_nothingArriving s⟩
  refine step_reservedOp s w rest hv hm hin ?_
  rcases decode_host_cases w with ⟨-, hrow⟩ | ⟨herr, -⟩
  · rcases hcode with hcode | hcode | hcode <;> rw [hcode] at hrow <;> exact absurd hrow (by decide)
  · exact herr

end Sys2Proof.Proofs
end

section
/-! The family 40_quadrature.md: QPOLL shifts the history and reads the table (R126), the table counts only one-step
transitions and is antisymmetric (R122 to R124), a reversed rotation negates the deltas (R127), and TICK polls the
decoder and every button (R130). -/

namespace Sys2Proof.Proofs

open Sys2Proof.Machine Sys2Proof.Safety Sys2Proof.Laws

/-! ## What QPOLL answers -/

/-- The history index is the old history shifted left by two, with the sample in the low bits (40_quadrature.md R126). -/
theorem historyIndex_eq_shift (h : BitVec 4) (q : BitVec 2) : historyIndex h q = h <<< 2 ||| q.setWidth 4 := by
  revert h q
  decide

/-- The delta of two consecutive samples, the previous one and the current one (40_quadrature.md R122). -/
def sampleDelta (c : Config) (p q : BitVec 2) : Delta := c.qtAt (4 * p.toNat + q.toNat)

/-- Of the history, QPOLL keeps the new sample for the next poll (40_quadrature.md R126). -/
@[simp] theorem qpoll_hist_setWidth (c : Config) (h : BitVec 4) (q : BitVec 2) : (qpoll c h q).1.setWidth 2 = q :=
  setWidth_historyIndex h q

/-- QPOLL's delta depends on no sample older than the previous one (40_quadrature.md R126, R127). -/
@[simp] theorem qpoll_delta (c : Config) (h : BitVec 4) (q : BitVec 2) :
    (qpoll c h q).2 = sampleDelta c (h.setWidth 2) q :=
  congrArg c.qtAt (toNat_historyIndex h q)

/-- Both results of QPOLL in terms of the whole old history (40_quadrature.md R126): the two bits above the previous
sample are shifted out of the index. -/
theorem qpoll_eq (c : Config) (h : BitVec 4) (q : BitVec 2) :
    qpoll c h q = (h <<< 2 ||| q.setWidth 4, c.qtAt ((4 * h.toNat + q.toNat) % 16)) := by
  have hindex : (historyIndex h q).toNat = (4 * h.toNat + q.toNat) % 16 := by
    rw [toNat_historyIndex, BitVec.toNat_setWidth]
    omega
  rw [← historyIndex_eq_shift, ← hindex]
  rfl

/-- Settles O18: the operation writes HIST and the delta that the decoder's step answers, and nothing else. -/
theorem qpollShiftsHistoryAndReadsTable : Obligations.QpollShiftsHistoryAndReadsTable := by
  intro s ab
  simp only [exec, execQpoll, qpoll_eq, Config.qtAt]

/-! ## The decode table -/

/-- A sample pair whose delta is not zero differs in exactly one bit (40_quadrature.md R123). -/
theorem oneStep_of_sampleDelta_ne_zero {c : Config} (hq : QtableFacts c) (p q : BitVec 2)
    (hne : sampleDelta c p q ≠ .zero) : p ^^^ q = 1 ∨ p ^^^ q = 2 := by
  have hbits := hq.one_step p.toNat p.isLt q.toNat q.isLt hne
  rw [← BitVec.toNat_xor] at hbits
  exact hbits.imp BitVec.eq_of_toNat_eq BitVec.eq_of_toNat_eq

/-- Two samples in the other order give the opposite delta (40_quadrature.md R124). -/
theorem sampleDelta_swap {c : Config} (hq : QtableFacts c) (p q : BitVec 2) :
    sampleDelta c q p = (sampleDelta c p q).neg :=
  hq.antisymmetric p.toNat p.isLt q.toNat q.isLt

/-- The opposite delta stands for the opposite number (40_quadrature.md R124). -/
theorem toInt_neg_delta (d : Delta) : d.neg.toInt = -d.toInt := by cases d <;> rfl

/-- The 16 sample pairs run through the table in the order of its index (40_quadrature.md R122). -/
theorem sampleDelta_of_index (c : Config) (n : Nat) (hn : n < 16) :
    sampleDelta c (BitVec.ofNat 2 (n / 4)) (BitVec.ofNat 2 n) = c.qtAt n := by
  have hindex : 4 * (BitVec.ofNat 2 (n / 4)).toNat + (BitVec.ofNat 2 n).toNat = n := by
    simp only [BitVec.toNat_ofNat]
    omega
  rw [sampleDelta, hindex]

/-- The indices of a full table, each read, give the table. -/
theorem map_qtAt_range (c : Config) (hlen : c.qtable.length = 16) : (List.range 16).map c.qtAt = c.qtable := by
  refine List.ext_getElem (by simp [hlen]) fun n _ hn => ?_
  simp [Config.qtAt, hn]

/-- A delta is given by as many sample pairs as there are entries of it in the table. -/
theorem countP_sampleDelta {c : Config} (hlen : c.qtable.length = 16) (d : Delta) :
    (List.range 16).countP (fun n => sampleDelta c (BitVec.ofNat 2 (n / 4)) (BitVec.ofNat 2 n) == d) =
      c.qtable.count d :=
  calc
    _ = (List.range 16).countP ((· == d) ∘ c.qtAt) :=
      List.countP_congr fun n hn => by
        rw [sampleDelta_of_index c n (List.mem_range.1 hn), Function.comp_apply]
    _ = ((List.range 16).map c.qtAt).countP (· == d) := List.countP_map.symm
    _ = c.qtable.count d := by rw [map_qtAt_range c hlen, List.count]

/-- Settles O19, from the constraints an admissible table meets. -/
theorem decodeTableIsAntisymmetricOneStep : Obligations.DecodeTableIsAntisymmetricOneStep := by
  intro c hv delta
  have hq := qtableFacts_of_valid c hv
  have hdelta (p q : BitVec 2) : delta p q = sampleDelta c p q := by
    simp only [delta, qpoll_delta, BitVec.setWidth_setWidth_of_le p (show 2 ≤ 4 by decide), BitVec.setWidth_eq]
  simp only [hdelta]
  exact ⟨hq.length, fun p q => by rw [sampleDelta_swap hq q p, toInt_neg_delta], oneStep_of_sampleDelta_ne_zero hq,
    (countP_sampleDelta hq.length .cw).trans hq.cw, (countP_sampleDelta hq.length .ccw).trans hq.ccw⟩

/-! ## A reversed sample sequence -/

/-- One more poll at the end adds the delta from the last sample before it, which is HIST's own if there was none. -/
theorem pollDeltas_concat (c : Config) (h : BitVec 4) (ss : List (BitVec 2)) (q : BitVec 2) :
    pollDeltas c h (ss ++ [q]) =
      pollDeltas c h ss ++ [sampleDelta c ((h.setWidth 2 :: ss).getLast (List.cons_ne_nil _ _)) q] := by
  induction ss generalizing h with
  | nil => simp [pollDeltas]
  | cons s ss ih => simp [pollDeltas, ih]

/-- Settles O20, by induction on the samples: the first pair of the sequence is the last one of its reverse, in the other
order. -/
theorem reversedSamplesNegateDeltas : Obligations.ReversedSamplesNegateDeltas := by
  intro c s0 ss hv
  have hq := qtableFacts_of_valid c hv
  induction ss generalizing s0 with
  | nil => intro h h' _ _; rfl
  | cons s ss ih =>
    intro h h' hfirst hlast
    have hlast' : h'.setWidth 2 = (s :: ss).getLast (List.cons_ne_nil _ _) := hlast
    have hrev : h'.setWidth 2 :: (s :: ss).reverse.tail = (s :: ss).reverse := by
      rw [hlast', ← List.head_reverse (by simp), List.cons_head_tail]
    have htail : (s0 :: s :: ss).reverse.tail = (s :: ss).reverse.tail ++ [s0] := by
      rw [List.reverse_cons, List.tail_append_of_ne_nil (by simp)]
    have hrest := ih s (qpoll c h s).1 h' (qpoll_hist_setWidth c h s) hlast'
    calc
      _ = pollDeltas c h' (s :: ss).reverse.tail ++ [sampleDelta c s s0] := by
        rw [htail, pollDeltas_concat]
        simp only [hrev, List.getLast_reverse, List.head_cons]
      _ = ((pollDeltas c (qpoll c h s).1 ss).map Delta.neg).reverse ++ [(sampleDelta c s0 s).neg] := by
        rw [hrest, sampleDelta_swap hq s0 s]
      _ = _ := by simp [pollDeltas, hfirst]

/-! ## The tick -/

/-- Settles O21: the decoder's part is QPOLL, the buttons' part is the loop of TICK over a full list of trackers. -/
theorem tickPollsDecoderAndEveryButton : Obligations.TickPollsDecoderAndEveryButton := by
  intro s pin hlen hnb
  refine ⟨_, rfl, rfl, rfl, pollButtons_length .., fun b B hB => ?_, fun n => ?_⟩
  · simp only [← hlen, pollButtons_getElem?, hB, Option.map_some, Nat.zero_add]
  · have hbuttons := getLsbD_pollButtons s.cfg pin 0 s.btn (by omega) n
    simp only [Nat.zero_add] at hbuttons
    simp only [← hlen, BitVec.getLsbD_or, Bool.or_eq_true, getLsbD_rotationFlags, hbuttons, or_assoc, sampleOf]

end Sys2Proof.Proofs
end

section
/-! The family 41_button.md: BPOLL field by field (R146), the press (R147, R148, R154), the release (R149), the long press
(R150), and BEN and BDIS (R152, R153). -/

namespace Sys2Proof.Proofs

open Sys2Proof.Machine Sys2Proof.Safety Sys2Proof.Laws

/-! ## One tick of the tracker, field by field -/

/-- The tick counts towards a press: the button is held, armed and not pushed (41_button.md R147). -/
def countsPress (c : Config) (b : Nat) (raw : Bool) (B : Button) : Bool :=
  raw == c.heldLevel.getLsbD b && !B.pushed && B.en

/-- The press fires on this tick: it counts, and makes the count PBDEBOUNCE (41_button.md R147). -/
def firesPress (c : Config) (b : Nat) (raw : Bool) (B : Button) : Bool :=
  countsPress c b raw B && decide (c.pbDebounce ≤ B.dbc + 1)

/-- What a press needs (41_button.md R147). -/
theorem firesPress_iff (c : Config) (b : Nat) (raw : Bool) (B : Button) :
    firesPress c b raw B = true ↔
      raw = c.heldLevel.getLsbD b ∧ B.pushed = false ∧ B.en = true ∧ c.pbDebounce ≤ B.dbc + 1 := by
  simp [firesPress, countsPress, and_assoc]

/-- BPOLL on either level (41_button.md R146). -/
theorem bpoll_eq (c : Config) (b : Nat) (raw : Bool) (B : Button) :
    bpoll c b raw B =
      let held := raw == c.heldLevel.getLsbD b
      let fires := firesPress c b raw B
      let lpr := held && decide (c.pushButtonReset ≤ B.lpc + 1)
      ({ lvl := raw
         dbc := if countsPress c b raw B && !fires then B.dbc + 1 else 0
         pushed := fires || (B.pushed && (held || decide (1 < B.rlx)))
         en := B.en && !fires
         lpc := if held && !lpr then B.lpc + 1 else 0
         rlx := if held then (if B.pushed || fires then c.pbRelax else B.rlx)
                else if B.pushed then B.rlx - 1 else B.rlx }, ⟨fires, lpr⟩) := by
  by_cases hraw : raw = c.heldLevel.getLsbD b
  · subst hraw
    have hlpc : (if c.pushButtonReset ≤ B.lpc + 1 then 0 else B.lpc + 1) =
        if B.lpc + 1 < c.pushButtonReset then B.lpc + 1 else 0 := by simp only [← Nat.not_lt, ite_not]
    cases hpushed : B.pushed with
    | true => simp [bpoll, firesPress, countsPress, hpushed, hlpc]
    | false =>
      cases hen : B.en with
      | false => simp [bpoll, firesPress, countsPress, hpushed, hen, hlpc]
      | true =>
        by_cases hcount : c.pbDebounce ≤ B.dbc + 1 <;>
          simp [bpoll, firesPress, countsPress, hpushed, hen, hcount, hlpc]
  · obtain rfl : raw = !c.heldLevel.getLsbD b := Bool.eq_not.2 hraw
    rw [bpoll_released]
    simp [firesPress, countsPress]

@[simp] theorem bpoll_pressed (c : Config) (b : Nat) (raw : Bool) (B : Button) :
    (bpoll c b raw B).2.pressed = firesPress c b raw B := by rw [bpoll_eq]

@[simp] theorem bpoll_en (c : Config) (b : Nat) (raw : Bool) (B : Button) :
    (bpoll c b raw B).1.en = (B.en && !firesPress c b raw B) := by rw [bpoll_eq]

@[simp] theorem bpoll_dbc (c : Config) (b : Nat) (raw : Bool) (B : Button) :
    (bpoll c b raw B).1.dbc = if countsPress c b raw B && !firesPress c b raw B then B.dbc + 1 else 0 := by rw [bpoll_eq]

@[simp] theorem bpoll_pushed (c : Config) (b : Nat) (raw : Bool) (B : Button) :
    (bpoll c b raw B).1.pushed =
      (firesPress c b raw B || (B.pushed && (raw == c.heldLevel.getLsbD b || decide (1 < B.rlx)))) := by rw [bpoll_eq]

/-- Settles O23: the record and the results written are those of the tracker's step. -/
theorem bpollUpdatesEachField : Obligations.BpollUpdatesEachField := by
  intro s b raw B hb hB
  simp only [exec, execBpoll, hb, hB, if_true, bpoll_eq]
  rfl

/-- Settles O24: a button index at or above NB has no record to write. -/
theorem bpollOfNoButtonDoesNothing : Obligations.BpollOfNoButtonDoesNothing := by
  intro s b raw hb
  simp only [exec, execBpoll, Nat.not_lt.2 hb, if_false]

/-- PUSHED rises with a press only (41_button.md R154 (c)). -/
theorem firesPress_of_pushed_rises (c : Config) (b : Nat) (raw : Bool) (B : Button) (hold : B.pushed = false)
    (hnew : (bpoll c b raw B).1.pushed = true) : firesPress c b raw B = true := by
  simpa [hold] using hnew

/-- Settles O29, from the condition of the press. -/
theorem pressOnlyWhenArmed : Obligations.PressOnlyWhenArmed := by
  intro c b raw B
  refine ⟨fun hpress => ?_, fun hold hnew => ?_⟩
  · rw [bpoll_pressed] at hpress
    obtain ⟨-, hpushed, hen, -⟩ := (firesPress_iff c b raw B).1 hpress
    exact ⟨hen, hpushed, by simp [hpress], by simp [hpress]⟩
  · rw [bpoll_pressed]
    exact firesPress_of_pushed_rises c b raw B hold hnew

/-! ## A disabled button -/

/-- A disabled tracker fires no press (41_button.md R148). -/
theorem firesPress_of_disabled (c : Config) (b : Nat) (raw : Bool) (B : Button) (hen : B.en = false) :
    firesPress c b raw B = false := by
  simp [firesPress, countsPress, hen]

/-- Settles O28, by induction on the raw levels: a tick of a disabled tracker fires nothing and leaves it disabled. -/
theorem disabledButtonNeverPresses : Obligations.DisabledButtonNeverPresses := by
  intro c b raws
  induction raws with
  | nil => intro B hen; exact ⟨fun p hp => (List.not_mem_nil hp).elim, hen, id⟩
  | cons raw raws ih =>
    intro B hen
    have hquiet := firesPress_of_disabled c b raw B hen
    obtain ⟨hresults, hlatch, hpushed⟩ := ih (bpoll c b raw B).1 (by simp [hen])
    refine ⟨fun p hp => ?_, hlatch, fun hB => hpushed (by simp [hB, hquiet])⟩
    rcases List.mem_cons.1 hp with rfl | hp
    · rw [bpoll_pressed, hquiet]
    · exact hresults p hp

/-! ## Runs of ticks with one level -/

/-- One more tick at the end of a run. -/
theorem pollTracker_concat (c : Config) (b : Nat) (raws : List Bool) (raw : Bool) (B : Button) :
    pollTracker c b (raws ++ [raw]) B = (bpoll c b raw (pollTracker c b raws B)).1 := by
  induction raws generalizing B with
  | nil => rfl
  | cons r raws ih => exact ih _

/-- The result of one more tick at the end of a run. -/
theorem pollResults_concat (c : Config) (b : Nat) (raws : List Bool) (raw : Bool) (B : Button) :
    pollResults c b (raws ++ [raw]) B = pollResults c b raws B ++ [(bpoll c b raw (pollTracker c b raws B)).2] := by
  induction raws generalizing B with
  | nil => rfl
  | cons r raws ih => exact congrArg (_ :: ·) (ih _)

/-- The tracker after `k` ticks on the level `raw`. -/
def trackerAfter (c : Config) (b : Nat) (raw : Bool) (B : Button) (k : Nat) : Button :=
  pollTracker c b (List.replicate k raw) B

@[simp] theorem trackerAfter_zero (c : Config) (b : Nat) (raw : Bool) (B : Button) : trackerAfter c b raw B 0 = B := rfl

theorem trackerAfter_succ (c : Config) (b : Nat) (raw : Bool) (B : Button) (k : Nat) :
    trackerAfter c b raw B (k + 1) = (bpoll c b raw (trackerAfter c b raw B k)).1 := by
  rw [trackerAfter, List.replicate_succ', pollTracker_concat, trackerAfter]

/-- Tick n of a run on one level (from 0) polls the tracker after n ticks. -/
theorem pollResults_replicate (c : Config) (b : Nat) (raw : Bool) (B : Button) (k : Nat) :
    pollResults c b (List.replicate k raw) B =
      (List.range k).map fun n => (bpoll c b raw (trackerAfter c b raw B n)).2 := by
  induction k with
  | zero => rfl
  | succ k ih =>
    rw [List.replicate_succ', pollResults_concat, ih, List.range_succ, List.map_append]
    rfl

/-- The result of a tick of a run on one level. -/
theorem eq_of_pollResults_replicate (c : Config) (b : Nat) (raw : Bool) (B : Button) (k n : Nat) (p : Press)
    (h : (pollResults c b (List.replicate k raw) B)[n]? = some p) :
    p = (bpoll c b raw (trackerAfter c b raw B n)).2 := by
  rw [pollResults_replicate, List.getElem?_map, Option.map_eq_some_iff] at h
  obtain ⟨m, hm, rfl⟩ := h
  obtain ⟨-, rfl⟩ := List.getElem?_eq_some_iff.1 hm
  rw [List.getElem_range]

/-! ## The press of a held button -/

/-- After `n` held ticks from an armed tracker with DBC 0, the press is still to come and DBC counts the ticks, or it is
over (41_button.md R147). -/
theorem trackerAfter_held_of_armed (c : Config) (b : Nat) (B : Button) (hpushed : B.pushed = false) (hen : B.en = true)
    (hdbc : B.dbc = 0) (hdeb : 1 ≤ c.pbDebounce) (n : Nat) :
    let Bn := trackerAfter c b (c.heldLevel.getLsbD b) B n
    (n < c.pbDebounce ∧ Bn.pushed = false ∧ Bn.en = true ∧ Bn.dbc = n) ∨ (c.pbDebounce ≤ n ∧ Bn.pushed = true) := by
  induction n with
  | zero => exact .inl ⟨hdeb, hpushed, hen, hdbc⟩
  | succ n ih =>
    simp only [trackerAfter_succ, bpoll_pushed, bpoll_en, bpoll_dbc]
    rcases ih with ⟨hlt, hp, he, hd⟩ | ⟨hle, hp⟩
    · by_cases hn : n + 1 < c.pbDebounce
      · exact .inl ⟨hn, by simp [firesPress, countsPress, hp, he, hd, hn]⟩
      · exact .inr ⟨by omega, by simp [firesPress, countsPress, hp, he, hd, Nat.not_lt.1 hn]⟩
    · exact .inr ⟨by omega, by simp [hp]⟩

/-- Settles O25: the tick after n held ticks fires if the press is still to come and PBDEBOUNCE is n + 1. -/
theorem heldButtonPressesOnceOnTickPbdebounce : Obligations.HeldButtonPressesOnceOnTickPbdebounce := by
  intro c b k hdeb n p hp
  rw [eq_of_pollResults_replicate c b _ _ k n p hp, bpoll_pressed, firesPress_iff]
  rcases trackerAfter_held_of_armed c b (Button.afterReset c b) rfl rfl rfl hdeb n with
    ⟨hlt, hpushed, hen, hdbc⟩ | ⟨hle, hpushed⟩
  · simp only [hpushed, hen, hdbc, true_and]
    omega
  · simp only [hpushed, Bool.true_eq_false, false_and, and_false, false_iff]
    omega

/-! ## The long press -/

/-- The rest of the next number counts up and starts again at the divisor. -/
theorem add_one_mod_eq (t n : Nat) (ht : 1 ≤ t) : (n + 1) % t = if t ≤ n % t + 1 then 0 else n % t + 1 := by
  have hlt : n % t < t := Nat.mod_lt n ht
  rw [← Nat.mod_add_mod]
  split
  · rw [show n % t + 1 = t by omega, Nat.mod_self]
  · exact Nat.mod_eq_of_lt (by omega)

/-- The rest reaches its bound just before a multiple of the divisor. -/
theorem le_mod_add_one_iff_dvd (t n : Nat) (ht : 1 ≤ t) : t ≤ n % t + 1 ↔ t ∣ n + 1 := by
  rw [Nat.dvd_iff_mod_eq_zero, add_one_mod_eq t n ht]
  split <;> simp_all

/-- LPC after n held ticks from 0 is the rest of n by PUSH_BUTTON_RESET (41_button.md R150). -/
theorem trackerAfter_held_lpc (c : Config) (b : Nat) (B : Button) (hlpc : B.lpc = 0) (ht : 1 ≤ c.pushButtonReset)
    (n : Nat) : (trackerAfter c b (c.heldLevel.getLsbD b) B n).lpc = n % c.pushButtonReset := by
  induction n with
  | zero => rw [trackerAfter_zero, hlpc, Nat.zero_mod]
  | succ n ih =>
    rw [trackerAfter_succ, (bpoll_held_lpr c b _).2, ih, add_one_mod_eq _ n ht]

/-- The long press fires on exactly the multiples of PUSH_BUTTON_RESET (41_button.md R150). -/
theorem bpoll_trackerAfter_held_lpr (c : Config) (b : Nat) (B : Button) (hlpc : B.lpc = 0)
    (ht : 1 ≤ c.pushButtonReset) (n : Nat) :
    (bpoll c b (c.heldLevel.getLsbD b) (trackerAfter c b (c.heldLevel.getLsbD b) B n)).2.lpr =
      decide (c.pushButtonReset ∣ n + 1) := by
  rw [(bpoll_held_lpr c b _).1, trackerAfter_held_lpc c b B hlpc ht, decide_eq_decide,
    le_mod_add_one_iff_dvd _ n ht]

/-- There are k / t multiples of t among 1 to k. -/
theorem countP_dvd_range (t k : Nat) : (List.range k).countP (fun n => decide (t ∣ n + 1)) = k / t := by
  induction k with
  | zero => simp
  | succ k ih => simp [List.range_succ, ih, Nat.succ_div, List.countP_singleton]

/-- Settles O26: a held tick and a released tick of any tracker, and the rest LPC keeps along a run. -/
theorem longPressRepeatsEveryThreshold : Obligations.LongPressRepeatsEveryThreshold := by
  intro c b B
  refine ⟨bpoll_held_lpr c b B, by rw [bpoll_released]; exact ⟨rfl, rfl⟩, fun k ht hlpc => ⟨fun n p hp => ?_, ?_⟩⟩
  · rw [eq_of_pollResults_replicate c b _ _ k n p hp, bpoll_trackerAfter_held_lpr c b B hlpc ht, decide_eq_true_iff]
  · calc
      _ = (List.range k).countP fun n => decide (c.pushButtonReset ∣ n + 1) := by
        rw [pollResults_replicate, List.countP_map]
        simp only [Function.comp_def, bpoll_trackerAfter_held_lpr c b B hlpc ht]
      _ = k / c.pushButtonReset := countP_dvd_range _ k

/-! ## The release -/

/-- PUSHED lasts as long as RLX counts down, one a released tick (41_button.md R149). -/
theorem trackerAfter_released_of_pushed (c : Config) (b : Nat) (B : Button) (hpushed : B.pushed = true)
    (hrlx : 1 ≤ B.rlx) (k : Nat) :
    let Bk := trackerAfter c b (!c.heldLevel.getLsbD b) B k
    Bk.pushed = decide (k < B.rlx) ∧ (k < B.rlx → Bk.rlx = B.rlx - k) := by
  induction k with
  | zero => exact ⟨hpushed.trans (decide_eq_true hrlx).symm, fun _ => rfl⟩
  | succ k ih =>
    obtain ⟨hp, hr⟩ := ih
    simp only [trackerAfter_succ, bpoll_released, hp]
    by_cases hk : k < B.rlx
    · simp only [hr hk, hk, decide_true, Bool.true_and, if_true, decide_eq_decide]
      omega
    · simp only [hk, decide_false, Bool.false_and, Bool.false_eq, decide_eq_false_iff_not]
      omega

/-- Settles O27: a held tick left RLX at PBRELAX, so PUSHED lasts PBRELAX released ticks. -/
theorem pushedClearsAfterPbrelaxReleases : Obligations.PushedClearsAfterPbrelaxReleases := by
  intro c b k B hrelax hpushed hrlx
  have hcount := (trackerAfter_released_of_pushed c b B hpushed (hrlx ▸ hrelax) k).1
  rw [trackerAfter] at hcount
  rw [hcount, hrlx, decide_eq_true_iff]

/-! ## BEN and BDIS -/

/-- A CMD word of code 0x1 is BEN of bits 35:32 (30_encoding.md R96). -/
theorem decode_cmdWord_ben (a : BitVec 12) (d : Word32) :
    decode .host (cmdWord 0x1 a d) = .ok (.ben (a.setWidth 4)) := by
  simp [decode, decodeCmd, BitVec.setWidth_eq_extractLsb']

/-- A CMD word of code 0x2 is BDIS of bits 35:32 (30_encoding.md R96). -/
theorem decode_cmdWord_bdis (a : BitVec 12) (d : Word32) :
    decode .host (cmdWord 0x2 a d) = .ok (.bdis (a.setWidth 4)) := by
  simp [decode, decodeCmd, BitVec.setWidth_eq_extractLsb']

/-- What an operation leaves that writes one tracker's record and answers no result (41_button.md R152, R153). -/
theorem whenIdle_onButton (s : State) (b : Nat) (f : Button → Button) (hm : s.mode = .idle) :
    ∃ t, whenIdle s (finish (onButton s b f) none) = .next t ∧ t = { s with btn := t.btn, res := none } ∧
      ∀ j, t.btn[j]? = if j = b ∧ j < s.cfg.nb then (s.btn[j]?).map f else s.btn[j]? := by
  refine ⟨{ onButton s b f with res := none }, whenIdle_idle s _ hm, ?_, onButton_getElem? s b f⟩
  rw [onButton_frame]

/-- Settles O30: the row of code 0x1, and the write of one tracker's record. -/
theorem benSetsTheLatchOnly : Obligations.BenSetsTheLatchOnly :=
  ⟨decode_cmdWord_ben, fun s b => whenIdle_onButton s b.toNat _⟩

/-- Settles O31: the row of code 0x2, and the write of one tracker's record. -/
theorem bdisClearsTheLatchOnly : Obligations.BdisClearsTheLatchOnly :=
  ⟨decode_cmdWord_bdis, fun s b => whenIdle_onButton s b.toNat _⟩

end Sys2Proof.Proofs
end

section
/-! The family 42_event_flags.md: FRD (R174), FCLR (R175) and FXCHG (R176), each from the row of its code, the state it
leaves in an idle block, and the bits of the two flag words it computes. -/

namespace Sys2Proof.Proofs

open Sys2Proof.Machine Sys2Proof.Laws

/-! ## The rows of the flag operations -/

/-- A CMD word of code 0x3 is FRD, whatever its operand bits (30_encoding.md R95, R96). -/
theorem decode_cmdWord_frd (a : BitVec 12) (d : Word32) : decode .host (cmdWord 0x3 a d) = .ok .frd := by
  simp [decode, decodeCmd]

/-- A CMD word of code 0x4 is FCLR of bits 31:0 (30_encoding.md R96). -/
theorem decode_cmdWord_fclr (a : BitVec 12) (d : Word32) : decode .host (cmdWord 0x4 a d) = .ok (.fclr d) := by
  simp [decode, decodeCmd]

/-- A CMD word of code 0x5 is FXCHG of bits 31:0 (30_encoding.md R96). -/
theorem decode_cmdWord_fxchg (a : BitVec 12) (d : Word32) : decode .host (cmdWord 0x5 a d) = .ok (.fxchg d) := by
  simp [decode, decodeCmd]

/-! ## What each leaves in an idle block -/

/-- FRD returns the flags and writes no register (42_event_flags.md R174). -/
theorem exec_frd_of_idle (s : State) (hm : s.mode = .idle) :
    exec .frd s = .next { s with res := some (readFlags s.cfg.nb s.evflags) } :=
  whenIdle_idle s _ hm

/-- FCLR writes EVFLAGS and returns nothing (42_event_flags.md R175). -/
theorem exec_fclr_of_idle (s : State) (mask : Word32) (hm : s.mode = .idle) :
    exec (.fclr mask) s = .next { s with evflags := clearFlags s.cfg.nb s.evflags mask, res := none } :=
  whenIdle_idle s _ hm

/-- FXCHG writes EVFLAGS and returns the flags as they were before (42_event_flags.md R176). -/
theorem exec_fxchg_of_idle (s : State) (mask : Word32) (hm : s.mode = .idle) :
    exec (.fxchg mask) s =
      .next { s with evflags := clearFlags s.cfg.nb s.evflags mask, res := some (readFlags s.cfg.nb s.evflags) } :=
  whenIdle_idle s _ hm

/-- A flag that a clear takes away is a bit of the register, so a read before the clear returns it
(42_event_flags.md R176). -/
theorem getLsbD_readFlags_of_cleared (nb : Nat) (ev mask : Word32) (n : Nat) (hset : ev.getLsbD n = true)
    (hcleared : (clearFlags nb ev mask).getLsbD n = false) : (readFlags nb ev).getLsbD n = true := by
  rw [getLsbD_clearFlags, hset, Bool.true_and, Bool.not_eq_false', Bool.and_eq_true] at hcleared
  obtain ⟨-, hlt⟩ := hcleared
  rw [getLsbD_readFlags, hset, hlt, Bool.true_and]

/-! ## The statements -/

/-- Settles O32: the row of code 0x3, and the bits of the word that FRD returns. -/
theorem frdReturnsTheFlags : Obligations.FrdReturnsTheFlags :=
  ⟨decode_cmdWord_frd, fun s hm => ⟨_, exec_frd_of_idle s hm, getLsbD_readFlags _ _⟩⟩

/-- Settles O33: the row of code 0x4, and the bits of the word that FCLR leaves. -/
theorem fclrClearsTheMaskedFlags : Obligations.FclrClearsTheMaskedFlags :=
  ⟨decode_cmdWord_fclr, fun s mask hm => ⟨_, exec_fclr_of_idle s mask hm, getLsbD_clearFlags _ _ mask⟩⟩

/-- Settles O34: the row of code 0x5, the bits of both words, and that a flag the clear takes away was returned. -/
theorem fxchgReadsAndClearsAtOnce : Obligations.FxchgReadsAndClearsAtOnce :=
  ⟨decode_cmdWord_fxchg, fun s mask hm => ⟨_, _, exec_fxchg_of_idle s mask hm, getLsbD_clearFlags _ _ mask,
    getLsbD_readFlags _ _, getLsbD_readFlags_of_cleared _ _ mask⟩⟩

end Sys2Proof.Proofs
end

section
/-! The family 43_baudot_rtty.md: the two lookups and their round trip (R196 to R198), the shape of a frame (R209), the
issue of a SENDR and the whole message it sends (R205, R214), and the codes of each kind of character (R211, R212, R216,
R217). -/

namespace Sys2Proof.Proofs

open Sys2Proof.Machine Sys2Proof.Safety Sys2Proof.Laws

/-! ## The rows of the Baudot operations -/

/-- The selector a bit stands for, by cases (30_encoding.md R96). -/
theorem ofBit_eq_ite (b : Bool) : Shift.ofBit b = if b then .figures else .letters := by cases b <;> rfl

/-- A CMD word of code 0x6 is BLKUP with sel in bit 40 and the character in bits 39:32 (30_encoding.md R96). -/
theorem decode_cmdWord_blkup (a : BitVec 12) (d : Word32) :
    decode .host (cmdWord 0x6 a d) = .ok (.blkup (if a.getLsbD 8 then .figures else .letters) (a.setWidth 8)) := by
  simp [decode, decodeCmd, BitVec.setWidth_eq_extractLsb', ofBit_eq_ite]

/-- A CMD word of code 0x7 is BREV with sel in bit 40 and the code in bits 36:32 (30_encoding.md R96). -/
theorem decode_cmdWord_brev (a : BitVec 12) (d : Word32) :
    decode .host (cmdWord 0x7 a d) = .ok (.brev (if a.getLsbD 8 then .figures else .letters) (a.setWidth 5)) := by
  simp [decode, decodeCmd, BitVec.setWidth_eq_extractLsb', ofBit_eq_ite]

/-- A CMD word of code 0x8 is SENDR of bits 43:32 and bits 31:0 (30_encoding.md R96). -/
theorem decode_cmdWord_sendr (a : BitVec 12) (d : Word32) : decode .host (cmdWord 0x8 a d) = .ok (.sendr a d) := by
  simp [decode, decodeCmd]

/-! ## The lookups -/

/-- BLKUP returns the code of the forward lookup and writes no register (43_baudot_rtty.md R196). -/
theorem exec_blkup_of_idle (s : State) (sel : Shift) (ch : Byte) (hm : s.mode = .idle) :
    exec (.blkup sel ch) s = .next { s with res := some (BitVec.ofNat 32 (blookup s.cfg sel ch).toNat) } := by
  rw [BitVec.ofNat_toNat]
  exact whenIdle_idle s _ hm

/-- BREV returns the entry at the code and writes no register (43_baudot_rtty.md R197). -/
theorem exec_brev_of_idle (s : State) (sel : Shift) (code : BitVec 5) (hm : s.mode = .idle) :
    exec (.brev sel code) s = .next { s with res := some ((readBaudot s.cfg sel code.toNat).setWidth 32) } :=
  whenIdle_idle s _ hm

/-- The first index of an admissible table that holds a byte is a code: index 32 holds what index 0 holds
(43_baudot_rtty.md R192, R196). -/
theorem first_index_le {c : Config} {t : List Byte} (T : TableFacts c t) (ch : Byte) (k : Nat) (hk : t[k]? = some ch)
    (hfirst : ∀ j < k, t[j]? ≠ some ch) : k ≤ 31 := by
  have hlt : k < 33 := T.length ▸ (List.getElem?_eq_some_iff.1 hk).1
  have hne : k ≠ 32 := by
    rintro rfl
    exact hfirst 0 (by decide) (T.zero.trans (T.last.symm.trans hk))
  omega

/-- The forward lookup finds the first index that holds the character, and answers 0 where none does
(43_baudot_rtty.md R196). -/
theorem blookup_first_match (c : Config) (sel : Shift) (T : TableFacts c (c.baudot sel)) (ch : Byte) :
    ((c.baudot sel)[(blookup c sel ch).toNat]? = some ch ∧
        ∀ j < (blookup c sel ch).toNat, (c.baudot sel)[j]? ≠ some ch) ∨
      ((blookup c sel ch).toNat = 0 ∧ ∀ j ≤ 32, (c.baudot sel)[j]? ≠ some ch) := by
  cases hf : (c.baudot sel).findIdx? (fun e => e == ch) with
  | none =>
    have hmem : ch ∉ c.baudot sel := fun hin => by
      simpa using List.findIdx?_eq_none_iff.1 hf ch hin
    exact .inr ⟨by rw [blookup_of_not_mem c sel ch hmem]; rfl, fun j _ hj => hmem (List.mem_of_getElem? hj)⟩
  | some i =>
    obtain ⟨hlt, hat, hbefore⟩ := List.findIdx?_eq_some_iff_getElem.1 hf
    have hi : (c.baudot sel)[i]? = some ch := by
      rw [List.getElem?_eq_getElem hlt]
      simpa using hat
    have hfirst : ∀ j < i, (c.baudot sel)[j]? ≠ some ch := fun j hj hjch => by
      rw [List.getElem?_eq_getElem (hj.trans hlt), Option.some.injEq] at hjch
      exact hbefore j hj (by simp [hjch])
    have hle := first_index_le T ch i hi hfirst
    have hcode : (blookup c sel ch).toNat = i := by
      simp only [blookup, hf, hle, if_true, BitVec.toNat_ofNat]
      omega
    rw [hcode]
    exact .inl ⟨hi, hfirst⟩

/-- NUL stands at index 0 of every admissible table, so its code is 0 (43_baudot_rtty.md R192). -/
theorem blookup_nul (c : Config) (sel : Shift) (T : TableFacts c (c.baudot sel)) : blookup c sel 0 = 0 := by
  refine BitVec.eq_of_toNat_eq ?_
  rcases blookup_first_match c sel T 0 with ⟨-, hfirst⟩ | ⟨hzero, -⟩
  · exact Nat.eq_zero_of_not_pos fun hpos => hfirst 0 hpos T.zero
  · exact hzero

/-- In an admissible table every code has an entry (43_baudot_rtty.md R192). -/
theorem getElem?_eq_readBaudot (c : Config) (sel : Shift) (T : TableFacts c (c.baudot sel)) (code : BitVec 5) :
    (c.baudot sel)[code.toNat]? = some (readBaudot c sel code.toNat) := by
  have hlt : code.toNat < (c.baudot sel).length := by rw [T.length]; omega
  simp [readBaudot, List.getD_eq_getElem?_getD, List.getElem?_eq_getElem hlt]

/-- The entry at an index that holds a byte. -/
theorem readBaudot_of_getElem? (c : Config) (sel : Shift) (k : Nat) (ch : Byte) (h : (c.baudot sel)[k]? = some ch) :
    readBaudot c sel k = ch := by
  rw [readBaudot, List.getD_eq_getElem?_getD, h, Option.getD_some]

/-- The sentinel entries are 0 (43_baudot_rtty.md R192, R197). -/
theorem readBaudot_sentinel (c : Config) (sel : Shift) (T : TableFacts c (c.baudot sel)) (code : BitVec 5)
    (h : code = 0 ∨ code = c.ltrsCode ∨ code = c.figsCode) : readBaudot c sel code.toNat = 0 := by
  rcases h with rfl | rfl | rfl
  · exact readBaudot_of_getElem? c sel _ 0 T.zero
  · exact readBaudot_of_getElem? c sel _ 0 T.ltrs
  · exact readBaudot_of_getElem? c sel _ 0 T.figs

/-- Settles O35: the row of code 0x6, and the first index that holds the character as BLKUP's result. -/
theorem blkupFindsTheFirstMatch : Obligations.BlkupFindsTheFirstMatch := by
  refine ⟨decode_cmdWord_blkup, fun s sel ch hm hv => ?_⟩
  have T := (baudotFacts_of_valid s.cfg hv).table sel
  exact ⟨_, Nat.le_of_lt_succ (blookup s.cfg sel ch).isLt, exec_blkup_of_idle s sel ch hm,
    blookup_first_match s.cfg sel T ch⟩

/-- Settles O36: the row of code 0x7, and the entry at the code as BREV's result. -/
theorem brevReadsTheEntry : Obligations.BrevReadsTheEntry := by
  refine ⟨decode_cmdWord_brev, fun s sel code hm hv => ?_⟩
  have T := (baudotFacts_of_valid s.cfg hv).table sel
  exact ⟨_, getElem?_eq_readBaudot s.cfg sel T code, exec_brev_of_idle s sel code hm,
    readBaudot_sentinel s.cfg sel T code⟩

/-- Settles O37: a non-zero byte stands at one index of an admissible table, and that index is its code. -/
theorem baudotRoundTrip : Obligations.BaudotRoundTrip := by
  intro c sel hv
  have T := (baudotFacts_of_valid c hv).table sel
  refine ⟨fun ch hne hmem => ?_, fun k hne => ?_⟩
  · obtain ⟨i, hi⟩ := List.mem_iff_getElem?.1 hmem
    rw [(blookup_of_getElem? c sel T i ch hne hi).1]
    exact readBaudot_of_getElem? c sel i ch hi
  · exact BitVec.eq_of_toNat_eq (blookup_of_getElem? c sel T _ _ hne (getElem?_eq_readBaudot c sel T k)).1

/-! ## The shape of a frame -/

/-- TONE after two sequences of elements. -/
theorem toneAfter_append (now : Bool) (es fs : List (Bool × Nat)) :
    toneAfter now (es ++ fs) = toneAfter (toneAfter now es) fs := List.foldl_append

/-- The events of two sequences of elements: the second starts with the TONE the first leaves. -/
theorem elemsEvents_append (c : Config) (mark space : Nat) (now : Bool) (es fs : List (Bool × Nat)) :
    elemsEvents c mark space now (es ++ fs) =
      elemsEvents c mark space now es ++ elemsEvents c mark space (toneAfter now es) fs := by
  induction es generalizing now with
  | nil => rfl
  | cons e es ih => simp [elemsEvents, ih, toneAfter]

/-- The events of one more element. -/
theorem elemsEvents_concat (c : Config) (mark space : Nat) (now : Bool) (es : List (Bool × Nat)) (tone : Bool)
    (t : Nat) :
    elemsEvents c mark space now (es ++ [(tone, t)]) =
      elemsEvents c mark space now es ++ elemEvents c mark space (toneAfter now es) tone t := by
  simp [elemsEvents_append, elemsEvents]

/-- An element is a SETF exactly when it changes TONE (43_baudot_rtty.md R210). -/
theorem filter_isSetf_elemEvents (c : Config) (mark space : Nat) (now tone : Bool) (t : Nat) :
    (elemEvents c mark space now tone t).filter isSetf =
      if tone = now then [] else [setf c (if tone then mark else space)] := by
  unfold elemEvents
  split <;> rfl

/-- The SETF events of a sequence of elements: that of the first, if it changes TONE, and those of the rest. -/
theorem filter_isSetf_elemsEvents_cons (c : Config) (mark space : Nat) (now tone : Bool) (t : Nat)
    (es : List (Bool × Nat)) :
    (elemsEvents c mark space now ((tone, t) :: es)).filter isSetf =
      (if tone = now then [] else [setf c (if tone then mark else space)]) ++
        (elemsEvents c mark space tone es).filter isSetf := by
  rw [elemsEvents, List.filter_append, filter_isSetf_elemEvents]

/-- At most one SETF an element. -/
theorem countP_isSetf_elemsEvents_le (c : Config) (mark space : Nat) (now : Bool) (es : List (Bool × Nat)) :
    (elemsEvents c mark space now es).countP isSetf ≤ es.length := by
  induction es generalizing now with
  | nil => exact Nat.le_refl 0
  | cons e es ih =>
    have hrest := ih e.1
    rw [List.countP_eq_length_filter] at hrest ⊢
    rw [filter_isSetf_elemsEvents_cons, List.length_append, List.length_cons]
    split <;> simp only [List.length_nil, List.length_singleton] <;> omega

/-- The SETF events come in pairs exactly when TONE comes back to where it was. -/
theorem countP_isSetf_elemsEvents_mod_two (c : Config) (mark space : Nat) (now : Bool) (es : List (Bool × Nat)) :
    (elemsEvents c mark space now es).countP isSetf % 2 = if toneAfter now es = now then 0 else 1 := by
  induction es generalizing now with
  | nil => simp [elemsEvents, toneAfter]
  | cons e es ih =>
    have hrest := ih e.1
    have htone : toneAfter now (e :: es) = toneAfter e.1 es := rfl
    rw [List.countP_eq_length_filter] at hrest ⊢
    rw [filter_isSetf_elemsEvents_cons, htone]
    by_cases hsame : e.1 = now
    · simpa [hsame] using hrest
    · have hflip : (toneAfter e.1 es = now) ↔ ¬ toneAfter e.1 es = e.1 := by
        rw [Bool.eq_not_of_ne hsame]
        cases toneAfter (!now) es <;> cases now <;> decide
      by_cases hback : toneAfter e.1 es = e.1 <;> simp [hsame, hflip, hback, Nat.add_mod, hrest]

/-- The last SETF of a sequence of elements is of the TONE they leave, if the one before them was of the TONE they
start with (43_baudot_rtty.md R210). -/
theorem getLast?_filter_isSetf_elemsEvents (c : Config) (mark space : Nat) (now : Bool) (es : List (Bool × Nat)) :
    (setf c (if now then mark else space) :: (elemsEvents c mark space now es).filter isSetf).getLast? =
      some (setf c (if toneAfter now es then mark else space)) := by
  induction es generalizing now with
  | nil => rfl
  | cons e es ih =>
    have htone : toneAfter now (e :: es) = toneAfter e.1 es := rfl
    rw [filter_isSetf_elemsEvents_cons, htone, ← ih e.1]
    by_cases hsame : e.1 = now
    · simp [hsame]
    · simp [hsame, List.getLast?_cons_cons]

/-- The events of an element end with a wait (43_baudot_rtty.md R210). -/
theorem elemEvents_ends_in_wait (c : Config) (mark space : Nat) (now tone : Bool) (t : Nat) :
    ∃ front d, elemEvents c mark space now tone t = front ++ [.wait d] := by
  unfold elemEvents
  split
  · exact ⟨[], t, rfl⟩
  · exact ⟨[_], t - c.tSwitch, rfl⟩

/-- A frame is its first six elements, of which the last is bit 4 of the code, and the stop element (43_baudot_rtty.md
R209). -/
theorem frameEvents_stop (c : Config) (mark space : Nat) (code : BitVec 5) :
    ∃ front d, frameEvents c mark space code =
      front ++ [.wait d] ++ elemEvents c mark space (code.getLsbD 4) true c.tRstop := by
  obtain ⟨es, hsplit⟩ : ∃ es, frameElems c code = es ++ [(code.getLsbD 4, c.tRbit)] ++ [(true, c.tRstop)] :=
    ⟨(frameElems c code).take 5, rfl⟩
  obtain ⟨front, d, hwait⟩ := elemEvents_ends_in_wait c mark space (toneAfter true es) (code.getLsbD 4) c.tRbit
  refine ⟨elemsEvents c mark space true es ++ front, d, ?_⟩
  rw [frameEvents, hsplit, elemsEvents_concat, elemsEvents_concat, hwait, toneAfter_append, List.append_assoc _ front]
  rfl

/-- A frame starts with the change to space, and its other six elements follow (43_baudot_rtty.md R209). -/
theorem frameEvents_start (c : Config) (mark space : Nat) (code : BitVec 5) :
    frameEvents c mark space code = setf c space :: .wait (c.tRbit - c.tSwitch) ::
      elemsEvents c mark space false (frameElems c code).tail := rfl

/-- Settles O52: a frame leaves mark and comes back to it, so its SETF events are even in number, at least the one of the
start element and at most one for each of the seven elements. -/
theorem frameShape : Obligations.FrameShape := by
  intro c mark space code es
  have heven : es.countP isSetf % 2 = 0 := countP_isSetf_elemsEvents_mod_two c mark space true (frameElems c code)
  have hle : es.countP isSetf ≤ 7 := countP_isSetf_elemsEvents_le c mark space true (frameElems c code)
  have hpos : 1 ≤ es.countP isSetf :=
    List.countP_pos_iff.2 ⟨setf c space, by simp [es, frameEvents_start], rfl⟩
  have hlast : (es.filter isSetf).getLast? = some (setf c mark) :=
    getLast?_filter_isSetf_elemsEvents c mark space false (frameElems c code).tail
  obtain ⟨front, d, hstop⟩ := frameEvents_stop c mark space code
  refine ⟨by omega, by omega, ⟨_, frameEvents_start c mark space code⟩, hlast, fun hbit => ⟨front, d, ?_⟩,
    fun hbit => ⟨front, d, ?_⟩⟩
  · rw [show es = _ from hstop, hbit, List.append_assoc]
    rfl
  · rw [show es = _ from hstop, hbit, List.append_assoc]
    rfl

/-! ## The issue of a SENDR -/

/-- A SENDR whose frequencies fit writes the session registers and starts the encoder agent (43_baudot_rtty.md R205). -/
theorem exec_sendr_of_fits (s : State) (len : BitVec 12) (base : Word32) (hm : s.mode = .idle)
    (hmark : hertzFits s.cfg (markHertz s.cfg base) = true) (hspace : hertzFits s.cfg (spaceHertz s.cfg base) = true) :
    exec (.sendr len base) s = .next
      { s with nlen := min len.toNat s.cfg.maxLen, fmark := (markHertz s.cfg base).toNat,
               fspace := (spaceHertz s.cfg base).toNat, idx := 0, mode := .rtty, todo := rttyPreamble s.cfg,
               res := none } := by
  simp [exec, execSendr, hm, hmark, hspace, finish_eq, effectiveLength]

/-- A SENDR whose mark frequency does not fit is refused (30_encoding.md R102). -/
theorem exec_sendr_of_mark_unfit (s : State) (len : BitVec 12) (base : Word32) (hm : s.mode = .idle)
    (hmark : hertzFits s.cfg (markHertz s.cfg base) = false) :
    exec (.sendr len base) s = .refused (.freqOutOfRange (markHertz s.cfg base)) := by
  simp [exec, execSendr, hm, hmark]

/-- A SENDR whose space frequency alone does not fit is refused (30_encoding.md R102). -/
theorem exec_sendr_of_space_unfit (s : State) (len : BitVec 12) (base : Word32) (hm : s.mode = .idle)
    (hmark : hertzFits s.cfg (markHertz s.cfg base) = true)
    (hspace : hertzFits s.cfg (spaceHertz s.cfg base) = false) :
    exec (.sendr len base) s = .refused (.freqOutOfRange (spaceHertz s.cfg base)) := by
  simp [exec, execSendr, hm, hmark, hspace]

/-- Both frequencies of a SENDR fit, or it is refused for one that does not (30_encoding.md R102). -/
theorem exec_sendr_cases (s : State) (len : BitVec 12) (base : Word32) (hm : s.mode = .idle) :
    (hertzFits s.cfg (markHertz s.cfg base) = true ∧ hertzFits s.cfg (spaceHertz s.cfg base) = true) ∨
      ∃ f, hertzFits s.cfg f = false ∧ exec (.sendr len base) s = .refused (.freqOutOfRange f) := by
  cases hmark : hertzFits s.cfg (markHertz s.cfg base) with
  | false => exact .inr ⟨_, hmark, exec_sendr_of_mark_unfit s len base hm hmark⟩
  | true =>
    cases hspace : hertzFits s.cfg (spaceHertz s.cfg base) with
    | false => exact .inr ⟨_, hspace, exec_sendr_of_space_unfit s len base hm hmark hspace⟩
    | true => exact .inl ⟨rfl, rfl⟩

/-- Settles O47: the row of code 0x8, and the two outcomes of the range check. -/
theorem sendrIssuesOrRefuses : Obligations.SendrIssuesOrRefuses := by
  refine ⟨decode_cmdWord_sendr, fun s len base hm => ⟨fun hmark hspace => ?_, fun hunfit => ?_⟩⟩
  · exact ⟨_, exec_sendr_of_fits s len base hm ((hertzFits_iff _ _).2 hmark) ((hertzFits_iff _ _).2 hspace),
      Int.toNat_of_nonneg hmark.1, Int.toNat_of_nonneg hspace.1, rfl⟩
  · rcases exec_sendr_cases s len base hm with ⟨hmark, hspace⟩ | ⟨f, hf, hrefused⟩
    · rcases hunfit with hunfit | hunfit
      · exact absurd ((hertzFits_iff _ _).1 hmark) hunfit
      · exact absurd ((hertzFits_iff _ _).1 hspace) hunfit
    · exact ⟨f, fun hfits => by simp [(hertzFits_iff _ _).2 hfits] at hf, hrefused⟩

/-- The issue of a SENDR leaves what has yet to arrive. -/
theorem exec_sendr_inputs (s t : State) (len : BitVec 12) (base : Word32) (hm : s.mode = .idle)
    (h : exec (.sendr len base) s = .next t) : t.inputs = s.inputs := by
  rcases exec_sendr_cases s len base hm with ⟨hmark, hspace⟩ | ⟨f, -, hrefused⟩
  · rw [exec_sendr_of_fits s len base hm hmark hspace] at h
    cases h
    rfl
  · rw [hrefused] at h
    cases h

/-! ## The whole message -/

/-- What the agent sends up to an idle state it sends in as many steps as events, with nothing arriving (43_baudot_rtty.md
R215, 44_varicode_psk31.md R249). -/
theorem Sends.run_with_nothing_arriving {s t : State} {es : List Event} (hs : Sends s es t) (ht : t.mode = .idle)
    (hv : s.cfg.valid = true) (hin : s.inputs = []) : Host.Core.run Sys2Proof.core es.length s = .next t := by
  induction es generalizing s with
  | nil =>
    obtain rfl := hs.eq_of_idle ht
    rfl
  | cons e es ih =>
    obtain ⟨i, u, hn, he, hrest⟩ := hs.next_event
    have hframe := encoderNext_frame s u i hn
    have hcfg : (emit u e).cfg = s.cfg := by rw [emit_cfg, hframe]
    have hinputs : (emit u e).inputs = s.inputs := by rw [emit_inputs, hframe]
    rw [List.length_cons, run_succ _ _ _ ((step_of_encoderNext s u i hv hin hn).trans (he u))]
    exact ih hrest (hcfg ▸ hv) (hinputs.trans hin)

/-- Settles O49: what the agent sends after the issue it sends in as many steps as events. -/
theorem sendrSendsTheWholeMessage : Obligations.SendrSendsTheWholeMessage := by
  intro s t len base hv hm hin h text events
  obtain ⟨htrace, -, hsends⟩ := sends_of_sendr s t len base hm h
  have hvalid : t.cfg.valid = true := (memoryFrame_of_exec _ s t h).cfg ▸ hv
  have hinputs : t.inputs = [] := (exec_sendr_inputs s t len base hm h).trans hin
  rw [hsends.run_with_nothing_arriving rfl hvalid hinputs, htrace]

/-! ## The codes of a character -/

/-- A character with a code is that code in its own shift (43_baudot_rtty.md R211). -/
theorem charCodes_of_mapped (c : Config) (ch : Byte) (sel : Shift) (code : BitVec 5)
    (hlook : lookupChar c ch = (sel, code)) (hne : code ≠ 0) : charCodes c sel ch = ([code], sel) := by
  rw [charCodes_eq, hlook, if_neg hne, if_pos rfl]
  rfl

/-- A character with a code takes the shift code of its own shift first in the other one (43_baudot_rtty.md R211). -/
theorem charCodes_of_mapped_other (c : Config) (ch : Byte) (sh sel : Shift) (code : BitVec 5)
    (hlook : lookupChar c ch = (sel, code)) (hne : code ≠ 0) (hsh : sh ≠ sel) :
    charCodes c sh ch = ([shiftCode c sel, code], sel) := by
  rw [charCodes_eq, hlook, if_neg hne, if_neg hsh]
  rfl

/-- A character without a code is sent as the space and a Letters shift (43_baudot_rtty.md R211, R212). -/
theorem charCodes_of_unmapped (c : Config) (sh : Shift) (ch : Byte) (h : (lookupChar c ch).2 = 0) :
    charCodes c sh ch = ([c.spaceCode, c.ltrsCode], .letters) := by
  rw [charCodes_eq, if_pos h]

/-- The letters of both cases are ALPHA, and upper-casing takes both to the upper-case letter (30_encoding.md R104). -/
theorem letter_class_and_case : ∀ k < 26,
    classOf (BitVec.ofNat 8 (0x41 + k)) = .alpha ∧ classOf (BitVec.ofNat 8 (0x61 + k)) = .alpha ∧
    upperCase (BitVec.ofNat 8 (0x41 + k)) = BitVec.ofNat 8 (0x41 + k) ∧
    upperCase (BitVec.ofNat 8 (0x61 + k)) = BitVec.ofNat 8 (0x41 + k) ∧ (BitVec.ofNat 8 (0x41 + k) : Byte) ≠ 0 := by
  decide

/-- A letter of either case is looked up as the upper-case letter in Letters (43_baudot_rtty.md R211). -/
theorem lookupChar_letter (c : Config) (k : Nat) (hk : k < 26) :
    lookupChar c (BitVec.ofNat 8 (0x41 + k)) = (.letters, blookup c .letters (BitVec.ofNat 8 (0x41 + k))) ∧
    lookupChar c (BitVec.ofNat 8 (0x61 + k)) = (.letters, blookup c .letters (BitVec.ofNat 8 (0x41 + k))) := by
  obtain ⟨hupper, hlower, hcase, hcase', -⟩ := letter_class_and_case k hk
  constructor
  · rw [lookupChar, hupper, hcase]
  · rw [lookupChar, hlower, hcase']

/-- A character of class OTHER is looked up in Figures (43_baudot_rtty.md R211). -/
theorem lookupChar_other (c : Config) (ch : Byte) (h : classOf ch = .other) :
    lookupChar c ch = (.figures, blookup c .figures ch) := by
  rw [lookupChar, h]

/-- Every letter of an admissible Letters table has a code. -/
theorem blookup_letter_ne_zero {c : Config} (F : BaudotFacts c) (k : Nat) (hk : k < 26) :
    blookup c .letters (BitVec.ofNat 8 (0x41 + k)) ≠ 0 := by
  obtain ⟨-, -, -, -, hne⟩ := letter_class_and_case k hk
  exact blookup_ne_zero c .letters (F.table .letters) _ hne (F.upper k hk)

/-- A letter is one code in Letters and takes a Letters shift in Figures, and its case does not matter
(43_baudot_rtty.md R211, R216). -/
theorem charCodes_letter {c : Config} (F : BaudotFacts c) (k : Nat) (hk : k < 26) :
    charCodes c .letters (BitVec.ofNat 8 (0x41 + k)) =
      ([blookup c .letters (BitVec.ofNat 8 (0x41 + k))], .letters) ∧
    charCodes c .figures (BitVec.ofNat 8 (0x41 + k)) =
      ([c.ltrsCode, blookup c .letters (BitVec.ofNat 8 (0x41 + k))], .letters) ∧
    ∀ sh, charCodes c sh (BitVec.ofNat 8 (0x61 + k)) = charCodes c sh (BitVec.ofNat 8 (0x41 + k)) := by
  obtain ⟨hupper, hlower⟩ := lookupChar_letter c k hk
  have hne := blookup_letter_ne_zero F k hk
  refine ⟨charCodes_of_mapped c _ _ _ hupper hne, charCodes_of_mapped_other c _ _ _ _ hupper hne (by decide), ?_⟩
  intro sh
  rw [charCodes_eq, charCodes_eq, hupper, hlower]

/-- A non-zero character of class OTHER that stands in Figures is one code there and takes a Figures shift in Letters
(43_baudot_rtty.md R211, R217). -/
theorem charCodes_figure {c : Config} (F : BaudotFacts c) (ch : Byte) (hclass : classOf ch = .other)
    (hmem : ch ∈ c.baudotFigs) (hne : ch ≠ 0) :
    blookup c .figures ch ≠ 0 ∧ charCodes c .figures ch = ([blookup c .figures ch], .figures) ∧
    charCodes c .letters ch = ([c.figsCode, blookup c .figures ch], .figures) := by
  have hlook := lookupChar_other c ch hclass
  have hcode := blookup_ne_zero c .figures (F.table .figures) ch hne hmem
  exact ⟨hcode, charCodes_of_mapped c _ _ _ hlook hcode,
    charCodes_of_mapped_other c _ _ _ _ hlook hcode (by decide)⟩

/-- The space, an unmapped character of class OTHER and NUL have no code (43_baudot_rtty.md R211, R212). -/
theorem lookupChar_without_code {c : Config} (F : BaudotFacts c) (ch : Byte)
    (h : ch = 0x20 ∨ (classOf ch = .other ∧ ch ∉ c.baudotFigs) ∨ ch = 0) : (lookupChar c ch).2 = 0 := by
  rcases h with rfl | ⟨hclass, hmem⟩ | rfl
  · rfl
  · rw [lookupChar_other c ch hclass]
    exact blookup_of_not_mem c .figures ch hmem
  · rw [lookupChar_other c 0 rfl]
    exact blookup_nul c .figures (F.table .figures)

/-- The codes of a message of one character (43_baudot_rtty.md R214). -/
theorem rttyCodes_singleton (c : Config) (ch : Byte) :
    rttyCodes c [ch] = List.replicate 4 c.ltrsCode ++ (charCodes c .letters ch).1 := by
  simp [rttyCodes, textCodes]

/-- The digits are of class OTHER and not NUL (30_encoding.md R104). -/
theorem digit_class : ∀ k < 10,
    classOf (BitVec.ofNat 8 (0x30 + k)) = .other ∧ (BitVec.ofNat 8 (0x30 + k) : Byte) ≠ 0 := by decide

/-- Settles O56: by the class of the character and whether its table holds it. -/
theorem characterCodes : Obligations.CharacterCodes := by
  intro c hv
  have F := baudotFacts_of_valid c hv
  refine ⟨?_, fun k hk => ?_, fun k hk => ⟨blookup_letter_ne_zero F k hk, charCodes_letter F k hk⟩,
    charCodes_figure F, fun sh ch hch => charCodes_of_unmapped c sh ch (lookupChar_without_code F ch hch)⟩
  · obtain ⟨hletter, -⟩ := charCodes_letter F 4 (by decide)
    rw [rttyCodes_singleton]
    exact congrArg (fun r => List.replicate 4 c.ltrsCode ++ r.1) hletter
  · obtain ⟨hclass, hne⟩ := digit_class k hk
    obtain ⟨-, -, hcodes⟩ := charCodes_figure F _ hclass (F.digits k hk).1 hne
    rw [rttyCodes_singleton, hcodes]

end Sys2Proof.Proofs
end

section
/-! The family 44_varicode_psk31.md: the two lookups and their round trip (R236 to R238), the issue of a SENDP and the
whole message it sends (R243, R244, R251), the operands of its INVP events (R251), and that its bits decode back to the
text (R252). -/

namespace Sys2Proof.Proofs

open Sys2Proof.Machine Sys2Proof.Safety Sys2Proof.Laws

/-! ## The rows of the Varicode operations -/

/-- A CMD word of code 0x9 is VLKUP of the character in bits 39:32 (30_encoding.md R96). -/
theorem decode_cmdWord_vlkup (a : BitVec 12) (d : Word32) :
    decode .host (cmdWord 0x9 a d) = .ok (.vlkup (a.setWidth 8)) := by
  simp [decode, decodeCmd, BitVec.setWidth_eq_extractLsb']

/-- A CMD word of code 0xA is VREV of the word in bits 15:0 (30_encoding.md R96). -/
theorem decode_cmdWord_vrev (a : BitVec 12) (d : Word32) :
    decode .host (cmdWord 0xA a d) = .ok (.vrev (d.setWidth 16)) := by
  simp [decode, decodeCmd, BitVec.setWidth_eq_extractLsb']

/-- A CMD word of code 0xB is SENDP of bits 43:32 and bits 31:0 (30_encoding.md R96). -/
theorem decode_cmdWord_sendp (a : BitVec 12) (d : Word32) : decode .host (cmdWord 0xB a d) = .ok (.sendp a d) := by
  simp [decode, decodeCmd]

/-! ## The lookups -/

/-- VLKUP returns the forward lookup and writes no register (44_varicode_psk31.md R236). -/
theorem exec_vlkup_of_idle (s : State) (ch : Byte) (hm : s.mode = .idle) :
    exec (.vlkup ch) s = .next { s with res := some ((vlookup s.cfg ch).setWidth 32) } :=
  whenIdle_idle s _ hm

/-- VREV returns the reverse lookup and writes no register (44_varicode_psk31.md R237). -/
theorem exec_vrev_of_idle (s : State) (w : VWord) (hm : s.mode = .idle) :
    exec (.vrev w) s = .next { s with res := some ((vreverse s.cfg w).setWidth 32) } :=
  whenIdle_idle s _ hm

/-- In an admissible table every character below 128 has an entry (44_varicode_psk31.md R232). -/
theorem getElem?_eq_readVari {c : Config} (V : VaricodeFacts c) (ch : Nat) (h : ch < 128) :
    c.varicode[ch]? = some (readVari c ch) := by
  have hlt : ch < c.varicode.length := V.length ▸ h
  simp [readVari, List.getD_eq_getElem?_getD, List.getElem?_eq_getElem hlt]

/-- Every entry of an admissible table is an admissible word (44_varicode_psk31.md R232). -/
theorem wordFacts_readVari {c : Config} (V : VaricodeFacts c) (ch : Nat) (h : ch < 128) : WordFacts (readVari c ch) :=
  V.word _ (List.mem_of_getElem? (getElem?_eq_readVari V ch h))

/-- The forward lookup of a character below 0x80 is its entry (44_varicode_psk31.md R236). -/
theorem vlookup_of_lt (c : Config) (ch : Byte) (h : ch.toNat < 0x80) : vlookup c ch = readVari c ch.toNat :=
  if_neg (Nat.not_le.2 h)

/-- A character at or above 0x80 has no pattern (44_varicode_psk31.md R236). -/
theorem vlookup_of_ge (c : Config) (ch : Byte) (h : 0x80 ≤ ch.toNat) : vlookup c ch = 0 := if_pos h

/-- The reverse lookup of the entry of a character is the character (44_varicode_psk31.md R238). -/
theorem vreverse_readVari {c : Config} (V : VaricodeFacts c) (ch : Nat) (h : ch < 128) :
    vreverse c (readVari c ch) = BitVec.ofNat 8 ch :=
  vreverse_of_getElem? c V _ ch (getElem?_eq_readVari V ch h)

/-- Settles O38: the row of code 0x9, and the two sides of 0x80. -/
theorem vlkupReadsTheWord : Obligations.VlkupReadsTheWord := by
  refine ⟨decode_cmdWord_vlkup, fun s ch hm hv => ?_⟩
  have V := varicodeFacts_of_valid s.cfg hv
  rw [exec_vlkup_of_idle s ch hm]
  refine ⟨fun hge => ?_, fun hlt => ?_⟩
  · rw [vlookup_of_ge s.cfg ch hge]
    rfl
  · rw [vlookup_of_lt s.cfg ch hlt]
    exact ⟨_, getElem?_eq_readVari V _ hlt, (wordFacts_readVari V _ hlt).ne_zero, rfl⟩

/-- Settles O39: the row of code 0xA, and whether an entry holds the word. -/
theorem vrevFindsTheCharacter : Obligations.VrevFindsTheCharacter := by
  refine ⟨decode_cmdWord_vrev, fun s w hm hv => ?_⟩
  have V := varicodeFacts_of_valid s.cfg hv
  rw [exec_vrev_of_idle s w hm]
  refine ⟨fun ch hlt hch => ?_, fun hnone => ?_⟩
  · rw [vreverse_of_getElem? s.cfg V w ch hch, BitVec.setWidth_ofNat_of_le_of_lt (by decide) (by omega)]
  · have hmem : w ∉ s.cfg.varicode := fun hw => by
      obtain ⟨ch, hch⟩ := List.mem_iff_getElem?.1 hw
      exact hnone ch (V.length ▸ (List.getElem?_eq_some_iff.1 hch).1) hch
    rw [vreverse_of_not_mem s.cfg w hmem]
    rfl

/-- Settles O40: a character below 0x80 is looked up forward as its entry, and the entry is no other character's. -/
theorem varicodeRoundTrip : Obligations.VaricodeRoundTrip := by
  intro c ch hv hle
  have hlt : ch.toNat < 128 := by omega
  rw [vlookup_of_lt c ch hlt, vreverse_readVari (varicodeFacts_of_valid c hv) _ hlt, BitVec.ofNat_toNat,
    BitVec.setWidth_eq]

/-! ## The issue of a SENDP -/

/-- A SENDP whose carrier fits writes the session registers and starts the encoder agent (44_varicode_psk31.md R243). -/
theorem exec_sendp_of_fits (s : State) (len : BitVec 12) (base : Word32) (hm : s.mode = .idle)
    (hcarrier : hertzFits s.cfg (markHertz s.cfg base) = true) :
    exec (.sendp len base) s = .next
      { s with nlen := min len.toNat s.cfg.maxLen, fmark := (markHertz s.cfg base).toNat, idx := 0, mode := .psk,
               todo := pskPreamble s.cfg, res := none } := by
  simp [exec, execSendp, hm, hcarrier, finish_eq, effectiveLength]

/-- A SENDP whose carrier does not fit is refused (30_encoding.md R102). -/
theorem exec_sendp_of_unfit (s : State) (len : BitVec 12) (base : Word32) (hm : s.mode = .idle)
    (hcarrier : hertzFits s.cfg (markHertz s.cfg base) = false) :
    exec (.sendp len base) s = .refused (.freqOutOfRange (markHertz s.cfg base)) := by
  simp [exec, execSendp, hm, hcarrier]

/-- Settles O48: the row of code 0xB, and the two outcomes of the range check. -/
theorem sendpIssuesOrRefuses : Obligations.SendpIssuesOrRefuses := by
  refine ⟨decode_cmdWord_sendp, fun s len base hm => ⟨fun hfits => ?_, fun hunfit => ?_⟩⟩
  · exact ⟨_, exec_sendp_of_fits s len base hm ((hertzFits_iff _ _).2 hfits), Int.toNat_of_nonneg hfits.1, rfl⟩
  · exact exec_sendp_of_unfit s len base hm (Bool.eq_false_iff.2 (mt (hertzFits_iff _ _).1 hunfit))

/-- The issue of a SENDP leaves what has yet to arrive. -/
theorem exec_sendp_inputs (s t : State) (len : BitVec 12) (base : Word32) (hm : s.mode = .idle)
    (h : exec (.sendp len base) s = .next t) : t.inputs = s.inputs := by
  cases hcarrier : hertzFits s.cfg (markHertz s.cfg base) with
  | true =>
    rw [exec_sendp_of_fits s len base hm hcarrier] at h
    cases h
    rfl
  | false =>
    rw [exec_sendp_of_unfit s len base hm hcarrier] at h
    cases h

/-! ## The whole message -/

/-- Settles O50: what the agent sends after the issue it sends in as many steps as events. -/
theorem sendpSendsTheWholeMessage : Obligations.SendpSendsTheWholeMessage := by
  intro s t len base hv hm hin h text events
  obtain ⟨htrace, -, hsends⟩ := sends_of_sendp s t len base hm h
  have hvalid : t.cfg.valid = true := (memoryFrame_of_exec _ s t h).cfg ▸ hv
  have hinputs : t.inputs = [] := (exec_sendp_inputs s t len base hm h).trans hin
  rw [hsends.run_with_nothing_arriving rfl hvalid hinputs, htrace]

/-! ## The operands of the INVP events -/

/-- The INVP operands of two traces, one after the other. -/
theorem invpOperands_append (es fs : List Event) : invpOperands (es ++ fs) = invpOperands es ++ invpOperands fs := by
  induction es with
  | nil => rfl
  | cons e es ih => cases e <;> simp [invpOperands, ih]

/-- The value of PHASE that the i-th inversion, counted from 0, leaves (44_varicode_psk31.md R246). -/
def phaseOfInversion (phase : Bool) (i : Nat) : Bool := phase ^^ decide ((i + 1) % 2 = 1)

/-- The first inversion turns PHASE over. -/
theorem phaseOfInversion_zero (phase : Bool) : phaseOfInversion phase 0 = !phase := by simp [phaseOfInversion]

/-- The inversions after the first are those from the PHASE it leaves. -/
theorem phaseOfInversion_succ (phase : Bool) (i : Nat) :
    phaseOfInversion phase (i + 1) = phaseOfInversion (!phase) i := by
  rcases Nat.mod_two_eq_zero_or_one i with h | h <;> cases phase <;> simp [phaseOfInversion, Nat.add_mod, h]

/-- The slots of a bit sequence invert PHASE once for every zero, and carry its new value (44_varicode_psk31.md R246). -/
theorem invpOperands_slotEvents (c : Config) (phase : Bool) (bits : List Bool) :
    invpOperands (slotEvents c phase bits) = (List.range (bits.count false)).map (phaseOfInversion phase) := by
  induction bits generalizing phase with
  | nil => rfl
  | cons bit bits ih =>
    cases bit with
    | true => simpa [slotEvents, invpOperands] using ih phase
    | false =>
      simp [slotEvents, invpOperands, ih, List.range_succ_eq_map, phaseOfInversion_zero, phaseOfInversion_succ]

/-- The INVP operands of a PSK31 message are those of its slots, which start with PHASE at 0 (44_varicode_psk31.md
R251). -/
theorem invpOperands_pskMessage (c : Config) (carrier : Nat) (text : List Byte) :
    invpOperands (pskMessage c carrier text) =
      (List.range ((pskBits c text).count false)).map (phaseOfInversion false) := by
  simp [pskMessage, setf, invpOperands_append, invpOperands_slotEvents, invpOperands]

/-- Settles O55: PHASE starts at 0 and every zero inverts it. -/
theorem invpOperandsAlternate : Obligations.InvpOperandsAlternate := by
  intro c carrier text ops
  have hops : ops = _ := invpOperands_pskMessage c carrier text
  rw [hops]
  refine ⟨by simp, fun i inv hi => ?_⟩
  obtain ⟨-, rfl⟩ := List.getElem?_eq_some_iff.1 hi
  simp [phaseOfInversion]

/-! ## The bits of a word -/

/-- The bits of a number below its n-th give the number back modulo 2 to the n (30_encoding.md R94). -/
theorem bitsToNat_map_testBit (n v : Nat) : bitsToNat ((List.range n).map v.testBit) = v % 2 ^ n := by
  induction n generalizing v with
  | zero => simp [bitsToNat, Nat.mod_one]
  | succ n ih =>
    have htail : v.testBit ∘ Nat.succ = (v / 2).testBit := funext (Nat.testBit_succ v)
    have hhead : (if v.testBit 0 then 1 else 0) = v % 2 := by
      rcases Nat.mod_two_eq_zero_or_one v with h | h <;> simp [Nat.testBit_zero, h]
    rw [List.range_succ_eq_map, List.map_cons, List.map_map, bitsToNat, htail, ih, hhead, Nat.pow_succ', Nat.mod_mul]

/-- The pattern bits of a word give the word back (30_encoding.md R105). -/
theorem ofNat_bitsToNat_wordBits (w : VWord) : BitVec.ofNat 16 (bitsToNat (wordBits w)) = w := by
  have hbits : bitsToNat (wordBits w) = w.toNat % 2 ^ bitlen w.toNat := bitsToNat_map_testBit _ _
  rw [hbits, Nat.mod_eq_of_lt (lt_two_pow_bitlen _ _ le_rfl), BitVec.ofNat_toNat, BitVec.setWidth_eq]

/-- No two neighbours of these bits are zeros, and the last of them is no zero beside the gap's first one, so that a word
that ends with them ends there (44_varicode_psk31.md R232 (d), R252). -/
def NoZeroPairBeforeGap (bits : List Bool) : Prop := (bits ++ [false]).IsChain (fun a b => a = true ∨ b = true)

/-- The natural length of a non-zero word, by its highest set bit (30_encoding.md R105). -/
theorem bitlen_of_ne_zero (w : VWord) (h : w ≠ 0) : bitlen w.toNat = w.toNat.log2 + 1 :=
  if_neg fun h0 => h (BitVec.eq_of_toNat_eq h0)

/-- The bit below the natural length of a non-zero word is 1 (30_encoding.md R105). -/
theorem getLsbD_last (w : VWord) (h : w ≠ 0) (k : Nat) (hk : k + 1 = bitlen w.toNat) : w.getLsbD k = true := by
  rw [bitlen_of_ne_zero w h] at hk
  obtain rfl : k = w.toNat.log2 := Nat.succ.inj hk
  exact Nat.testBit_log2 fun h0 => h (BitVec.eq_of_toNat_eq h0)

/-- The pattern of an admissible word holds no pair of zeros, not with the gap after it either (44_varicode_psk31.md R232
(d)). -/
theorem noZeroPairBeforeGap_wordBits (w : VWord) (W : WordFacts w) : NoZeroPairBeforeGap (wordBits w) := by
  have habove : w.getLsbD (bitlen w.toNat) = false := Nat.testBit_lt_two_pow (lt_two_pow_bitlen _ _ le_rfl)
  have hbits : wordBits w ++ [false] = (List.range (bitlen w.toNat + 1)).map w.getLsbD := by
    rw [List.range_succ, List.map_append, List.map_singleton, habove]
    rfl
  rw [NoZeroPairBeforeGap, hbits, List.isChain_map, List.isChain_range_succ]
  intro k hk
  rcases Nat.lt_or_eq_of_le (Nat.succ_le_of_lt hk) with hlt | hlast
  · exact W.no_adjacent_zeros k hlt
  · exact .inl (getLsbD_last w W.ne_zero k hlast)

/-- The pattern of an admissible word begins with a 1 (44_varicode_psk31.md R232 (c)). -/
theorem wordBits_cons (w : VWord) (W : WordFacts w) : ∃ bits, wordBits w = true :: bits := by
  refine ⟨((List.range w.toNat.log2).map Nat.succ).map w.getLsbD, ?_⟩
  rw [wordBits, bitlen_of_ne_zero w W.ne_zero, List.range_succ_eq_map, List.map_cons, W.first]

/-! ## Splitting a bit sequence into words -/

/-- Zeros between words are skipped (44_varicode_psk31.md R252). -/
theorem splitWords_zeros (n : Nat) (bits : List Bool) :
    splitWords [] (List.replicate n false ++ bits) = splitWords [] bits := by
  induction n with
  | zero => rfl
  | succ n ih => rw [List.replicate_succ, List.cons_append, splitWords, ih]

/-- A bit of a word that has begun is collected, unless it is the first of a pair of zeros (44_varicode_psk31.md R252). -/
theorem splitWords_collect (word bits : List Bool) (b b' : Bool) (hword : word ≠ []) (h : b = true ∨ b' = true) :
    splitWords word (b :: b' :: bits) = splitWords (b :: word) (b' :: bits) := by
  refine splitWords.eq_6 word b (b' :: bits) ?_ (fun hnil _ => hword hnil) (fun hnil _ => hword hnil)
  rintro _ rfl ⟨⟩
  simp at h

/-- A word that has begun goes on up to the first pair of zeros and ends before it (44_varicode_psk31.md R252). -/
theorem splitWords_word (word bits rest : List Bool) (hword : word ≠ []) (hbits : NoZeroPairBeforeGap bits) :
    splitWords word (bits ++ false :: false :: rest) =
      BitVec.ofNat 16 (bitsToNat (word.reverse ++ bits)) :: splitWords [] rest := by
  induction bits generalizing word with
  | nil => simp [splitWords.eq_5 word rest hword]
  | cons b bits ih =>
    obtain ⟨b', more, hnext⟩ : ∃ b' more, bits ++ [false] = b' :: more :=
      List.exists_cons_of_ne_nil (List.append_ne_nil_of_right_ne_nil _ (List.cons_ne_nil _ _))
    have hsplit : bits ++ false :: false :: rest = b' :: (more ++ false :: rest) := by
      rw [← List.cons_append, ← hnext, List.append_assoc, List.singleton_append]
    rw [NoZeroPairBeforeGap, List.cons_append, hnext, List.isChain_cons_cons, ← hnext] at hbits
    obtain ⟨hpair, hbits⟩ := hbits
    rw [List.cons_append, hsplit, splitWords_collect word _ b b' hword hpair, ← hsplit,
      ih _ (List.cons_ne_nil _ _) hbits]
    simp

/-- The pattern of an admissible word and a gap of at least two zeros are read as the word (44_varicode_psk31.md R252). -/
theorem splitWords_wordBits (w : VWord) (W : WordFacts w) (gap : Nat) (hgap : 2 ≤ gap) (rest : List Bool) :
    splitWords [] (wordBits w ++ (List.replicate gap false ++ rest)) = w :: splitWords [] rest := by
  obtain ⟨bits, hbits⟩ := wordBits_cons w W
  obtain ⟨n, rfl⟩ : ∃ n, gap = n + 2 := ⟨gap - 2, by omega⟩
  have htail : NoZeroPairBeforeGap bits := by
    have hchain := noZeroPairBeforeGap_wordBits w W
    rw [NoZeroPairBeforeGap, hbits] at hchain
    exact hchain.tail
  calc splitWords [] (wordBits w ++ (List.replicate (n + 2) false ++ rest))
      = splitWords [true] (bits ++ false :: false :: (List.replicate n false ++ rest)) := by
        rw [hbits, List.cons_append, splitWords]
        rfl
    _ = BitVec.ofNat 16 (bitsToNat (wordBits w)) :: splitWords [] (List.replicate n false ++ rest) := by
        rw [splitWords_word [true] bits _ (List.cons_ne_nil _ _) htail, hbits]
        rfl
    _ = w :: splitWords [] rest := by rw [ofNat_bitsToNat_wordBits, splitWords_zeros]

/-! ## Decoding a message -/

/-- Zeros before a word decode to nothing (44_varicode_psk31.md R252). -/
theorem receive_zeros (c : Config) (n : Nat) (bits : List Bool) :
    receive c (List.replicate n false ++ bits) = receive c bits := by
  rw [receive, splitWords_zeros, receive]

/-- The bits of one character decode to the character (44_varicode_psk31.md R252). -/
theorem receive_symbolBits {c : Config} (hv : c.valid = true) (ch : Nat) (h : ch < 128) (bits : List Bool) :
    receive c (symbolBits c ch ++ bits) = BitVec.ofNat 8 ch :: receive c bits := by
  have V := varicodeFacts_of_valid c hv
  obtain ⟨-, -, -, -, -, -, -, -, -, -, -, hgap⟩ := bounds_of_valid c hv
  have hsplit : splitWords [] (symbolBits c ch ++ bits) = readVari c ch :: splitWords [] bits := by
    rw [symbolBits, List.append_assoc]
    exact splitWords_wordBits _ (wordFacts_readVari V ch h) c.nGap hgap bits
  rw [receive, hsplit, List.map_cons, vreverse_readVari V ch h, receive]

/-- The bits of a text decode to its characters below 128 (44_varicode_psk31.md R245, R252). -/
theorem receive_textBits {c : Config} (hv : c.valid = true) (text : List Byte) :
    receive c (textBits c text) = text.filter (fun ch => decide (ch.toNat < 128)) := by
  induction text with
  | nil => rfl
  | cons ch text ih =>
    rw [textBits, List.flatMap_cons, ← textBits]
    by_cases hlt : ch.toNat < 128
    · rw [if_pos hlt, receive_symbolBits hv _ hlt, ih, BitVec.ofNat_toNat, BitVec.setWidth_eq,
        List.filter_cons_of_pos (by simpa using hlt)]
    · rw [if_neg hlt, List.nil_append, ih, List.filter_cons_of_neg (by simpa using hlt)]

/-- Settles O57: the preamble decodes to nothing, each symbol to its character. -/
theorem pskBitsDecodeBack : Obligations.PskBitsDecodeBack := by
  intro c text hv
  have hnul (bits : List Bool) : receive c (symbolBits c 0 ++ bits) = 0 :: receive c bits :=
    receive_symbolBits hv 0 (by decide) bits
  rw [pskBits, ← textBits]
  simp only [List.append_assoc]
  rw [receive_zeros, hnul, hnul, hnul, receive_textBits hv]
  rfl

end Sys2Proof.Proofs
end

section
/-! The family 45_synth_port.md: the output records append their events (R261 to R264), what the encoder agent emits and
when (R261 to R263, R267), and the shape of a message's trace (R268). -/

namespace Sys2Proof.Proofs

open Sys2Proof.Machine Sys2Proof.Safety Sys2Proof.Laws

/-! ## The output records -/

/-- Settles O45: each record is one emit. -/
theorem recordsAppendTheirEvent : Obligations.RecordsAppendTheirEvent :=
  fun _ _ _ _ _ _ _ => ⟨rfl, rfl, rfl, rfl⟩

/-! ## The events of the two procedures -/

/-- An act of RTTY waits and changes nothing, or sets the carrier of the TONE it leaves (43_baudot_rtty.md R205,
R210). -/
theorem fire_rtty_cases {a : Act} {s t : State} {i : Instr} (hbel : belongs .rtty (.act a) = true)
    (h : fire a s = (i, t)) :
    (∃ d, i = .wait d ∧ t = s) ∨
    (i = carrierRecord s.cfg (if t.tone then s.fmark else s.fspace) ∧ t.mode = s.mode ∧ t.phase = s.phase) := by
  cases a with
  | rttyCarrier =>
    cases h
    exact .inr ⟨rfl, rfl, rfl⟩
  | hold d =>
    cases h
    exact .inl ⟨d, rfl, rfl⟩
  | elem tone d =>
    simp only [fire] at h
    split at h
    · cases h
      exact .inr ⟨rfl, rfl, rfl⟩
    · cases h
      exact .inl ⟨d, rfl, rfl⟩
  | pskCarrier | slot bit => cases hbel

/-- An act of PSK31 waits and changes nothing, sets the carrier with PHASE at 0, or inverts PHASE
(44_varicode_psk31.md R243, R246). -/
theorem fire_psk_cases {a : Act} {s t : State} {i : Instr} (hbel : belongs .psk (.act a) = true)
    (h : fire a s = (i, t)) :
    (∃ d, i = .wait d ∧ t = s) ∨
    (i = carrierRecord s.cfg s.fmark ∧ t.mode = s.mode ∧ t.phase = false ∧ t.tone = s.tone) ∨
    (i = .invp s.cfg.txCh t.phase ∧ t.mode = s.mode ∧ t.phase = !s.phase ∧ t.tone = s.tone) := by
  cases a with
  | pskCarrier =>
    cases h
    exact .inr (.inl ⟨rfl, rfl, rfl, rfl⟩)
  | hold d =>
    cases h
    exact .inl ⟨d, rfl, rfl⟩
  | slot bit =>
    cases bit with
    | true =>
      cases h
      exact .inl ⟨s.cfg.tPbit, rfl, rfl⟩
    | false =>
      cases h
      exact .inr (.inr ⟨rfl, rfl, rfl, rfl⟩)
  | rttyCarrier | elem tone d => cases hbel

/-- No act disables the outputs. -/
theorem fire_ne_diso (a : Act) (s : State) : (fire a s).1 ≠ .diso := by
  cases a with
  | rttyCarrier | pskCarrier | hold d => exact Instr.noConfusion
  | elem tone t => simp only [fire]; split <;> exact Instr.noConfusion
  | slot bit => cases bit <;> exact Instr.noConfusion

/-! ## The act that is next -/

/-- The act behind the register writes of a position is one of its tasks. -/
theorem mem_of_runWrites {ts : List Machine.Task} {s s' : State} {a : Act} (h : runWrites ts s = (s', some a)) :
    Machine.Task.act a ∈ ts := by
  rcases runWrites_cases ts s with ⟨hnone, -, -⟩ | ⟨b, front, hsome, hts⟩
  · simp [h] at hnone
  · obtain rfl : a = b := by simpa [h] using hsome
    rw [hts]
    exact List.mem_append_right front List.mem_cons_self

/-- The act the loop comes to is one of a character's, so it belongs to the procedure that runs. -/
theorem belongs_of_runLoop {n : Nat} {s s' : State} {a : Act} (h : runLoop n s = .ok (s', some a)) :
    belongs s.mode (.act a) = true := by
  induction n generalizing s with
  | zero => cases h
  | succ n ih =>
    simp only [runLoop] at h
    split at h
    · cases h
    · rename_i ch _
      split at h
      · rename_i hr
        cases h
        have hmem := mem_of_runWrites hr
        exact belongs_of_mem_charTasks s ch _ (by simpa using hmem)
      · rename_i s1 hr
        have hbel := ih h
        rwa [runWrites_eq_frame _ _ _ _ hr] at hbel

/-- The encoder agent's next event, from a position that fits MODE: the record of an act of the procedure that runs, or
DISO. The register writes before it touch SHIFTST, IDX and the position only. -/
theorem encoderNext_belongs (s t : State) (i : Instr) (hbel : ∀ x ∈ s.todo, belongs s.mode x = true)
    (h : encoderNext s = .ok (some (i, t))) :
    ∃ s', s' = { s with shiftst := s'.shiftst, idx := s'.idx, todo := s'.todo } ∧
      ((∃ a, belongs s.mode (.act a) = true ∧ fire a s' = (i, t)) ∨
       (i = .diso ∧ t = { s' with mode := .idle })) := by
  have hm : s.mode ≠ .idle := (encoderNext_cases s t i h).1
  simp only [encoderNext, hm, if_false] at h
  cases hr : runWrites s.todo s with
  | mk s1 o =>
    have hf := runWrites_eq_frame _ _ _ _ hr
    cases o with
    | some a => exact ⟨s1, hf, .inl ⟨a, hbel _ (mem_of_runWrites hr), by simpa [hr] using h⟩⟩
    | none =>
      cases hl : runLoop (s1.nlen - s1.idx) s1 with
      | error f => simp [hr, hl] at h
      | ok r =>
        obtain ⟨s2, o⟩ := r
        have hg : s2 = { s with shiftst := s2.shiftst, idx := s2.idx, todo := s2.todo } :=
          (runLoop_frame _ _ _ _ hl).trans (by rw [hf])
        refine ⟨s2, hg, ?_⟩
        cases o with
        | some a =>
          have hbel1 := belongs_of_runLoop hl
          rw [hf] at hbel1
          exact .inl ⟨a, hbel1, by simpa [hr, hl] using h⟩
        | none =>
          simp only [hr, hl, Except.ok.injEq, Option.some.injEq, Prod.mk.injEq] at h
          exact .inr ⟨h.1.symm, h.2.symm⟩

/-! ## The shape of a trace -/

/-- The events of elements are SETF and WAIT (43_baudot_rtty.md R210). -/
theorem isSetf_or_isWait_of_mem_elemsEvents (c : Config) (mark space : Nat) (now : Bool) (es : List (Bool × Nat))
    (e : Event) (he : e ∈ elemsEvents c mark space now es) : isSetf e = true ∨ isWait e = true := by
  induction es generalizing now with
  | nil => cases he
  | cons elem es ih =>
    rcases List.mem_append.1 he with hfirst | hrest
    · unfold elemEvents at hfirst
      split at hfirst
      · rw [List.mem_singleton.1 hfirst]
        exact .inr rfl
      · rcases List.mem_pair.1 hfirst with rfl | rfl
        · exact .inl rfl
        · exact .inr rfl
    · exact ih elem.1 hrest

/-- The events of slots are INVP and WAIT (44_varicode_psk31.md R246). -/
theorem isInvp_or_isWait_of_mem_slotEvents (c : Config) (phase : Bool) (bits : List Bool) (e : Event)
    (he : e ∈ slotEvents c phase bits) : isInvp e = true ∨ isWait e = true := by
  induction bits generalizing phase with
  | nil => cases he
  | cons bit bits ih =>
    cases bit with
    | true =>
      rcases List.mem_cons.1 he with rfl | hrest
      · exact .inr rfl
      · exact ih phase hrest
    | false =>
      rcases List.mem_cons.1 he with rfl | he
      · exact .inl rfl
      · rcases List.mem_cons.1 he with rfl | hrest
        · exact .inr rfl
        · exact ih (!phase) hrest

/-- A slot that inverts PHASE waits right after (44_varicode_psk31.md R246). -/
theorem invpThenWait_slotEvents (c : Config) (phase : Bool) (bits : List Bool) :
    invpThenWait (slotEvents c phase bits) = true := by
  induction bits generalizing phase with
  | nil => rfl
  | cons bit bits ih =>
    cases bit with
    | true => exact ih phase
    | false => exact ih (!phase)

/-- Settles O53: the body of an RTTY trace is frames of elements, that of a PSK31 trace is slots. -/
theorem traceShapes : Obligations.TraceShapes := by
  intro c mark space text
  refine ⟨⟨mark, c.tRsettle, _, rfl, fun e he => ?_⟩,
    ⟨mark, _, rfl, isInvp_or_isWait_of_mem_slotEvents c false _, invpThenWait_slotEvents c false _⟩⟩
  obtain ⟨code, -, hframe⟩ := List.mem_flatMap.1 he
  exact isSetf_or_isWait_of_mem_elemsEvents c mark space true (frameElems c code) e hframe

/-! ## What the encoder agent emits -/

/-- While a message is being sent the encoder agent always has a next event, and the one that is DISO comes when IDX has
reached NLEN (43_baudot_rtty.md R213, 44_varicode_psk31.md R250). -/
theorem encoderNext_of_busy (s : State) (h : MachineInv s) (hm : s.mode ≠ .idle) :
    ∃ i t, encoderNext s = .ok (some (i, t)) ∧ (i = .diso → t.idx = s.nlen) := by
  obtain ⟨s', h', hmode, hreach, ⟨a, ts, ht⟩ | ⟨ht, hend⟩⟩ := encoderNext_reaches s h hm
  · exact ⟨_, _, hreach.trans (encoderNext_act s' a ts (hmode ▸ hm) ht), fun hd => absurd hd (fire_ne_diso a _)⟩
  · have hn := hreach.trans (encoderNext_done s' (hmode ▸ hm) ht hend)
    have hnlen := congrArg State.nlen (encoderNext_frame _ _ _ hn)
    have hidx : s'.idx = s'.nlen := Nat.le_antisymm (Nat.le_of_add_right_le h'.idx_le) hend
    exact ⟨_, _, hn, fun _ => hidx.trans hnlen⟩

/-- Settles O46: an act of the procedure that runs gives its record, and the end of the message gives DISO. -/
theorem encoderEmitsOnlyItsRecords : Obligations.EncoderEmitsOnlyItsRecords := by
  intro s h
  refine ⟨encoderNext_idle s, fun hm => ?_⟩
  obtain ⟨i, t, hn, hidx⟩ := encoderNext_of_busy s h hm
  have htrace := congrArg State.trace (encoderNext_frame s t i hn)
  refine ⟨i, t, hn, htrace, ?_⟩
  obtain ⟨s', hs', ⟨a, hbel, ha⟩ | ⟨rfl, rfl⟩⟩ := encoderNext_belongs s t i h.todo_belongs hn
  · rw [hs'] at ha
    cases hmode : s.mode with
    | idle => exact absurd hmode hm
    | rtty =>
      rw [hmode] at hbel
      rcases fire_rtty_cases hbel ha with ⟨d, rfl, rfl⟩ | ⟨hsetf, hsame, hphase⟩
      · exact .inl ⟨d, rfl, hmode, rfl, rfl⟩
      · exact .inr (.inl ⟨hsetf, rfl, hsame.trans hmode, hphase⟩)
    | psk =>
      rw [hmode] at hbel
      rcases fire_psk_cases hbel ha with ⟨d, rfl, rfl⟩ | ⟨hsetf, hsame, hphase, htone⟩ |
        ⟨hinvp, hsame, hphase, htone⟩
      · exact .inl ⟨d, rfl, hmode, rfl, rfl⟩
      · exact .inr (.inr (.inl ⟨hsetf, rfl, hsame.trans hmode, hphase, htone⟩))
      · exact .inr (.inr (.inr (.inl ⟨hinvp, rfl, hsame.trans hmode, hphase, htone⟩)))
  · have htone := congrArg State.tone hs'
    have hphase := congrArg State.phase hs'
    exact .inr (.inr (.inr (.inr ⟨rfl, rfl, hidx rfl, htone, hphase⟩)))

end Sys2Proof.Proofs
end

section
/-! The family 46_host_port.md: which operation a step runs (R280), that the host is blocked from the issue of a message
to its DISO (R283), and the two operations of the port that belong to no other family, TXWR (R281) and INIT (R282). -/

namespace Sys2Proof.Proofs

open Sys2Proof.Machine Sys2Proof.Laws

/-! ## The turn a step takes -/

/-- A step runs the instruction of the next turn (00_scope.md R11). -/
theorem step_of_fetch_run {s t : State} {i : Instr} (hv : s.cfg.valid = true) (h : fetch s = .run i t) :
    step s = exec i t := by
  simp only [step, hv, if_true, h]

/-- A command that is first while MODE is IDLE is run (46_host_port.md R280). -/
theorem fetch_host (s : State) (w : Word48) (i : Instr) (rest : List Input) (hin : s.inputs = .host w :: rest)
    (hm : s.mode = .idle) (hd : decode .host w = .ok i) : fetch s = .run i { s with inputs := rest } := by
  simp only [fetch, hin, hm, takeInput_idle, hostTurn, hd]

/-- A PIN record is run as TICK in every MODE, also behind commands that wait (40_quadrature.md R130). -/
theorem fetch_tick (s : State) (waiting rest : List Input) (pin : BitVec 17)
    (hw : waiting = [] ∨ s.mode ≠ .idle ∧ ∀ x ∈ waiting, isHost x = true)
    (hin : s.inputs = waiting ++ .tick pin :: rest) :
    fetch s = .run (.tick (decodePin pin)) { s with inputs := waiting ++ rest } := by
  have htake := takeInput_behind s.mode waiting rest (.tick pin) rfl hw
  simp only [fetch, hin, htake, tickTurn, decode_pins]

/-- The encoder agent's turn runs its next event. -/
theorem encoderTurn_event {s t : State} {i : Instr} (hn : encoderNext s = .ok (some (i, t))) :
    encoderTurn s = .run i t := by
  simp only [encoderTurn, hn]

/-- The encoder agent's listed turn is taken, also behind commands that wait (43_baudot_rtty.md R215,
44_varicode_psk31.md R249). -/
theorem fetch_encoder (s : State) (waiting rest : List Input)
    (hw : waiting = [] ∨ s.mode ≠ .idle ∧ ∀ x ∈ waiting, isHost x = true)
    (hin : s.inputs = waiting ++ .encoder :: rest) :
    fetch s = encoderTurn { s with inputs := waiting ++ rest } := by
  have htake := takeInput_behind s.mode waiting rest .encoder rfl hw
  simp only [fetch, hin, htake]

/-- While a message is sent and nothing but commands is listed the encoder agent goes on. -/
theorem fetch_waiting (s : State) (hm : s.mode ≠ .idle) (hin : ∀ x ∈ s.inputs, isHost x = true) :
    fetch s = encoderTurn s := by
  simp only [fetch, takeInput_waiting s.mode s.inputs hm hin]

/-- Settles O1: each clause is the turn its input is taken for, and in the last clause, where none is taken, the encoder
agent's. -/
theorem stepRunsTheDecodedOperation : Obligations.StepRunsTheDecodedOperation := by
  intro s hv
  refine ⟨fun w i rest hin hm hd => step_of_fetch_run hv (fetch_host s w i rest hin hm hd), fun waiting hw => ?_⟩
  refine ⟨fun pin rest hin => ⟨decode_pins pin, ?_⟩, fun rest i t hin hn => ?_, fun i t hin hm hn => ?_⟩
  · exact step_of_fetch_run hv (fetch_tick s waiting rest pin hw hin)
  · exact step_of_fetch_run hv ((fetch_encoder s waiting rest hw hin).trans (encoderTurn_event hn))
  · have hcommands : ∀ x ∈ s.inputs, isHost x = true := by
      rcases hw with rfl | ⟨-, hw⟩
      · simp [hin]
      · exact hin ▸ hw
    have hinputs := congrArg State.inputs (encoderNext_frame s t i hn)
    exact ⟨hinputs, step_of_fetch_run hv ((fetch_waiting s hm hcommands).trans (encoderTurn_event hn))⟩

/-! ## The host while a message is sent -/

/-- Every row of the host table acts while MODE is IDLE only (46_host_port.md R283). -/
theorem exec_eq_whenIdle (w : Word48) (i : Instr) (s : State) (hd : decode .host w = .ok i) :
    ∃ k, exec i s = whenIdle s k := by
  simp only [decode, decodeCmd] at hd
  split at hd <;> cases hd <;> exact ⟨_, rfl⟩

/-- Settles O3: a row that acts while MODE is IDLE only answers the unchanged state otherwise. -/
theorem hostOperationsWaitWhileSending : Obligations.HostOperationsWaitWhileSending := by
  intro i w s hd hm
  obtain ⟨k, hk⟩ := exec_eq_whenIdle w i s hd
  rw [hk, whenIdle_busy s k hm]

/-- An input that is taken was listed. -/
theorem mem_of_takeInput {m : Mode} {l rest : List Input} {x : Input} (h : takeInput m l = some (x, rest)) : x ∈ l := by
  obtain ⟨waiting, back, rfl, -⟩ := takeInput_cases m l rest x h
  exact List.mem_append_right waiting List.mem_cons_self

/-- The commands stay listed when another input is taken (46_host_port.md R283). -/
theorem filter_isHost_of_takeInput {m : Mode} {l rest : List Input} {x : Input} (hx : isHost x = false)
    (h : takeInput m l = some (x, rest)) : rest.filter isHost = l.filter isHost := by
  obtain ⟨waiting, back, rfl, rfl, -⟩ := takeInput_cases m l rest x h
  simp [hx]

/-- The commands stay listed when the encoder agent takes its turn. -/
theorem filter_isHost_of_encoderInputs {s : State} {ins : List Input} (h : encoderInputs s ins) :
    ins.filter isHost = s.inputs.filter isHost := by
  rcases h with htake | ⟨rfl, -⟩
  · exact filter_isHost_of_takeInput rfl htake
  · rfl

/-- An event of the encoder agent leaves what has yet to arrive, the trackers and the last result (60_exceptions.md
R310). -/
theorem encoder_event_ports (s u t : State) (i : Instr) (hn : encoderNext s = .ok (some (i, u)))
    (he : exec i u = .next t) : t.inputs = s.inputs ∧ t.btn = s.btn ∧ t.res = s.res := by
  obtain ⟨e, hexec⟩ := exec_encoderNext s u i hn
  obtain rfl : emit u e = t := by simpa [hexec] using he
  rw [encoderNext_frame s u i hn]
  exact ⟨rfl, rfl, rfl⟩

/-- An event of the encoder agent keeps MODE, or it is the DISO that ends the message (43_baudot_rtty.md R213,
44_varicode_psk31.md R250). -/
theorem encoder_event_mode (s u t : State) (i : Instr) (hn : encoderNext s = .ok (some (i, u)))
    (he : exec i u = .next t) : t.mode = s.mode ∨ t.mode = .idle ∧ t.trace = s.trace ++ [.diso] := by
  obtain ⟨-, s', hs', ⟨a, ha⟩ | ⟨rfl, rfl⟩⟩ := encoderNext_cases s u i hn
  · obtain ⟨e, hexec⟩ := exec_encoderNext s u i hn
    obtain rfl : emit u e = t := by simpa [hexec] using he
    obtain rfl : (fire a s').2 = u := congrArg Prod.snd ha
    have hfire := congrArg State.mode (fire_frame a s')
    have hwrites := congrArg State.mode hs'
    exact .inl (hfire.trans hwrites)
  · have htrace := congrArg State.trace hs'
    cases he
    exact .inr ⟨rfl, congrArg (· ++ [Event.diso]) htrace⟩

/-- Settles O4: of what a step can do, only a TICK and an event of the encoder agent are left while MODE is not IDLE. -/
theorem hostBlockedUntilDiso : Obligations.HostBlockedUntilDiso := by
  intro s t hm hstep
  obtain ⟨-, htick | hhost | hevent | hidle | hreset⟩ := step_cases s t hstep
  · obtain ⟨pin, rest, htake, he⟩ := htick
    cases he
    exact ⟨filter_isHost_of_takeInput rfl htake, rfl, rfl, .inr ⟨pin, _, mem_of_takeInput htake, rfl, rfl⟩, .inl rfl⟩
  · obtain ⟨-, -, -, -, hidle, -⟩ := hhost
    exact absurd hidle hm
  · obtain ⟨ins, i, u, hins, hn, he⟩ := hevent
    obtain ⟨-, hhist, hflags⟩ := encoder_event_frame _ u t i hn he
    obtain ⟨-, htext, -⟩ := encoder_event_memory _ u t i hn he
    obtain ⟨hinputs, hbtn, hres⟩ := encoder_event_ports _ u t i hn he
    have hmode := encoder_event_mode _ u t i hn he
    rw [hinputs]
    exact ⟨filter_isHost_of_encoderInputs hins, htext, hres, .inl ⟨hhist, hbtn, hflags⟩, hmode⟩
  · obtain ⟨ins, -, hn, -⟩ := hidle
    exact absurd (encoderNext_none _ hn) hm
  · obtain ⟨-, -, hidle, -⟩ := hreset
    exact absurd hidle hm

/-! ## TXWR -/

/-- A CMD word of code 0xC is TXWR of bits 43:32 and bits 7:0 (30_encoding.md R96). -/
theorem decode_cmdWord_txwr (a : BitVec 12) (d : Word32) :
    decode .host (cmdWord 0xC a d) = .ok (.txwr a (d.setWidth 8)) := by
  simp [decode, decodeCmd, BitVec.setWidth_eq_extractLsb']

/-- A write of TEXT changes TEXT only. -/
theorem writeText_frame (s : State) (addr : Nat) (v : Byte) :
    writeText s addr v = { s with text := (writeText s addr v).text } := by
  unfold writeText
  split <;> rfl

/-- A write of TEXT keeps the canonical form. -/
theorem wf_writeText (s : State) (addr : Nat) (v : Byte) (h : Memory.wf s.text = true) :
    Memory.wf (writeText s addr v).text = true := by
  rw [writeText_text]
  split
  · exact wf_write s.text addr v h
  · exact h

/-- TXWR of an idle block writes TEXT and returns nothing (46_host_port.md R281). -/
theorem exec_txwr_of_idle (s : State) (addr : BitVec 12) (byte : Byte) (hm : s.mode = .idle) :
    exec (.txwr addr byte) s = .next { writeText s addr.toNat byte with res := none } :=
  whenIdle_idle s _ hm

/-- Settles O41: the row of code 0xC, and a read of TEXT after the write. -/
theorem txwrWritesOneByte : Obligations.TxwrWritesOneByte := by
  refine ⟨decode_cmdWord_txwr, fun s addr byte hm hwf => ⟨_, exec_txwr_of_idle s addr byte hm, ?_, ?_, ?_, ?_⟩⟩
  · exact congrArg (fun u : State => { u with res := none }) (writeText_frame s addr.toNat byte)
  · exact wf_writeText s addr.toNat byte hwf
  · exact textAt_writeText s addr.toNat byte
  · intro hout
    rw [writeText_outside s addr.toNat byte hout]

/-! ## INIT -/

/-- A CMD word of code 0xD is INIT, whatever its operand bits (30_encoding.md R95, R96). -/
theorem decode_cmdWord_init (a : BitVec 12) (d : Word32) : decode .host (cmdWord 0xD a d) = .ok .init := by
  simp [decode, decodeCmd]

/-- INIT of an idle block writes to every register the value it has after reset (46_host_port.md R282,
70_reset_and_hazards.md R320). -/
theorem exec_init_of_idle (s : State) (hm : s.mode = .idle) :
    exec .init s = .next { State.afterReset s.cfg s.powerUps with text := s.text, inputs := s.inputs } :=
  whenIdle_idle s _ hm

/-- Settles O42: the row of code 0xD, and the state INIT leaves in an idle block. -/
theorem initLeavesResetStateButText : Obligations.InitLeavesResetStateButText :=
  ⟨decode_cmdWord_init, exec_init_of_idle⟩

end Sys2Proof.Proofs
end

section
/-! The family 60_exceptions.md: every operation completes, but for a frequency that does not fit (R290, R292), no step
from the invariant faults (R290), and a tick and the encoder agent's next event commute (R296). -/

namespace Sys2Proof.Proofs

open Sys2Proof.Machine Sys2Proof.Safety Sys2Proof.Laws

/-! ## Every operation completes -/

/-- A host operation that only ends with a result completes in every MODE: an idle block does it, a busy one leaves it
(46_host_port.md R283). -/
theorem whenIdle_finish_completes (s u : State) (r : Option Word32) : ∃ t, whenIdle s (finish u r) = .next t := by
  by_cases hm : s.mode = .idle
  · exact ⟨_, whenIdle_idle s _ hm⟩
  · exact ⟨_, whenIdle_busy s _ hm⟩

/-- BPOLL completes, of a button and of none (41_button.md R146, log entry 11). -/
theorem exec_bpoll_completes (b : BitVec 4) (raw : Bool) (s : State) : ∃ t, exec (.bpoll b raw) s = .next t := by
  simp only [exec, execBpoll]
  split <;> exact ⟨_, rfl⟩

/-- SENDR completes, but in an idle block whose mark or space frequency does not fit (43_baudot_rtty.md R205). -/
theorem exec_sendr_completes_or_unfit (s : State) (len : BitVec 12) (base : Word32) :
    (∃ t, exec (.sendr len base) s = .next t) ∨
      (s.mode = .idle ∧ ∃ f, exec (.sendr len base) s = .refused (.freqOutOfRange f) ∧ hertzFits s.cfg f = false ∧
        (f = markHertz s.cfg base ∨ f = spaceHertz s.cfg base)) := by
  by_cases hm : s.mode = .idle
  · cases hmark : hertzFits s.cfg (markHertz s.cfg base) with
    | false => exact .inr ⟨hm, _, exec_sendr_of_mark_unfit s len base hm hmark, hmark, .inl rfl⟩
    | true =>
      cases hspace : hertzFits s.cfg (spaceHertz s.cfg base) with
      | false => exact .inr ⟨hm, _, exec_sendr_of_space_unfit s len base hm hmark hspace, hspace, .inr rfl⟩
      | true => exact .inl ⟨_, exec_sendr_of_fits s len base hm hmark hspace⟩
  · exact .inl ⟨_, whenIdle_busy s _ hm⟩

/-- SENDP completes, but in an idle block whose carrier does not fit (44_varicode_psk31.md R243). -/
theorem exec_sendp_completes_or_unfit (s : State) (len : BitVec 12) (base : Word32) :
    (∃ t, exec (.sendp len base) s = .next t) ∨
      (s.mode = .idle ∧ exec (.sendp len base) s = .refused (.freqOutOfRange (markHertz s.cfg base)) ∧
        hertzFits s.cfg (markHertz s.cfg base) = false) := by
  by_cases hm : s.mode = .idle
  · cases hcarrier : hertzFits s.cfg (markHertz s.cfg base) with
    | false => exact .inr ⟨hm, exec_sendp_of_unfit s len base hm hcarrier, rfl⟩
    | true => exact .inl ⟨_, exec_sendp_of_fits s len base hm hcarrier⟩
  · exact .inl ⟨_, whenIdle_busy s _ hm⟩

/-- A frequency that fails the range check lies outside FREQ_W (30_encoding.md R102). -/
theorem outside_of_not_hertzFits {c : Config} {f : Int} (h : hertzFits c f = false) : ¬ (0 ≤ f ∧ f < 2 ^ c.freqW) :=
  fun hf => Bool.eq_false_iff.1 h ((hertzFits_iff c f).2 hf)

/-- Settles O9: only SENDR and SENDP look at anything that can stop them. -/
theorem everyOperationCompletes : Obligations.EveryOperationCompletes := by
  intro i s
  cases i with
  | sendr len base =>
    refine (exec_sendr_completes_or_unfit s len base).imp_right fun ⟨hm, f, hrefused, hunfit, hf⟩ => ?_
    exact ⟨hm, len, base, f, hrefused, outside_of_not_hertzFits hunfit, .inl ⟨rfl, hf⟩⟩
  | sendp len base =>
    refine (exec_sendp_completes_or_unfit s len base).imp_right fun ⟨hm, hrefused, hunfit⟩ => ?_
    exact ⟨hm, len, base, _, hrefused, outside_of_not_hertzFits hunfit, .inr ⟨rfl, rfl⟩⟩
  | bpoll b raw => exact .inl (exec_bpoll_completes b raw s)
  | tick pin => exact .inl ⟨_, rfl⟩
  | qpoll ab => exact .inl ⟨_, rfl⟩
  | setf ch pll f drv => exact .inl ⟨_, rfl⟩
  | invp ch inv => exact .inl ⟨_, rfl⟩
  | diso => exact .inl ⟨_, rfl⟩
  | wait d => exact .inl ⟨_, rfl⟩
  | ben b => exact .inl (whenIdle_finish_completes s _ _)
  | bdis b => exact .inl (whenIdle_finish_completes s _ _)
  | frd => exact .inl (whenIdle_finish_completes s _ _)
  | fclr mask => exact .inl (whenIdle_finish_completes s _ _)
  | fxchg mask => exact .inl (whenIdle_finish_completes s _ _)
  | blkup sel ch => exact .inl (whenIdle_finish_completes s _ _)
  | brev sel code => exact .inl (whenIdle_finish_completes s _ _)
  | vlkup ch => exact .inl (whenIdle_finish_completes s _ _)
  | vrev word => exact .inl (whenIdle_finish_completes s _ _)
  | txwr addr byte => exact .inl (whenIdle_finish_completes s _ _)
  | init => exact .inl (whenIdle_finish_completes s _ _)

/-- No instruction faults, in any state (60_exceptions.md R290). -/
theorem exec_ne_fault (i : Instr) (s : State) (f : Fault) : exec i s ≠ .fault f := by
  rcases everyOperationCompletes i s with ⟨t, hnext⟩ | ⟨-, _, _, _, hrefused, -⟩
  · simp [hnext]
  · simp [hrefused]

/-! ## No step faults -/

/-- A step that faults is a turn that faults by itself, without an instruction. -/
theorem fetch_of_step_fault {s : State} {f : Fault} (h : step s = .fault f) : fetch s = .done (.fault f) := by
  by_cases hv : s.cfg.valid = true
  · cases hfetch : fetch s with
    | run i u => exact absurd ((step_of_fetch_run hv hfetch).symm.trans h) (exec_ne_fault i u f)
    | done o => simpa [step, hv, hfetch] using h
  · simp [step, hv] at h

/-- The encoder agent's turn faults where its next event does. -/
theorem encoderNext_of_turn_fault {s : State} {f : Fault} (h : encoderTurn s = .done (.fault f)) :
    encoderNext s = .error f := by
  unfold encoderTurn at h
  split at h <;> cases h
  assumption

/-- The host agent's turn never faults: a reserved code is refused (30_encoding.md R107). -/
theorem hostTurn_ne_fault (w : Word48) (s : State) (f : Fault) : hostTurn w s ≠ .done (.fault f) := by
  unfold hostTurn
  split <;> simp

/-- A hardware reset never faults: it is done or refused (70_reset_and_hazards.md R323). -/
theorem hardReset_ne_fault (s : State) (f : Fault) : hardReset s ≠ .fault f := by
  unfold hardReset
  split <;> simp

/-- Only the encoder agent's turn can fault. -/
theorem encoderNext_of_fetch_fault {s : State} {f : Fault} (h : fetch s = .done (.fault f)) :
    ∃ ins, encoderNext { s with inputs := ins } = .error f := by
  unfold fetch at h
  split at h
  · exact ⟨s.inputs, encoderNext_of_turn_fault h⟩
  · simp [tickTurn] at h
  · exact absurd h (hostTurn_ne_fault _ _ f)
  · exact ⟨_, encoderNext_of_turn_fault h⟩
  · exact absurd (Turn.done.inj h) (hardReset_ne_fault _ f)

/-- From the invariant the encoder agent reads TEXT inside MAXLEN only (20_memory.md R63). -/
theorem encoderNext_ne_error (s : State) (h : MachineInv s) (f : Fault) : encoderNext s ≠ .error f := by
  by_cases hm : s.mode = .idle
  · simp [encoderNext_idle s hm]
  · obtain ⟨i, t, hn, -⟩ := encoderNext_of_busy s h hm
    simp [hn]

/-- Settles O8: a fault is one of the encoder agent's next event, which has none from the invariant. -/
theorem stepNeverFaults : Obligations.StepNeverFaults := by
  intro s h f hfault
  obtain ⟨ins, herror⟩ := encoderNext_of_fetch_fault (fetch_of_step_fault hfault)
  exact encoderNext_ne_error _ (machineInv_withInputs s ins h) f herror

/-! ## A tick and an encoder event commute -/

/-- What a tick makes of the input side depends on the configuration and the input side alone, and it is all a tick writes
(40_quadrature.md R130, R131). -/
theorem step_tick_inputSide (c : Config) (hist : BitVec 4) (btn : List Button) (flags : Word32) (pin : BitVec 17)
    (hv : c.valid = true) :
    ∃ hist' btn' flags', ∀ (s : State) (ins : List Input), s.cfg = c →
      step (withInputSide s hist btn flags (.tick pin :: ins)) = .next (withInputSide s hist' btn' flags' ins) := by
  refine ⟨(qpoll c hist (sampleOf (decodePin pin))).1, (pollButtons c (decodePin pin) c.nb 0 btn).1,
    flags ||| rotationFlags (qpoll c hist (sampleOf (decodePin pin))).2 ||| (pollButtons c (decodePin pin) c.nb 0 btn).2,
    fun s ins hc => ?_⟩
  subst hc
  have hfetch := fetch_tick (withInputSide s hist btn flags (.tick pin :: ins)) [] ins pin (.inl rfl) rfl
  have hvalid : (withInputSide s hist btn flags (.tick pin :: ins)).cfg.valid = true := hv
  exact step_of_fetch_run hvalid hfetch

/-- The encoder agent's turn neither reads nor writes the input side: if it answers with one, it answers alike with every
other (60_exceptions.md R310). -/
theorem step_encoder_inputSide (s t : State) (hist : BitVec 4) (btn : List Button) (flags : Word32) (ins : List Input)
    (h : step (withInputSide s hist btn flags (.encoder :: ins)) = .next t) :
    ∃ v : State, v.cfg = s.cfg ∧ ∀ hist' btn' flags' ins',
      step (withInputSide s hist' btn' flags' (.encoder :: ins')) = .next (withInputSide v hist' btn' flags' ins') := by
  have hv : s.cfg.valid = true := (step_cases _ _ h).1
  have hfetch hist' btn' flags' ins' : fetch (withInputSide s hist' btn' flags' (.encoder :: ins')) =
      encoderTurn (withInputSide s hist' btn' flags' ins') := fetch_encoder _ [] ins' (.inl rfl) rfl
  have hvalid hist' btn' flags' ins' : (withInputSide s hist' btn' flags' ins').cfg.valid = true := hv
  cases hn : encoderNext s with
  | error f => simp [step, hvalid, hfetch, encoderTurn, encoderNext_withInputSide, hn, Except.map] at h
  | ok r =>
    cases r with
    | none =>
      refine ⟨s, rfl, fun hist' btn' flags' ins' => ?_⟩
      simp [step, hvalid, hfetch, encoderTurn, encoderNext_withInputSide, hn, Except.map]
    | some r =>
      obtain ⟨i, u⟩ := r
      obtain ⟨e, he⟩ := exec_encoderNext s u i hn
      have hcfg := congrArg State.cfg (encoderNext_frame s u i hn)
      exact ⟨emit u e, hcfg, fun hist' btn' flags' ins' => step_encoder s u i e hist' btn' flags' ins' hv hn he⟩

/-- Settles O22: the tick moves the input side only, and the encoder agent's turn everything else. -/
theorem tickAndEncoderEventCommute : Obligations.TickAndEncoderEventCommute := by
  intro s s1 s2 pin rest htick hencoder
  have hv : s.cfg.valid = true := (step_cases _ _ htick).1
  obtain ⟨hist, btn, flags, ticks⟩ := step_tick_inputSide s.cfg s.hist s.btn s.evflags pin hv
  obtain ⟨v, hcfg, turns⟩ := step_encoder_inputSide s s2 s.hist s.btn s.evflags (.tick pin :: rest) hencoder
  obtain rfl : withInputSide s hist btn flags (.encoder :: rest) = s1 :=
    Host.Outcome.next.inj ((ticks s (.encoder :: rest) rfl).symm.trans htick)
  obtain rfl : withInputSide v s.hist s.btn s.evflags (.tick pin :: rest) = s2 :=
    Host.Outcome.next.inj ((turns s.hist s.btn s.evflags (.tick pin :: rest)).symm.trans hencoder)
  exact ⟨withInputSide v hist btn flags rest, turns hist btn flags rest, ticks v rest hcfg, rfl, rfl⟩

end Sys2Proof.Proofs
end

section
/-! The family 70_reset_and_hazards.md: what reset leaves in every register (R320), a hardware reset of an idle block
(R320, R323), and the sums of the waits of a message (R338). -/

namespace Sys2Proof.Proofs

open Sys2Proof.Machine Sys2Proof.Safety Sys2Proof.Laws

/-! ## Reset -/

/-- There is one tracker for each button after reset, and it is released and armed (70_reset_and_hazards.md R320). -/
theorem afterReset_btn_getElem? (c : Config) (n b : Nat) (hb : b < c.nb) :
    (State.afterReset c n).btn[b]? = some (Button.afterReset c b) := by
  simp [hb]

/-- Nothing is written to TEXT after reset, so each byte is the arbitrary one of power-on (20_memory.md R61). -/
theorem textAt_afterReset (c : Config) (n a : Nat) : (State.afterReset c n).textAt a = Config.powerOnText n a := rfl

/-- Settles O43: the reset value of each register. -/
theorem resetValuesOfEveryRegister : Obligations.ResetValuesOfEveryRegister := by
  intro c n s
  have hlength : s.btn.length = c.nb := by simp [s]
  exact ⟨afterReset_hist c n, hlength, afterReset_btn_getElem? c n, afterReset_evflags c n, afterReset_mode c n,
    afterReset_idx c n, afterReset_nlen c n, afterReset_fmark c n, afterReset_fspace c n, afterReset_shiftst c n,
    afterReset_tone c n, afterReset_phase c n, afterReset_trace c n, afterReset_cfg c n, textAt_afterReset c n⟩

/-- A hardware reset of an idle block is done (70_reset_and_hazards.md R320, R323). -/
theorem hardReset_of_idle (s : State) (hm : s.mode = .idle) :
    hardReset s = .next { State.afterReset s.cfg (s.powerUps + 1) with inputs := s.inputs } := if_pos hm

/-- A hardware reset that is first while MODE is IDLE is the whole turn (70_reset_and_hazards.md R320). -/
theorem fetch_reset_of_idle (s : State) (rest : List Input) (hm : s.mode = .idle) (hin : s.inputs = .reset :: rest) :
    fetch s = .done (hardReset { s with inputs := rest }) := by
  simp only [fetch, hin, hm, takeInput_idle]

/-- Settles O44: the reset is the turn that is next, and an idle block does it. -/
theorem hardwareResetWhileIdle : Obligations.HardwareResetWhileIdle := by
  intro s rest hv hm hin
  simp only [step, hv, if_true, fetch_reset_of_idle s rest hm hin]
  exact hardReset_of_idle { s with inputs := rest } hm

/-! ## The nominal time of a sequence of events -/

/-- The waits of a sequence of events, and the time `d` that each of its switching events takes from the wait after it
(70_reset_and_hazards.md R338). -/
def nominalTime (switches : Event → Bool) (d : Nat) (es : List Event) : Nat := waitSum es + d * es.countP switches

/-- The waits of two sequences of events. -/
theorem waitSum_append (es fs : List Event) : waitSum (es ++ fs) = waitSum es + waitSum fs := by
  induction es with
  | nil => simp [waitSum]
  | cons e es ih => cases e <;> simp [waitSum, ih, Nat.add_assoc]

/-- An event that is no WAIT adds nothing to the sum of the waits. -/
theorem waitSum_cons_of_not_wait (e : Event) (es : List Event) (he : isWait e = false) :
    waitSum (e :: es) = waitSum es := by
  cases e with
  | wait t => cases he
  | setf ch pll f drv => rfl
  | invp ch inv => rfl
  | diso => rfl

/-- The nominal times of two sequences of events add up. -/
theorem nominalTime_append (switches : Event → Bool) (d : Nat) (es fs : List Event) :
    nominalTime switches d (es ++ fs) = nominalTime switches d es + nominalTime switches d fs := by
  simp only [nominalTime, waitSum_append, List.countP_append]
  ring

/-- A wait that nothing shortens takes its own time. -/
theorem nominalTime_cons_wait (switches : Event → Bool) (d t : Nat) (es : List Event)
    (hwait : switches (.wait t) = false) :
    nominalTime switches d (.wait t :: es) = t + nominalTime switches d es := by
  rw [nominalTime, nominalTime, waitSum, List.countP_cons_of_neg (by simp [hwait]), Nat.add_assoc]

/-- A switching event and the wait that is shorter by its time `d` take the whole `t` (70_reset_and_hazards.md R338). -/
theorem nominalTime_cons_switch_wait (switches : Event → Bool) (d t : Nat) (e : Event) (es : List Event)
    (hswitch : switches e = true) (he : isWait e = false) (hwait : switches (.wait (t - d)) = false) (ht : d ≤ t) :
    nominalTime switches d (e :: .wait (t - d) :: es) = t + nominalTime switches d es := by
  have hsum : waitSum (e :: .wait (t - d) :: es) = waitSum (.wait (t - d) :: es) := waitSum_cons_of_not_wait e _ he
  have hcount : (e :: .wait (t - d) :: es).countP switches = (Event.wait (t - d) :: es).countP switches + 1 :=
    List.countP_cons_of_pos hswitch
  have htail := nominalTime_cons_wait switches d (t - d) es hwait
  rw [nominalTime] at htail
  rw [nominalTime, hsum, hcount, Nat.mul_succ]
  omega

/-- An element takes its T: as one wait, or as the switch and a wait that is shorter by T_SWITCH (43_baudot_rtty.md
R210). -/
theorem nominalTime_elemEvents (c : Config) (mark space : Nat) (now tone : Bool) (t : Nat) (ht : c.tSwitch ≤ t) :
    nominalTime isSetf c.tSwitch (elemEvents c mark space now tone t) = t := by
  unfold elemEvents
  split
  · exact nominalTime_cons_wait isSetf c.tSwitch t [] rfl
  · exact nominalTime_cons_switch_wait isSetf c.tSwitch t _ [] rfl rfl rfl ht

/-- A sequence of elements takes the sum of their T, whatever their tones (43_baudot_rtty.md R210). -/
theorem nominalTime_elemsEvents (c : Config) (mark space : Nat) (now : Bool) (es : List (Bool × Nat))
    (hes : ∀ e ∈ es, c.tSwitch ≤ e.2) :
    nominalTime isSetf c.tSwitch (elemsEvents c mark space now es) = (es.map Prod.snd).sum := by
  induction es generalizing now with
  | nil => rfl
  | cons e es ih =>
    obtain ⟨hfirst, hrest⟩ := List.forall_mem_cons.1 hes
    rw [elemsEvents, nominalTime_append, nominalTime_elemEvents c mark space now e.1 e.2 hfirst, ih e.1 hrest,
      List.map_cons, List.sum_cons]

/-- A frame takes six element times and one stop time, whatever its code (43_baudot_rtty.md R209). -/
theorem nominalTime_frameEvents (c : Config) (mark space : Nat) (code : BitVec 5) (hbit : c.tSwitch ≤ c.tRbit)
    (hstop : c.tSwitch ≤ c.tRstop) :
    nominalTime isSetf c.tSwitch (frameEvents c mark space code) = 6 * c.tRbit + c.tRstop := by
  have hes : ∀ e ∈ frameElems c code, c.tSwitch ≤ e.2 := by simp [frameElems, hbit, hstop]
  rw [frameEvents, nominalTime_elemsEvents c mark space true _ hes]
  simp only [frameElems, List.map_cons, List.map_nil, List.sum_cons, List.sum_nil]
  ring

/-- The frames of a sequence of codes take as many frame times. -/
theorem nominalTime_frames (c : Config) (mark space : Nat) (codes : List (BitVec 5)) (hbit : c.tSwitch ≤ c.tRbit)
    (hstop : c.tSwitch ≤ c.tRstop) :
    nominalTime isSetf c.tSwitch (codes.flatMap (frameEvents c mark space)) =
      codes.length * (6 * c.tRbit + c.tRstop) := by
  induction codes with
  | nil => simp [nominalTime, waitSum]
  | cons code codes ih =>
    rw [List.flatMap_cons, nominalTime_append, nominalTime_frameEvents c mark space code hbit hstop, ih,
      List.length_cons]
    ring

/-- A slot takes T_PBIT, whether PHASE is inverted in it or not (44_varicode_psk31.md R246). -/
theorem nominalTime_slotEvents (c : Config) (phase : Bool) (bits : List Bool) (hp : c.tPswitch ≤ c.tPbit) :
    nominalTime isInvp c.tPswitch (slotEvents c phase bits) = c.tPbit * bits.length := by
  induction bits generalizing phase with
  | nil => rfl
  | cons bit bits ih =>
    cases bit with
    | true =>
      rw [slotEvents, nominalTime_cons_wait isInvp _ _ _ rfl, ih, List.length_cons, Nat.mul_succ, Nat.add_comm]
    | false =>
      rw [slotEvents, nominalTime_cons_switch_wait isInvp _ _ _ _ rfl rfl rfl hp, ih, List.length_cons, Nat.mul_succ,
        Nat.add_comm]

/-! ## The sums of a message -/

/-- The waits of an RTTY message: its first SETF is followed by T_RSETTLE in full, every other is in a frame
(70_reset_and_hazards.md R338). -/
theorem waitSum_rttyMessage (c : Config) (mark space : Nat) (text : List Byte) (hv : c.valid = true) :
    waitSum (rttyMessage c mark space text) + c.tSwitch * ((rttyMessage c mark space text).countP isSetf - 1) =
      c.tRsettle + (rttyCodes c text).length * (6 * c.tRbit + c.tRstop) := by
  obtain ⟨-, -, -, -, -, -, -, -, hbit, hstop, -⟩ := bounds_of_valid c hv
  have hframes := nominalTime_frames c mark space (rttyCodes c text) (by omega) (by omega)
  have hcount : (rttyMessage c mark space text).countP isSetf =
      ((rttyCodes c text).flatMap (frameEvents c mark space)).countP isSetf + 1 := by
    simp [rttyMessage, setf, List.countP_cons, isSetf]
  rw [hcount, Nat.add_sub_cancel, ← hframes, nominalTime]
  simp [rttyMessage, setf, waitSum, waitSum_append, Nat.add_assoc]

/-- The waits of a PSK31 message are those of its slots (70_reset_and_hazards.md R338). -/
theorem waitSum_pskMessage (c : Config) (carrier : Nat) (text : List Byte) (hv : c.valid = true) :
    waitSum (pskMessage c carrier text) + c.tPswitch * (pskMessage c carrier text).countP isInvp =
      c.tPbit * (pskBits c text).length := by
  obtain ⟨-, -, -, -, -, -, -, -, -, -, hslot, -⟩ := bounds_of_valid c hv
  rw [← nominalTime_slotEvents c false (pskBits c text) hslot.le]
  simp [pskMessage, nominalTime, setf, isInvp, waitSum, waitSum_append]

/-- Settles O54: the two general sums, and for CFG-T the counts that they turn into the sums of R338. -/
theorem waitSums : Obligations.WaitSums := by
  have hsetf : (rttyMessage Config.cfgT 7100975 7100805 [0x45]).countP isSetf = 13 := by decide
  have hcodes : (rttyCodes Config.cfgT [0x45]).length = 5 := by
    rw [(characterCodes Config.cfgT cfgT_valid).1]
    rfl
  have hslots : (pskBits Config.cfgT [0x65]).length = 44 := by decide
  have hrtty := waitSum_rttyMessage Config.cfgT 7100975 7100805 [0x45] cfgT_valid
  have hpsk := waitSum_pskMessage Config.cfgT 7100975 [0x65] cfgT_valid
  rw [hsetf, hcodes] at hrtty
  rw [hslots] at hpsk
  refine ⟨⟨hsetf, ?_, hslots, ?_⟩, fun c mark space text hv =>
    ⟨waitSum_rttyMessage c mark space text hv, waitSum_pskMessage c mark text hv⟩⟩
  · simpa [Config.cfgT] using hrtty
  · simpa [Config.cfgT] using hpsk

end Sys2Proof.Proofs
end
